-- ==== Sys2Proof/Word.lean ====
section
/-! DEFINITION. The word types of the Panel Controller. Every host access moves one byte at a 16-bit byte address
(R50, R58), and every transport argument is 16 bits (R80). -/

namespace Sys2Proof

/-- A byte of the host bus, of a block memory, of the panel protocol or of a transport response (R50, R80, R86). -/
abbrev Byte := BitVec 8

/-- A host byte address, `h_addr` (R50, R90). -/
abbrev Addr := BitVec 16

/-- A transport argument, `t_arg` (R80, R90). -/
abbrev Arg := BitVec 16

end Sys2Proof
end

