-- ==== Sys2Proof/Config.lean ====
section
/-! DEFINITION. The fixed constants of this hardware (R6), its OPEN parameters (R7), which have no value in the model,
and the free bytes of the reads the spec leaves unspecified. -/

namespace Sys2Proof.Config

/-- `W`, the panel width in pixels (R6). -/
def panelW : Nat := 104

/-- `H`, the panel height in pixels (R6). -/
def panelH : Nat := 212

/-- `ROW_BYTES = ceil(W / 8)` (R6). -/
def rowBytes : Nat := 13

/-- `BUF_BYTES = ROW_BYTES * H`, the length of a PanelBuffer (R6). -/
def bufBytes : Nat := 2756

/-- `LUT_BYTES`, the length of the waveform table (R6). -/
def lutBytes : Nat := 30

/-- `IMG_BITS = W * H`, the pixels of an accepted source image (R6). -/
def imgBits : Nat := 22048

/-- `T_RST_HIGH1`, in milliseconds (R6). -/
def rstHigh1Ms : Arg := 200

/-- `T_RST_LOW`, in milliseconds (R6). -/
def rstLowMs : Arg := 10

/-- `T_RST_HIGH2`, in milliseconds (R6). -/
def rstHigh2Ms : Arg := 200

/-- `T_POLL`, the busy-poll interval in milliseconds (R6). -/
def pollMs : Arg := 100

/-- `DEEP_SLEEP_CHECK` (R6). -/
def deepSleepCheck : Byte := 0xA5

/-- `CLEAR_FILL` (R6). -/
def clearFill : Byte := 0xFF

/-- OPEN parameter `BOOSTER_DATA0` (R7, D19): no value is assumed (assumption log 4). -/
opaque boosterData0 : Byte

/-- OPEN parameter `BOOSTER_DATA1` (R7, D19): no value is assumed (assumption log 4). -/
opaque boosterData1 : Byte

/-- OPEN parameter `BOOSTER_DATA2` (R7, D19): no value is assumed (assumption log 4). -/
opaque boosterData2 : Byte

/-- OPEN parameter `PANEL_SETTING_DATA` (R7, D19): no value is assumed (assumption log 4). -/
opaque panelSettingData : Byte

/-- OPEN parameter `VCOM_INTERVAL_DATA` (R7, D19): no value is assumed (assumption log 4). -/
opaque vcomIntervalData : Byte

/-- OPEN parameter `BUSY_IDLE_LEVEL`, the busy-line level that means idle (R7, D18): no value is assumed
(assumption log 4). -/
opaque busyIdleLevel : Bool

/-- The free byte of the `n`-th unspecified host read (I5, I6): nothing constrains it (assumption log 6). -/
opaque freeByte : Nat → Byte

end Sys2Proof.Config
end

