-- ==== Sys2Proof/Syntax.lean ====
section
/-! DEFINITION. The instructions of spec/opcode_table.json, one constructor a row, with the names their operands use.
The table has three formats: host commands (written to CMD), panel commands (sent with SEND_COMMAND) and transport
requests. -/

namespace Sys2Proof

/-- The pins a transport request can name (R82). -/
inductive Pin where
  /-- reset line, identifier 0x00 -/
  | rst
  /-- data/command select, identifier 0x01 -/
  | dc
  /-- busy status line, identifier 0x02 -/
  | busy
  /-- chip select, identifier 0x03 -/
  | cs
  deriving DecidableEq, Repr

/-- The four block memories (R28 to R30). -/
inductive BlockMem where
  /-- LUT_MEM, the waveform table -/
  | lutMem
  /-- BUF0, the black layer -/
  | buf0
  /-- BUF1, the red layer -/
  | buf1
  /-- IMG_MEM, the source image -/
  | imgMem
  deriving DecidableEq, Repr

/-- The lifecycle states of `STATUS.STATE` (R23, R24); the code 0b11 does not exist. -/
inductive Lifecycle where
  | uninit
  | ready
  | slept
  deriving DecidableEq, Repr

/-- The formats of the opcode table (R70, R80, R86). -/
inductive Format where
  | hostCmd
  | panelCmd
  | transportReq
  deriving DecidableEq, Repr

/-- The instructions, one constructor per row of spec/opcode_table.json. -/
inductive Instr where
  /-- INIT, host byte 0x01 (R120) -/
  | init
  /-- CLEAR, host byte 0x02 (R164) -/
  | clear
  /-- DISPLAY, host byte 0x03 (L = 0, mono) or 0x0B (L = 1, black and red) (R160) -/
  | display (l : Bool)
  /-- SLEEP, host byte 0x04 (R167) -/
  | sleep
  /-- GETBUFFER, host byte 0x05 (D = 0, to BUF0) or 0x15 (D = 1, to BUF1) (R140) -/
  | getbuffer (d : Bool)
  /-- panel byte 0x06 (R180) -/
  | boosterSoftStart
  /-- panel byte 0x04 (R181) -/
  | powerOn
  /-- panel byte 0x00 (R182) -/
  | panelSettings
  /-- panel byte 0x50 (R183) -/
  | vcomDataInterval
  /-- panel byte 0x61 (R184) -/
  | resolution
  /-- panel byte 0x32 (R185) -/
  | lutWrite
  /-- panel byte 0x10 (R186) -/
  | blackDataStart
  /-- panel byte 0x13 (R187) -/
  | redDataStart
  /-- panel byte 0x92 (R188) -/
  | dataStop
  /-- panel byte 0x12 (R189) -/
  | refresh
  /-- panel byte 0x02 (R190) -/
  | powerOff
  /-- panel byte 0x07 (R191) -/
  | deepSleep
  /-- T_INIT, kind 0b000 (R102) -/
  | tInit
  /-- T_SHUTDOWN, kind 0b001 (R103) -/
  | tShutdown
  /-- PIN_WRITE, kind 0b010 (R104) -/
  | pinWrite (p : Pin) (level : Bool)
  /-- PIN_READ, kind 0b011 (R105) -/
  | pinRead (p : Pin)
  /-- DELAY, kind 0b100 (R106) -/
  | delay (ms : Arg)
  /-- SEND_COMMAND, kind 0b101 (R107) -/
  | sendCommand (b : Byte)
  /-- SEND_DATA, kind 0b110 (R108) -/
  | sendData (b : Byte)
  deriving DecidableEq, Repr

/-- A transport request, as held on the transport port (R80, R81); kind 0b111 does not exist (R84). -/
inductive Request where
  | tInit
  | tShutdown
  | pinWrite (p : Pin) (level : Bool)
  | pinRead (p : Pin)
  | delay (ms : Arg)
  | sendCommand (b : Byte)
  | sendData (b : Byte)
  deriving DecidableEq, Repr

/-- The micro-operations of the hardwired sequences (R112). -/
inductive MicroOp where
  /-- T_INIT; a nonzero answer ends the command with 0xFF (R123) -/
  | tinit
  /-- T_SHUTDOWN -/
  | tshut
  /-- PIN_WRITE of the reset line -/
  | rst (level : Bool)
  /-- DELAY -/
  | dly (ms : Arg)
  /-- the panel command byte `b` -/
  | cmd (b : Byte)
  /-- the data byte `b`, a constant or a named parameter -/
  | dat (b : Byte)
  /-- `n` data bytes of a block memory in index order -/
  | stream (m : BlockMem) (n : Nat)
  /-- `n` equal data bytes -/
  | fill (b : Byte) (n : Nat)
  /-- WaitReady (R110) -/
  | wait
  /-- the conversion into BUF[k] (R141) -/
  | convert (k : Bool)
  /-- END: `finish(code)`, and STATE where one is given (R112) -/
  | finish (code : Byte) (st : Option Lifecycle)
  deriving DecidableEq, Repr

/-- The format of an instruction's row. -/
def Instr.format : Instr → Format
  | .init => .hostCmd
  | .clear => .hostCmd
  | .display _ => .hostCmd
  | .sleep => .hostCmd
  | .getbuffer _ => .hostCmd
  | .boosterSoftStart => .panelCmd
  | .powerOn => .panelCmd
  | .panelSettings => .panelCmd
  | .vcomDataInterval => .panelCmd
  | .resolution => .panelCmd
  | .lutWrite => .panelCmd
  | .blackDataStart => .panelCmd
  | .redDataStart => .panelCmd
  | .dataStop => .panelCmd
  | .refresh => .panelCmd
  | .powerOff => .panelCmd
  | .deepSleep => .panelCmd
  | .tInit => .transportReq
  | .tShutdown => .transportReq
  | .pinWrite _ _ => .transportReq
  | .pinRead _ => .transportReq
  | .delay _ => .transportReq
  | .sendCommand _ => .transportReq
  | .sendData _ => .transportReq

end Sys2Proof
end

