-- ==== Sys2Proof/WellFormed.lean ====
section
/-! DEFINITION. Which instructions the block can issue (R84, R87, R88): PIN_WRITE names only RST, PIN_READ only BUSY,
and SEND_COMMAND only the twelve panel bytes. -/

namespace Sys2Proof

/-- The twelve panel command bytes the block emits (R87). -/
def panelBytes : List Byte :=
  [0x06, 0x04, 0x00, 0x50, 0x61, 0x32, 0x10, 0x13, 0x92, 0x12, 0x02, 0x07]

/-- The instruction is one the block can issue (R75, R84, R88). -/
def Instr.wellFormed : Instr → Bool
  | .init => true
  | .clear => true
  | .display _ => true
  | .sleep => true
  | .getbuffer _ => true
  | .boosterSoftStart => true
  | .powerOn => true
  | .panelSettings => true
  | .vcomDataInterval => true
  | .resolution => true
  | .lutWrite => true
  | .blackDataStart => true
  | .redDataStart => true
  | .dataStop => true
  | .refresh => true
  | .powerOff => true
  | .deepSleep => true
  | .tInit => true
  | .tShutdown => true
  | .pinWrite p _ => p == .rst
  | .pinRead p => p == .busy
  | .delay _ => true
  | .sendCommand b => panelBytes.contains b
  | .sendData _ => true

end Sys2Proof
end

