-- ==== Sys2Proof/Decode.lean ====
section
/-! DEFINITION. The three encodings (R71, R81, R82, R87): a decoder for each, total on any bits and rejecting by name,
and the encoder written from the same tables. A code names the place its bits stand in, since one byte value can be a
host command and a panel command at once (0x04 is SLEEP on the host bus and POWER-ON on the panel wire). -/

namespace Sys2Proof

/-- Bits at the place they stand: the CMD register, a SEND_COMMAND byte, or the transport port. -/
inductive Code where
  /-- a byte written to CMD (R70) -/
  | host (v : Byte)
  /-- a byte framed as a panel command (R86) -/
  | panel (b : Byte)
  /-- `t_kind` and `t_arg` (R80) -/
  | request (kind : BitVec 3) (arg : Arg)
  deriving DecidableEq, Repr

/-- Why a code stands for no instruction. -/
inductive DecodeError where
  /-- OP is 0b000, 0b110 or 0b111 (R72, R75) -/
  | reservedOp
  /-- RSV is not 0b000 (R71, R75) -/
  | reservedBits
  /-- L = 1 with OP other than DISPLAY (R73, R75) -/
  | layerWithoutDisplay
  /-- D = 1 with OP other than GETBUFFER (R74, R75) -/
  | destWithoutGetbuffer
  /-- a panel byte that is none of the twelve (R88) -/
  | unknownPanelByte
  /-- transport kind 0b111 (R84) -/
  | reservedKind
  /-- a pin identifier above 0x03 (R82) -/
  | unknownPin
  /-- a `t_arg` bit that the kind's format fixes at 0 is 1 (R81, R82) -/
  | reservedArgBits
  deriving DecidableEq, Repr

/-- `OP = v[2:0]` (R71). -/
def cmdOp (v : Byte) : BitVec 3 := v.extractLsb' 0 3

/-- `L = v[3]` (R71). -/
def cmdL (v : Byte) : Bool := v.getLsbD 3

/-- `D = v[4]` (R71). -/
def cmdD (v : Byte) : Bool := v.getLsbD 4

/-- `RSV = v[7:5]` (R71). -/
def cmdRsv (v : Byte) : BitVec 3 := v.extractLsb' 5 3

/-- Assemble a host command byte from its fields (R71). -/
def cmdByte (op : BitVec 3) (l d : Bool) : Byte :=
  0#3 ++ (BitVec.ofBool d ++ (BitVec.ofBool l ++ op))

/-- Decode a byte written to CMD (R71 to R76). -/
def decodeHost (v : Byte) : Except DecodeError Instr :=
  if cmdRsv v ≠ 0 then .error .reservedBits
  else if cmdOp v = 0b000 ∨ cmdOp v = 0b110 ∨ cmdOp v = 0b111 then .error .reservedOp
  else if cmdL v = true ∧ cmdOp v ≠ 0b011 then .error .layerWithoutDisplay
  else if cmdD v = true ∧ cmdOp v ≠ 0b101 then .error .destWithoutGetbuffer
  else if cmdOp v = 0b001 then .ok .init
  else if cmdOp v = 0b010 then .ok .clear
  else if cmdOp v = 0b011 then .ok (.display (cmdL v))
  else if cmdOp v = 0b100 then .ok .sleep
  else .ok (.getbuffer (cmdD v))

/-- Decode a byte framed as a panel command (R87, R88). -/
def decodePanel (b : Byte) : Except DecodeError Instr :=
  if b = 0x06 then .ok .boosterSoftStart
  else if b = 0x04 then .ok .powerOn
  else if b = 0x00 then .ok .panelSettings
  else if b = 0x50 then .ok .vcomDataInterval
  else if b = 0x61 then .ok .resolution
  else if b = 0x32 then .ok .lutWrite
  else if b = 0x10 then .ok .blackDataStart
  else if b = 0x13 then .ok .redDataStart
  else if b = 0x92 then .ok .dataStop
  else if b = 0x12 then .ok .refresh
  else if b = 0x02 then .ok .powerOff
  else if b = 0x07 then .ok .deepSleep
  else .error .unknownPanelByte

/-- The identifier of a pin, `t_arg[15:8]` (R82). -/
def pinId : Pin → Byte
  | .rst => 0x00
  | .dc => 0x01
  | .busy => 0x02
  | .cs => 0x03

/-- The pin an identifier names (R82). -/
def pinOfId (b : Byte) : Except DecodeError Pin :=
  if b = 0x00 then .ok .rst
  else if b = 0x01 then .ok .dc
  else if b = 0x02 then .ok .busy
  else if b = 0x03 then .ok .cs
  else .error .unknownPin

/-- `t_arg[15:8]` (R82). -/
def argHi (a : Arg) : Byte := a.extractLsb' 8 8

/-- `t_arg[7:0]` (R82). -/
def argLo (a : Arg) : Byte := a.extractLsb' 0 8

/-- Decode the transport port's `t_kind` and `t_arg` (R81, R82, R84). -/
def decodeRequest (kind : BitVec 3) (arg : Arg) : Except DecodeError Instr :=
  if kind = 0b000 then if arg = 0 then .ok .tInit else .error .reservedArgBits
  else if kind = 0b001 then if arg = 0 then .ok .tShutdown else .error .reservedArgBits
  else if kind = 0b010 then
    if (argLo arg).extractLsb' 1 7 = 0 then
      (pinOfId (argHi arg)).map fun p => .pinWrite p (arg.getLsbD 0)
    else .error .reservedArgBits
  else if kind = 0b011 then
    if argLo arg = 0 then (pinOfId (argHi arg)).map fun p => .pinRead p
    else .error .reservedArgBits
  else if kind = 0b100 then .ok (.delay arg)
  else if kind = 0b101 then
    if argHi arg = 0 then .ok (.sendCommand (argLo arg)) else .error .reservedArgBits
  else if kind = 0b110 then
    if argHi arg = 0 then .ok (.sendData (argLo arg)) else .error .reservedArgBits
  else .error .reservedKind

/-- Decode bits at the place they stand. -/
def decode : Code → Except DecodeError Instr
  | .host v => decodeHost v
  | .panel b => decodePanel b
  | .request k a => decodeRequest k a

/-- `t_kind` of a request (R81). -/
def requestKind : Request → BitVec 3
  | .tInit => 0b000
  | .tShutdown => 0b001
  | .pinWrite _ _ => 0b010
  | .pinRead _ => 0b011
  | .delay _ => 0b100
  | .sendCommand _ => 0b101
  | .sendData _ => 0b110

/-- `t_arg` of a request (R81, R82). -/
def requestArg : Request → Arg
  | .tInit => 0
  | .tShutdown => 0
  | .pinWrite p l => pinId p ++ (0#7 ++ BitVec.ofBool l)
  | .pinRead p => pinId p ++ 0#8
  | .delay n => n
  | .sendCommand b => 0#8 ++ b
  | .sendData b => 0#8 ++ b

/-- A request as the bits of the transport port (R80). -/
def requestCode (r : Request) : Code := .request (requestKind r) (requestArg r)

/-- The code of an instruction, at the place its format stands (R75, R81, R87). -/
def encode : Instr → Code
  | .init => .host (cmdByte 0b001 false false)
  | .clear => .host (cmdByte 0b010 false false)
  | .display l => .host (cmdByte 0b011 l false)
  | .sleep => .host (cmdByte 0b100 false false)
  | .getbuffer d => .host (cmdByte 0b101 false d)
  | .boosterSoftStart => .panel 0x06
  | .powerOn => .panel 0x04
  | .panelSettings => .panel 0x00
  | .vcomDataInterval => .panel 0x50
  | .resolution => .panel 0x61
  | .lutWrite => .panel 0x32
  | .blackDataStart => .panel 0x10
  | .redDataStart => .panel 0x13
  | .dataStop => .panel 0x92
  | .refresh => .panel 0x12
  | .powerOff => .panel 0x02
  | .deepSleep => .panel 0x07
  | .tInit => requestCode .tInit
  | .tShutdown => requestCode .tShutdown
  | .pinWrite p l => requestCode (.pinWrite p l)
  | .pinRead p => requestCode (.pinRead p)
  | .delay n => requestCode (.delay n)
  | .sendCommand b => requestCode (.sendCommand b)
  | .sendData b => requestCode (.sendData b)

/-- The instruction of a word numbered as spec/opcode_table.json numbers it. The table's words of different formats
share byte values and a word does not say where it stands, so the byte is read as a host command first and, where it
is none, as a panel command (assumption log 16). A word above the one byte of every row is refused. -/
def decodeTableWord (nbits w : Nat) : Option Instr :=
  if nbits ≤ 8 ∧ w < 256 then
    match decodeHost (BitVec.ofNat 8 w) with
    | .ok i => some i
    | .error _ =>
      match decodePanel (BitVec.ofNat 8 w) with
      | .ok i => some i
      | .error _ => none
  else none

end Sys2Proof
end

