-- ==== Sys2Proof/Machine/State.lean ====
section
/-! DEFINITION. The state of the Panel Controller as plain data (R20 to R35, R90), the reasons a step can stop, and the
state after reset (R35, R230, R245). -/

namespace Sys2Proof.Machine

/-- `SEQ.OP`, the running command (R31). `STATUS.RUNNING` is 1 exactly when it is not `idle`, so RUNNING is a view of
this field (assumption log 18). -/
inductive SeqOp where
  | idle
  | init
  | clear
  | display
  | sleep
  | getbuffer
  deriving DecidableEq, Repr

/-- One entry of the trace (R12): a request the block issued and the response it got, all 8 bits of it; no response
where block reset abandoned the request (assumption log 13). -/
structure Event where
  req : Request
  rsp : Option Byte
  deriving DecidableEq, Repr

/-- The block's inputs in one clock (R90), and whether the engine takes a step it has ready in this clock: the spec
leaves the engine's pace open (I11, D33), so the pace is an input (assumption log 2). The default is a clock in which
nobody touches the block and the engine is free to step. -/
structure ClockIn where
  /-- `rst`, block reset -/
  rst : Bool := false
  /-- `h_we`, host write strobe -/
  hWe : Bool := false
  /-- `h_re`, host read strobe -/
  hRe : Bool := false
  /-- `h_addr` -/
  hAddr : Addr := 0
  /-- `h_wdata` -/
  hWdata : Byte := 0
  /-- `t_done`, the transport completes the outstanding request -/
  tDone : Bool := false
  /-- `t_rsp`, sampled with `t_done` -/
  tRsp : Byte := 0
  /-- the engine takes the step it has ready in this clock -/
  tick : Bool := true
  deriving DecidableEq, Repr

/-- The written bytes of the four block memories, by host address (R50): addresses strictly rising. A byte that is not
listed has not been written since reset and has no value (I4, R245; assumption log 5). -/
abbrev Memory := List Host.Cell

/-- The state of the block, of its ports and of its environment's pending inputs. -/
structure State where
  /-- `STATUS.STATE` (R23, R24) -/
  lifecycle : Lifecycle
  /-- `STATUS.DROP` (R23, R56) -/
  drop : Bool
  /-- `STATUS.WAITING` (R23, R110) -/
  waiting : Bool
  /-- `RESULT` (R25, R211) -/
  result : Byte
  /-- `LUT_LEN` (R26) -/
  lutLen : Byte
  /-- `IMG_W_LO` (R27) -/
  imgWLo : Byte
  /-- `IMG_W_HI` (R27) -/
  imgWHi : Byte
  /-- `IMG_H_LO` (R27) -/
  imgHLo : Byte
  /-- `IMG_H_HI` (R27) -/
  imgHHi : Byte
  /-- LUT_MEM, BUF0, BUF1 and IMG_MEM (R28 to R30) -/
  mem : Memory
  /-- `SEQ.OP` (R31); `STATUS.RUNNING` is its view -/
  seqOp : SeqOp
  /-- `SEQ.L` (R31) -/
  seqL : Bool
  /-- `SEQ.D` (R31) -/
  seqD : Bool
  /-- `SEQ.STEP`, the micro-operation's index in the command's list, from 1 (R31, R112) -/
  seqStep : Nat
  /-- `SEQ.I`, the index inside a streaming micro-operation (R31), and the phase of a WaitReady: 0 to poll, 1 to
  delay (assumption log 9) -/
  seqI : Nat
  /-- the transport port: the outstanding request, which is `t_kind` and `t_arg`; `SEQ.OUT` and `t_req` are 1 exactly
  when there is one (R31, R33, R90; assumption log 18) -/
  port : Option Request
  /-- `h_rdata`, where it is valid: in the clock after a read (R90; assumption log 11) -/
  hRdata : Option Byte
  /-- the model's own counter of the free bytes drawn (I5, I6; assumption log 6) -/
  draws : Nat
  /-- the trace since launch, newest entry first (R12, R242) -/
  log : List Event
  /-- the inputs of the coming clocks, the next one first (assumption log 1) -/
  inputs : List ClockIn
  deriving DecidableEq, Repr

/-- Why the machine stops. Every fault is safe: the model stops where the block goes on or where no run arrives. -/
inductive Fault where
  /-- Raised by a host read of a byte of a block memory that nothing has written since reset, by INIT and DISPLAY when
  they stream such a byte, and by GETBUFFER when it reads one (I4 gives this treatment). Safe. -/
  | unwrittenByte (addr : Nat)
  /-- Raised by a transport request the block never issues: PIN_WRITE of a pin other than RST, PIN_READ of a pin other
  than BUSY, SEND_COMMAND of a byte outside the twelve (I14 gives this treatment). Safe; no run raises it. -/
  | neverIssued (i : Instr)
  /-- Raised by an engine step whose SEQ.STEP is outside its command's list. Safe; no run raises it. -/
  | noSuchStep (n : Nat)
  deriving DecidableEq, Repr

/-- Why an instruction has no meaning. -/
inductive Refusal where
  /-- Raised by an arm of `exec` whose instruction is not modelled yet. Safe; no arm raises it now. -/
  | notModelled (mnemonic : String)
  deriving DecidableEq, Repr

/-- What a step or a meaning answers. -/
abbrev Out := Host.Outcome State Fault Refusal

/-- The state right after block reset, `ResetClean` (R35, R230, R245). The fields SEQ.L, SEQ.D, SEQ.STEP and SEQ.I are
don't-care there (R31; assumption log 7), and `hRdata`, `draws` and `inputs` are the model's (assumption log 1, 6, 11). -/
def State.reset : State where
  lifecycle := .uninit
  drop := false
  waiting := false
  result := 0x00
  lutLen := 0x00
  imgWLo := 0x00
  imgWHi := 0x00
  imgHLo := 0x00
  imgHHi := 0x00
  mem := []
  seqOp := .idle
  seqL := false
  seqD := false
  seqStep := 0
  seqI := 0
  port := none
  hRdata := none
  draws := 0
  log := []
  inputs := []

end Sys2Proof.Machine
end

