-- ==== Sys2Proof/Machine/Ops.lean ====
section
/-! DEFINITION. The named operations over the block memories, the registers, the sequencer's position and the
transport port. The block has no exceptions (R210): `State.finish`, which ends a command and writes its code, and
`State.reject`, which turns one away, stand where other machines take and leave an exception. -/

namespace Sys2Proof.Machine

/-! ### Block memories -/

/-- First host address of a block memory (R50). -/
def memBase : BlockMem → Nat
  | .lutMem => 0x0100
  | .buf0 => 0x1000
  | .buf1 => 0x2000
  | .imgMem => 0x3000

/-- Length of a block memory in bytes (R28 to R30). -/
def memSize : BlockMem → Nat
  | .lutMem => Config.lutBytes
  | .buf0 => Config.bufBytes
  | .buf1 => Config.bufBytes
  | .imgMem => Config.bufBytes

/-- The address lies in the block memory (R50). -/
def inMem (m : BlockMem) (a : Nat) : Bool := memBase m ≤ a && a < memBase m + memSize m

/-- The address is backed by a block memory (R50). -/
def isStored (a : Nat) : Bool := inMem .lutMem a || inMem .buf0 a || inMem .buf1 a || inMem .imgMem a

/-- The byte at a host address, or none where nothing has written it since reset (I4). -/
def memRead (m : Memory) (a : Nat) : Option Byte := m.lookup a

/-- Write one byte; the list stays sorted by address. -/
def memWrite : Memory → Nat → Byte → Memory
  | [], a, b => [(a, b)]
  | (k, c) :: rest, a, b =>
    if a < k then (a, b) :: (k, c) :: rest
    else if a = k then (a, b) :: rest
    else (k, c) :: memWrite rest a b

/-- Write bytes to consecutive addresses. -/
def memWriteRun : Memory → Nat → List Byte → Memory
  | m, _, [] => m
  | m, a, b :: bs => memWriteRun (memWrite m a b) (a + 1) bs

/-- Read `n` consecutive bytes, or the first address that nothing has written. -/
def memReadRun (m : Memory) : Nat → Nat → Except Nat (List Byte)
  | _, 0 => .ok []
  | a, n + 1 =>
    match memRead m a with
    | none => .error a
    | some b => (memReadRun m (a + 1) n).map (b :: ·)

/-- The addresses of a list rise strictly from one entry to the next. -/
def risesFrom : Nat → Memory → Bool
  | _, [] => true
  | lo, (k, _) :: rest => lo ≤ k && risesFrom (k + 1) rest

/-- The canonical form: addresses strictly rising, each backed by a block memory. -/
def memWf (m : Memory) : Bool := risesFrom 0 m && m.all fun c => isStored c.1

/-! ### Registers -/

/-- `STATUS.RUNNING`: a host command is executing (R23, R31). -/
def State.running (s : State) : Bool := s.seqOp != .idle

/-- `IMG_W = {IMG_W_HI, IMG_W_LO}` (R27, R55). -/
def State.imgW (s : State) : BitVec 16 := s.imgWHi ++ s.imgWLo

/-- `IMG_H = {IMG_H_HI, IMG_H_LO}` (R27, R55). -/
def State.imgH (s : State) : BitVec 16 := s.imgHHi ++ s.imgHLo

/-- The trace in the order the requests were issued (R12, R67). -/
def State.trace (s : State) : List Event := s.log.reverse

/-- `BUF[k]` (R10, R140). -/
def bufOf (k : Bool) : BlockMem := if k then .buf1 else .buf0

/-- Byte `i` of a block memory (R10, R50). -/
def State.memByte (s : State) (m : BlockMem) (i : Nat) : Option Byte := memRead s.mem (memBase m + i)

/-! ### Commands: acceptance and end -/

/-- A host write made while a command runs is dropped and sets `STATUS.DROP` (R56). -/
def State.dropWrite (s : State) : State := { s with drop := true }

/-- A command evaluated while none runs and turned away: DROP is cleared and RESULT written (R215 checks 2 to 5). -/
def State.reject (code : Byte) (s : State) : State := { s with drop := false, result := code }

/-- A command accepted: DROP is cleared and the sequencer latches its fields and stands at step 1 (R215 checks 2
and 6). SEQ.I starts at 0 (assumption log 9). -/
def State.start (op : SeqOp) (l d : Bool) (s : State) : State :=
  { s with drop := false, seqOp := op, seqL := l, seqD := d, seqStep := 1, seqI := 0 }

/-- The acceptance of a command byte (R215): dropped while a command runs, else turned away with the code of the first
check that fails, else started. -/
def accept (op : SeqOp) (l d : Bool) (refusal : Option Byte) (s : State) : Out :=
  if s.running then .next s.dropWrite
  else
    match refusal with
    | some code => .next (s.reject code)
    | none => .next (s.start op l d)

/-- `finish(code)`, and STATE where END gives one: the sequencer returns to idle, so RUNNING is 0 (R11, R112). -/
def State.finish (code : Byte) (st : Option Lifecycle) (s : State) : State :=
  { s with result := code, seqOp := .idle, lifecycle := st.getD s.lifecycle }

/-! ### The sequencer's position -/

/-- The next micro-operation, at its first index (R112). -/
def State.advance (s : State) : State := { s with seqStep := s.seqStep + 1, seqI := 0 }

/-- The same micro-operation at another index (R31). -/
def State.setIndex (i : Nat) (s : State) : State := { s with seqI := i }

/-- `STATUS.WAITING <- b` (R110). -/
def State.setWaiting (b : Bool) (s : State) : State := { s with waiting := b }

/-- Replace the block memories. -/
def State.setMem (m : Memory) (s : State) : State := { s with mem := m }

/-! ### The transport port -/

/-- Raise a request: `t_req` rises with its kind and argument (R101). -/
def State.raise (r : Request) (s : State) : State := { s with port := some r }

/-- Issue a request (R101). While one is outstanding the block issues nothing else and holds (R33, R101). -/
def issue (r : Request) (s : State) : Out :=
  if s.port.isSome then .next s else .next (s.raise r)

/-- The transport answers the request `r`: `t_req` falls, and the request enters the trace with its response (R12,
R101). -/
def State.answer (r : Request) (rsp : Byte) (s : State) : State :=
  { s with port := none, log := { req := r, rsp := some rsp } :: s.log }

/-! ### The host port and the inputs -/

/-- `h_rdata <- v`, valid in the next clock (R90). -/
def State.setRdata (v : Option Byte) (s : State) : State := { s with hRdata := v }

/-- An unspecified read: `h_rdata` is a fresh free byte (I5, I6). -/
def State.drawRdata (s : State) : State :=
  { s with hRdata := some (Config.freeByte s.draws), draws := s.draws + 1 }

/-- Replace the pending inputs. -/
def State.setInputs (ins : List ClockIn) (s : State) : State := { s with inputs := ins }

/-- The trace when block reset comes: a request still outstanding stays in it without a response (R231; assumption
log 13). -/
def abandonedLog (s : State) : List Event :=
  match s.port with
  | none => s.log
  | some r => { req := r, rsp := none } :: s.log

/-- Block reset (R230, R231): every piece of the block's state takes its reset value. What is outside the block stays:
the trace, the pending inputs and the model's counter of free bytes. -/
def State.blockReset (s : State) : State :=
  { State.reset with log := abandonedLog s, draws := s.draws, inputs := s.inputs }

end Sys2Proof.Machine
end

