-- ==== Sys2Proof/Machine/Flags.lean ====
section
/-! DEFINITION. The STATUS byte (R23) and the codes of its fields. -/

namespace Sys2Proof.Machine

/-- The code of a lifecycle state in `STATUS[1:0]` (R23). -/
def lifecycleCode : Lifecycle → BitVec 2
  | .uninit => 0b00
  | .ready => 0b01
  | .slept => 0b10

/-- STATUS as the host reads it: `[7:5]` are 0, then WAITING, DROP, RUNNING and STATE (R23). -/
def statusByte (s : State) : Byte :=
  0#3 ++ (BitVec.ofBool s.waiting ++ (BitVec.ofBool s.drop ++
    (BitVec.ofBool s.running ++ lifecycleCode s.lifecycle)))

/-! Completion codes, the values of RESULT (R211). -/

/-- OK -/
def codeOk : Byte := 0x00

/-- ERR_LUT_LENGTH -/
def codeLutLength : Byte := 0x01

/-- GEOMETRY_UNSUPPORTED -/
def codeGeometry : Byte := 0x02

/-- ERR_STATE -/
def codeState : Byte := 0x03

/-- ERR_ILLEGAL_CMD -/
def codeIllegal : Byte := 0x04

/-- ERR_TRANSPORT_INIT, the pattern of −1 (R9) -/
def codeTransportInit : Byte := 0xFF

/-- Check 4 of acceptance: CLEAR, DISPLAY and SLEEP are legal in READY only (R212, R215). -/
def stateRefusal (s : State) : Option Byte := if s.lifecycle = .ready then none else some codeState

/-- Check 5 of acceptance: INIT needs `LUT_LEN = 30` (R121, R215). -/
def lutRefusal (s : State) : Option Byte := if s.lutLen = 30 then none else some codeLutLength

end Sys2Proof.Machine
end

