-- ==== Sys2Proof/Machine/Operands.lean ====
section
/-! DEFINITION. What a host address reaches (R50), what a transport port shows (R90), and the source geometry that
GETBUFFER finds in the IMG registers (R143). -/

namespace Sys2Proof.Machine

/-- What a host address reaches (R50). -/
inductive Target where
  | cmd
  | status
  | result
  | lutLen
  | imgWLo
  | imgWHi
  | imgHLo
  | imgHHi
  /-- byte `i` of a block memory -/
  | cell (m : BlockMem) (i : Nat)
  | reserved
  deriving DecidableEq, Repr

/-- The registers of the host address map, addresses 0x0000 to 0x0007 (R50). -/
def registerAt : Nat → Target
  | 0x0000 => .cmd
  | 0x0001 => .status
  | 0x0002 => .result
  | 0x0003 => .lutLen
  | 0x0004 => .imgWLo
  | 0x0005 => .imgWHi
  | 0x0006 => .imgHLo
  | 0x0007 => .imgHHi
  | _ => .reserved

/-- Byte `n - base` of the block memory that holds the address `n` (R50). -/
def cellAt (m : BlockMem) (n : Nat) : Target := .cell m (n - memBase m)

/-- The host address map (R50); every address it does not name is reserved (R51). -/
def target (a : Addr) : Target :=
  if inMem .lutMem a.toNat then cellAt .lutMem a.toNat
  else if inMem .buf0 a.toNat then cellAt .buf0 a.toNat
  else if inMem .buf1 a.toNat then cellAt .buf1 a.toNat
  else if inMem .imgMem a.toNat then cellAt .imgMem a.toNat
  else registerAt a.toNat

/-- `t_req`, which is also `SEQ.OUT` (R31, R90). -/
def State.tReq (s : State) : Bool := s.port.isSome

/-- `t_kind` while `t_req = 1` (R90); the spec gives it no value otherwise. -/
def State.tKind (s : State) : Option (BitVec 3) := s.port.map requestKind

/-- `t_arg` while `t_req = 1` (R90); the spec gives it no value otherwise. -/
def State.tArg (s : State) : Option Arg := s.port.map requestArg

/-- The three cases of the geometry test (R143). -/
inductive Geometry where
  | native
  | transposed
  | unsupported
  deriving DecidableEq, Repr

/-- The geometry test (R143): all 16 bits of each value, the native case first. -/
def geometryOf (w h : BitVec 16) : Geometry :=
  if w = BitVec.ofNat 16 Config.panelW ∧ h = BitVec.ofNat 16 Config.panelH then .native
  else if w = BitVec.ofNat 16 Config.panelH ∧ h = BitVec.ofNat 16 Config.panelW then .transposed
  else .unsupported

/-- The geometry of the source image the host set up (R141). -/
def State.geometry (s : State) : Geometry := geometryOf s.imgW s.imgH

/-- GETBUFFER's completion code (R140, R148). -/
def State.geometryCode (s : State) : Byte :=
  match s.geometry with
  | .native => codeOk
  | .transposed => codeOk
  | .unsupported => codeGeometry

end Sys2Proof.Machine
end

