-- ==== Sys2Proof/Machine/Convert.lean ====
section
/-! DEFINITION. CONVERT, the bitmap-to-panel-buffer converter (R141), written as the spec's loops. -/

namespace Sys2Proof.Machine

/-- `pix(x, y)` of an image of width `w` (R53, R141): false is black, true is white. -/
def pix (img : List Byte) (w x y : Nat) : Bool :=
  (img.getD ((x + y * w) / 8) 0xFF).getLsbD (7 - (x + y * w) % 8)

/-- The pixels `(x, y)` with `x < w` and `y < h`, row by row (R141). -/
def pixels (w h : Nat) : List (Nat × Nat) :=
  (List.range h).flatMap fun y => (List.range w).map fun x => (x, y)

/-- The destination before any pixel: every byte 0xFF (R142). -/
def prefill : List Byte := List.replicate Config.bufBytes 0xFF

/-- Clear the bit `0x80 >> k` of byte `i` (R141). -/
def clearPixel (buf : List Byte) (i k : Nat) : List Byte :=
  buf.modify i fun b => b &&& ~~~(0x80#8 >>> k)

/-- One pixel of the native loop (R141, R144). -/
def nativePixel (img buf : List Byte) (p : Nat × Nat) : List Byte :=
  if pix img Config.panelW p.1 p.2 then buf
  else clearPixel buf ((p.1 + p.2 * Config.panelW) / 8) (p.1 % 8)

/-- One pixel of the transposed loop: `newx = y`, `newy = H - x - 1` (R141, R146). -/
def transposedPixel (img buf : List Byte) (p : Nat × Nat) : List Byte :=
  if pix img Config.panelH p.1 p.2 then buf
  else clearPixel buf ((p.2 + (Config.panelH - p.1 - 1) * Config.panelW) / 8) (p.2 % 8)

/-- The native loop (R141). -/
def convertNative (img : List Byte) : List Byte :=
  (pixels Config.panelW Config.panelH).foldl (nativePixel img) prefill

/-- The transposed loop (R141). -/
def convertTransposed (img : List Byte) : List Byte :=
  (pixels Config.panelH Config.panelW).foldl (transposedPixel img) prefill

/-- Write a whole PanelBuffer into BUF[k] (R140). -/
def State.writeBuf (k : Bool) (bytes : List Byte) (s : State) : State :=
  s.setMem (memWriteRun s.mem (memBase (bufOf k)) bytes)

/-- IMG_MEM, or the first of its addresses that nothing has written (I4). -/
def State.image (s : State) : Except Nat (List Byte) :=
  memReadRun s.mem (memBase .imgMem) (memSize .imgMem)

/-- `CONVERT(k)` (R141), the whole of it in one engine step (R113, R149; assumption log 14). An unsupported geometry
reads no byte of IMG_MEM (R148). -/
def convertStep (k : Bool) (s : State) : Out :=
  match s.geometry with
  | .native =>
    match s.image with
    | .error a => .fault (.unwrittenByte a)
    | .ok img => .next (s.writeBuf k (convertNative img)).advance
  | .transposed =>
    match s.image with
    | .error a => .fault (.unwrittenByte a)
    | .ok img => .next (s.writeBuf k (convertTransposed img)).advance
  | .unsupported => .next (s.writeBuf k prefill).advance

end Sys2Proof.Machine
end

