-- ==== Sys2Proof/Machine/HostCommands.lean ====
section
/-! DEFINITION. The meanings of the five host commands: what writing their byte to CMD does (R215). An accepted command
starts its hardwired list (Machine/Sequence.lean), whose micro-operations the engine then runs one at a time (R112,
R113; Machine/Engine.lean). -/

namespace Sys2Proof.Machine

/-- INIT (R120, R121): legal in every lifecycle state (R132); turned away with ERR_LUT_LENGTH unless `LUT_LEN = 30`. -/
def execInit (s : State) : Out := accept .init false false (lutRefusal s) s

/-- CLEAR (R164): legal in READY only, else ERR_STATE (R212). -/
def execClear (s : State) : Out := accept .clear false false (stateRefusal s) s

/-- DISPLAY (R160): one layer for L = 0, two for L = 1; legal in READY only, else ERR_STATE (R212). -/
def execDisplay (l : Bool) (s : State) : Out := accept .display l false (stateRefusal s) s

/-- SLEEP (R167): legal in READY only, else ERR_STATE (R212). -/
def execSleep (s : State) : Out := accept .sleep false false (stateRefusal s) s

/-- GETBUFFER (R140): into BUF0 for D = 0, BUF1 for D = 1; legal in every lifecycle state (R151). -/
def execGetbuffer (d : Bool) (s : State) : Out := accept .getbuffer false d none s

/-- An illegal command byte (R75, R213, R215): dropped while a command runs, else ERR_ILLEGAL_CMD. -/
def illegalCmd (s : State) : Out :=
  if s.running then .next s.dropWrite else .next (s.reject codeIllegal)

end Sys2Proof.Machine
end

