-- ==== Sys2Proof/Machine/PanelCommands.lean ====
section
/-! DEFINITION. The meanings of the twelve panel commands (R180 to R191) and their transactions. A panel command is one
command byte framed by SEND_COMMAND: its meaning issues that request (R86, R107). What the byte is followed by, its
payload and the busy-wait after it, is its transaction (R86, R87, R192): the micro-operations the engine runs from the
command byte on. The sequences of Machine/Sequence.lean are made of these transactions. -/

namespace Sys2Proof.Machine

/-- 0x06 BOOSTER SOFT-START (R180). -/
def execBoosterSoftStart (s : State) : Out := issue (.sendCommand 0x06) s

/-- The three tuning bytes follow, in order (R125, R180). -/
def txBoosterSoftStart : List MicroOp :=
  [.cmd 0x06, .dat Config.boosterData0, .dat Config.boosterData1, .dat Config.boosterData2]

/-- 0x04 POWER-ON (R181). -/
def execPowerOn (s : State) : Out := issue (.sendCommand 0x04) s

/-- No payload; WaitReady follows (R126, R181). -/
def txPowerOn : List MicroOp := [.cmd 0x04, .wait]

/-- 0x00 PANEL SETTINGS (R182). -/
def execPanelSettings (s : State) : Out := issue (.sendCommand 0x00) s

/-- One data byte follows (R127, R182). -/
def txPanelSettings : List MicroOp := [.cmd 0x00, .dat Config.panelSettingData]

/-- 0x50 VCOM AND DATA INTERVAL (R183). -/
def execVcomDataInterval (s : State) : Out := issue (.sendCommand 0x50) s

/-- One data byte follows (R128, R183). -/
def txVcomDataInterval : List MicroOp := [.cmd 0x50, .dat Config.vcomIntervalData]

/-- 0x61 RESOLUTION (R184). -/
def execResolution (s : State) : Out := issue (.sendCommand 0x61) s

/-- The width, then the height's high and low byte (R129, R184). -/
def txResolution : List MicroOp :=
  [.cmd 0x61, .dat (BitVec.ofNat 8 Config.panelW), .dat (BitVec.ofNat 8 (Config.panelH >>> 8)),
    .dat (BitVec.ofNat 8 (Config.panelH &&& 0xFF))]

/-- 0x32 LUT WRITE (R185). -/
def execLutWrite (s : State) : Out := issue (.sendCommand 0x32) s

/-- LUT_MEM follows in index order (R130, R185). -/
def txLutWrite : List MicroOp := [.cmd 0x32, .stream .lutMem Config.lutBytes]

/-- 0x10 BLACK DATA START (R186). -/
def execBlackDataStart (s : State) : Out := issue (.sendCommand 0x10) s

/-- BUF0 follows for DISPLAY, the fill byte for CLEAR (R161, R164, R186). -/
def txBlackDataStart (clear : Bool) : List MicroOp :=
  [.cmd 0x10, if clear then .fill Config.clearFill Config.bufBytes else .stream .buf0 Config.bufBytes]

/-- 0x13 RED DATA START (R187). -/
def execRedDataStart (s : State) : Out := issue (.sendCommand 0x13) s

/-- BUF1 follows for DISPLAY, the fill byte for CLEAR (R162, R164, R187). -/
def txRedDataStart (clear : Bool) : List MicroOp :=
  [.cmd 0x13, if clear then .fill Config.clearFill Config.bufBytes else .stream .buf1 Config.bufBytes]

/-- 0x92 DATA STOP (R188). -/
def execDataStop (s : State) : Out := issue (.sendCommand 0x92) s

/-- No payload (R188). -/
def txDataStop : List MicroOp := [.cmd 0x92]

/-- 0x12 REFRESH (R189). -/
def execRefresh (s : State) : Out := issue (.sendCommand 0x12) s

/-- No payload; WaitReady follows (R163, R189). -/
def txRefresh : List MicroOp := [.cmd 0x12, .wait]

/-- 0x02 POWER-OFF (R190). -/
def execPowerOff (s : State) : Out := issue (.sendCommand 0x02) s

/-- No payload; WaitReady follows (R167, R190). -/
def txPowerOff : List MicroOp := [.cmd 0x02, .wait]

/-- 0x07 DEEP-SLEEP (R191). -/
def execDeepSleep (s : State) : Out := issue (.sendCommand 0x07) s

/-- The check code follows (R167, R191). -/
def txDeepSleep : List MicroOp := [.cmd 0x07, .dat Config.deepSleepCheck]

end Sys2Proof.Machine
end

