-- ==== Sys2Proof/Machine/Transport.lean ====
section
/-! DEFINITION. The meanings of the seven transport requests (R102 to R108): each issues its request on the transport
port. What the block does with the answer is in Machine/Engine.lean. -/

namespace Sys2Proof.Machine

/-- T_INIT (R102). -/
def execTInit (s : State) : Out := issue .tInit s

/-- T_SHUTDOWN (R103). -/
def execTShutdown (s : State) : Out := issue .tShutdown s

/-- PIN_WRITE (R104): of the RST pin only; another pin is a request the block never issues (R84, I14). -/
def execPinWrite (p : Pin) (level : Bool) (s : State) : Out :=
  if p = .rst then issue (.pinWrite p level) s else .fault (.neverIssued (.pinWrite p level))

/-- PIN_READ (R105): of the BUSY pin only; another pin is a request the block never issues (R84, I14). -/
def execPinRead (p : Pin) (s : State) : Out :=
  if p = .busy then issue (.pinRead p) s else .fault (.neverIssued (.pinRead p))

/-- DELAY (R106). -/
def execDelay (ms : Arg) (s : State) : Out := issue (.delay ms) s

/-- SEND_COMMAND (R107): of the twelve panel bytes only; another byte is never sent as a command (R88, I14). -/
def execSendCommand (b : Byte) (s : State) : Out :=
  if panelBytes.contains b then issue (.sendCommand b) s else .fault (.neverIssued (.sendCommand b))

/-- SEND_DATA (R108): any byte. -/
def execSendData (b : Byte) (s : State) : Out := issue (.sendData b) s

end Sys2Proof.Machine
end

