-- ==== Sys2Proof/Machine/Dispatch.lean ====
section
/-! DEFINITION. One arm per instruction, each one call of its meaning. -/

namespace Sys2Proof.Machine

def exec (i : Instr) (s : State) : Host.Outcome State Fault Refusal :=
  match i with
  | .init => Sys2Proof.Machine.execInit s
  | .clear => Sys2Proof.Machine.execClear s
  | .display l => Sys2Proof.Machine.execDisplay l s
  | .sleep => Sys2Proof.Machine.execSleep s
  | .getbuffer d => Sys2Proof.Machine.execGetbuffer d s
  | .boosterSoftStart => Sys2Proof.Machine.execBoosterSoftStart s
  | .powerOn => Sys2Proof.Machine.execPowerOn s
  | .panelSettings => Sys2Proof.Machine.execPanelSettings s
  | .vcomDataInterval => Sys2Proof.Machine.execVcomDataInterval s
  | .resolution => Sys2Proof.Machine.execResolution s
  | .lutWrite => Sys2Proof.Machine.execLutWrite s
  | .blackDataStart => Sys2Proof.Machine.execBlackDataStart s
  | .redDataStart => Sys2Proof.Machine.execRedDataStart s
  | .dataStop => Sys2Proof.Machine.execDataStop s
  | .refresh => Sys2Proof.Machine.execRefresh s
  | .powerOff => Sys2Proof.Machine.execPowerOff s
  | .deepSleep => Sys2Proof.Machine.execDeepSleep s
  | .tInit => Sys2Proof.Machine.execTInit s
  | .tShutdown => Sys2Proof.Machine.execTShutdown s
  | .pinWrite p level => Sys2Proof.Machine.execPinWrite p level s
  | .pinRead p => Sys2Proof.Machine.execPinRead p s
  | .delay ms => Sys2Proof.Machine.execDelay ms s
  | .sendCommand b => Sys2Proof.Machine.execSendCommand b s
  | .sendData b => Sys2Proof.Machine.execSendData b s

end Sys2Proof.Machine
end

