-- ==== Sys2Proof/Machine/Sequence.lean ====
section
/-! DEFINITION. The hardwired micro-operation lists of the five host commands (R112, R120, R140, R160, R164, R167), made
of the panel commands' transactions, and the micro-operation the sequencer stands at. -/

namespace Sys2Proof.Machine

/-- The panel reset pulse, INIT steps 2 to 7 (R124). -/
def resetPulse : List MicroOp :=
  [.rst true, .dly Config.rstHigh1Ms, .rst false, .dly Config.rstLowMs, .rst true, .dly Config.rstHigh2Ms]

/-- INIT (R120), steps 1 to 24. -/
def initOps : List MicroOp :=
  .tinit :: (resetPulse ++ txBoosterSoftStart ++ txPowerOn ++ txPanelSettings ++ txVcomDataInterval ++
    txResolution ++ txLutWrite ++ [.finish codeOk (some .ready)])

/-- The black layer of DISPLAY or CLEAR (R161, R164). -/
def blackLayer (clear : Bool) : List MicroOp := txBlackDataStart clear ++ txDataStop

/-- The red layer of DISPLAY or CLEAR (R162, R164). -/
def redLayer (clear : Bool) : List MicroOp := txRedDataStart clear ++ txDataStop

/-- DISPLAY (R160): the red layer only when L = 1. -/
def displayOps (l : Bool) : List MicroOp :=
  blackLayer false ++ (if l then redLayer false else []) ++ txRefresh ++ [.finish codeOk none]

/-- CLEAR (R164). -/
def clearOps : List MicroOp :=
  blackLayer true ++ redLayer true ++ txRefresh ++ [.finish codeOk none]

/-- SLEEP (R167). -/
def sleepOps : List MicroOp := txPowerOff ++ txDeepSleep ++ [.tshut, .finish codeOk (some .slept)]

/-- GETBUFFER (R140). -/
def getbufferOps (d : Bool) (code : Byte) : List MicroOp := [.convert d, .finish code none]

/-- The list of the running command. -/
def State.ops (s : State) : List MicroOp :=
  match s.seqOp with
  | .idle => []
  | .init => initOps
  | .clear => clearOps
  | .display => displayOps s.seqL
  | .sleep => sleepOps
  | .getbuffer => getbufferOps s.seqD s.geometryCode

/-- The micro-operation at SEQ.STEP, counted from 1 (R31). -/
def State.microOp (s : State) : Option MicroOp :=
  match s.seqStep with
  | 0 => none
  | n + 1 => s.ops[n]?

/-- The sequencer is inside a GETBUFFER whose destination is the block memory `m` (R57). -/
def State.converting (s : State) (m : BlockMem) : Bool := s.seqOp == .getbuffer && m == bufOf s.seqD

end Sys2Proof.Machine
end

