-- ==== Sys2Proof/Machine/Engine.lean ====
section
/-! DEFINITION. The engine (R112, R113): which instruction or request-free micro-operation the sequencer stands at, one
engine step, and what the block does with the transport's answer. -/

namespace Sys2Proof.Machine

/-- What one engine step does (R113): it runs an instruction, which issues one request, or it performs a request-free
micro-operation. -/
inductive EngineAct where
  | run (i : Instr)
  | convert (k : Bool)
  | finish (code : Byte) (st : Option Lifecycle)
  deriving DecidableEq, Repr

/-- What the engine does at the micro-operation `u` (R112). A panel command byte is decoded; a stream reads its next
byte; a WaitReady polls at index 0 and delays at index 1 (R110). -/
def actOf (s : State) : MicroOp → Except Fault EngineAct
  | .tinit => .ok (.run .tInit)
  | .tshut => .ok (.run .tShutdown)
  | .rst l => .ok (.run (.pinWrite .rst l))
  | .dly n => .ok (.run (.delay n))
  | .cmd b =>
    match decodePanel b with
    | .ok i => .ok (.run i)
    | .error _ => .error (.neverIssued (.sendCommand b))
  | .dat b => .ok (.run (.sendData b))
  | .stream m _ =>
    match s.memByte m s.seqI with
    | some b => .ok (.run (.sendData b))
    | none => .error (.unwrittenByte (memBase m + s.seqI))
  | .fill b _ => .ok (.run (.sendData b))
  | .wait => if s.seqI = 0 then .ok (.run (.pinRead .busy)) else .ok (.run (.delay Config.pollMs))
  | .convert k => .ok (.convert k)
  | .finish code st => .ok (.finish code st)

/-- What the engine does where the sequencer stands. -/
def engineAct (s : State) : Except Fault EngineAct :=
  match s.microOp with
  | none => .error (.noSuchStep s.seqStep)
  | some u => actOf s u

/-- Entering a WaitReady sets `STATUS.WAITING` (R110; assumption log 10). -/
def State.enterWait (s : State) : State := if s.microOp = some .wait then s.setWaiting true else s

/-- One engine step (R113). -/
def engineStep (s : State) : Out :=
  match engineAct s with
  | .error f => .fault f
  | .ok (.run i) => exec i s.enterWait
  | .ok (.convert k) => convertStep k s
  | .ok (.finish code st) => .next (s.finish code st)

/-- After the answer `rsp` to a streaming micro-operation of `n` bytes: its next index, or the next micro-operation
(R112). -/
def State.nextIndex (n : Nat) (s : State) : State :=
  if s.seqI + 1 < n then s.setIndex (s.seqI + 1) else s.advance

/-- After an answer inside WaitReady (R110): a poll that read idle ends it, any other poll is followed by a delay, and
a delay by the next poll. Only bit 0 of the response is a level (R83). -/
def State.afterWait (rsp : Byte) (s : State) : State :=
  if s.seqI = 0 then
    if rsp.getLsbD 0 = Config.busyIdleLevel then (s.setWaiting false).advance else s.setIndex 1
  else s.setIndex 0

/-- What the sequencer does with an answer at the micro-operation `u` (R112). A nonzero T_INIT status ends the command
with ERR_TRANSPORT_INIT in the same step (R123; assumption log 20). -/
def afterAnswer (u : MicroOp) (rsp : Byte) (s : State) : State :=
  match u with
  | .tinit => if rsp = 0x00 then s.advance else s.finish codeTransportInit none
  | .tshut => s.advance
  | .rst _ => s.advance
  | .dly _ => s.advance
  | .cmd _ => s.advance
  | .dat _ => s.advance
  | .stream _ n => s.nextIndex n
  | .fill _ n => s.nextIndex n
  | .wait => s.afterWait rsp
  | .convert _ => s
  | .finish _ _ => s

/-- The transport answers the outstanding request `r` (R101). -/
def complete (r : Request) (rsp : Byte) (s : State) : State :=
  match s.microOp with
  | none => s.answer r rsp
  | some u => afterAnswer u rsp (s.answer r rsp)

/-- The engine in one clock while a command runs: with a request outstanding it holds until the transport's `t_done`
(R101); with none it takes its next step when the clock lets it. A request is never answered and followed in one
clock, so `t_req` is low for a clock at least (R101). -/
def engineClock (c : ClockIn) (s : State) : Out :=
  match s.port with
  | some r => if c.tDone then .next (complete r c.tRsp s) else .next s
  | none => if c.tick then engineStep s else .next s

end Sys2Proof.Machine
end

