-- ==== Sys2Proof/Machine/HostBus.lean ====
section
/-! DEFINITION. The host bus (R50 to R58, R90): one byte read, one byte write, and the host's part of a clock. -/

namespace Sys2Proof.Machine

/-- What a host read answers. -/
inductive BusRead where
  /-- the byte read -/
  | value (b : Byte)
  /-- an unspecified byte (I5) -/
  | anyValue
  /-- a byte that nothing has written since reset (I4) -/
  | unwritten (addr : Nat)
  deriving DecidableEq, Repr

/-- A read of byte `i` of a block memory: unspecified while GETBUFFER writes that memory (R57, I5), else the byte
written there (I4). -/
def readCell (s : State) (m : BlockMem) (i : Nat) : BusRead :=
  if s.converting m then .anyValue
  else
    match s.memByte m i with
    | some b => .value b
    | none => .unwritten (memBase m + i)

/-- What a host read finds (R22, R50, R51, R57). -/
def readTarget (s : State) : Target → BusRead
  | .cmd => .value 0x00
  | .status => .value (statusByte s)
  | .result => .value s.result
  | .lutLen => .value s.lutLen
  | .imgWLo => .value s.imgWLo
  | .imgWHi => .value s.imgWHi
  | .imgHLo => .value s.imgHLo
  | .imgHHi => .value s.imgHHi
  | .cell m i => readCell s m i
  | .reserved => .value 0x00

/-- `MemRead(a, 1)` (R10, R57): the byte appears on `h_rdata`, and nothing else changes. -/
def hostRead (a : Addr) (s : State) : Out :=
  match readTarget s (target a) with
  | .value b => .next (s.setRdata (some b))
  | .anyValue => .next s.drawRdata
  | .unwritten k => .fault (.unwrittenByte k)

/-- A CMD write (R22, R215): the decoded command, or the illegal-byte rule. -/
def writeCmd (v : Byte) (s : State) : Out :=
  match decodeHost v with
  | .ok i => exec i s
  | .error _ => illegalCmd s

/-- A write to a writable register or memory byte: dropped while a command runs (R56), else made. -/
def writeOrDrop (w : State) (s : State) : Out := if s.running then .next s.dropWrite else .next w

/-- What a host write does (R50, R51, R56). -/
def writeTarget (v : Byte) (s : State) : Target → Out
  | .cmd => writeCmd v s
  | .status => .next s
  | .result => .next s
  | .lutLen => writeOrDrop { s with lutLen := v } s
  | .imgWLo => writeOrDrop { s with imgWLo := v } s
  | .imgWHi => writeOrDrop { s with imgWHi := v } s
  | .imgHLo => writeOrDrop { s with imgHLo := v } s
  | .imgHHi => writeOrDrop { s with imgHHi := v } s
  | .cell m i => writeOrDrop (s.setMem (memWrite s.mem (memBase m + i) v)) s
  | .reserved => .next s

/-- `MemWrite(a, 1, v)` (R10). -/
def hostWrite (a : Addr) (v : Byte) (s : State) : Out := writeTarget v s (target a)

/-- The read of a clock in which the host wrote too: any value (R90, I6; assumption log 27). -/
def readBeside (re : Bool) (s : State) : State := if re then s.drawRdata else s

/-- The host's part of a clock (R90, R243). `h_rdata` is valid only in the clock after a read, and a write takes effect
as if alone where both strobes are raised (I6). -/
def hostClock (c : ClockIn) (s : State) : Out :=
  if c.hWe then hostWrite c.hAddr c.hWdata (readBeside c.hRe (s.setRdata none))
  else if c.hRe then hostRead c.hAddr (s.setRdata none)
  else .next (s.setRdata none)

end Sys2Proof.Machine
end

