-- ==== Sys2Proof/Machine/Clock.lean ====
section
/-! DEFINITION. One clock of the block: block reset first (R230), then the host's access, judged on the state before the
clock, then the engine if a command was running before the clock (R216). -/

namespace Sys2Proof.Machine

/-- Go on from a next state; a fault or a refusal stands. -/
def andThen (o : Out) (f : State → Out) : Out :=
  match o with
  | .next s => f s
  | .fault r => .fault r
  | .refused r => .refused r

/-- The engine's part of a clock, where a command was running before it (R216; assumption log 15). -/
def engineIf (was : Bool) (c : ClockIn) (s : State) : Out := if was then engineClock c s else .next s

/-- One clock with the inputs `c` (R90, R216, R230). -/
def clock (c : ClockIn) (s : State) : Out :=
  if c.rst then .next s.blockReset
  else andThen (hostClock c s) (engineIf s.running c)

/-- The clock's inputs: the next pending ones, or a quiet clock (assumption log 1). -/
def State.nextInput (s : State) : ClockIn := s.inputs.headD {}

/-- The state with the next pending inputs taken. -/
def State.popInput (s : State) : State := s.setInputs s.inputs.tail

/-- One clock with the pending inputs. -/
def clockStep (s : State) : Out := clock s.nextInput s.popInput

/-- The inputs of a clock in which the host writes one byte (R90, R243). -/
def writeIn (a : Addr) (v : Byte) : ClockIn := { hWe := true, hAddr := a, hWdata := v }

/-- The inputs of a clock in which the host reads one byte (R90, R243). -/
def readIn (a : Addr) : ClockIn := { hRe := true, hAddr := a }

/-- The inputs of a clock in which the transport answers (R90, R101). -/
def answerIn (rsp : Byte) : ClockIn := { tDone := true, tRsp := rsp }

/-- The inputs of a clock in which the engine may step and nothing else happens. -/
def tickIn : ClockIn := {}

/-- Where a hardwired list holds each panel command: the command and the step (R87, R120, R160, R164, R167). -/
def panelPosition : Instr → Option (SeqOp × Nat)
  | .boosterSoftStart => some (.init, 8)
  | .powerOn => some (.init, 12)
  | .panelSettings => some (.init, 14)
  | .vcomDataInterval => some (.init, 16)
  | .resolution => some (.init, 18)
  | .lutWrite => some (.init, 22)
  | .blackDataStart => some (.clear, 1)
  | .dataStop => some (.clear, 3)
  | .redDataStart => some (.clear, 4)
  | .refresh => some (.clear, 7)
  | .powerOff => some (.sleep, 1)
  | .deepSleep => some (.sleep, 3)
  | .init => none
  | .clear => none
  | .display _ => none
  | .sleep => none
  | .getbuffer _ => none
  | .tInit => none
  | .tShutdown => none
  | .pinWrite _ _ => none
  | .pinRead _ => none
  | .delay _ => none
  | .sendCommand _ => none
  | .sendData _ => none

/-- The sequencer at step `n` of a command, with no request outstanding. -/
def State.standAt (op : SeqOp) (n : Nat) (s : State) : State :=
  { s with seqOp := op, seqL := false, seqD := false, seqStep := n, seqI := 0, port := none }

/-- The state whose next step runs the word of the opcode table (assumption log 16). A host command's byte is written
to CMD in the next clock, and so is a byte that stands for no instruction; a panel command runs where the sequencer
stands at it. -/
def placeWord (s : State) (nbits w : Nat) : State :=
  match (decodeTableWord nbits w).bind panelPosition with
  | some (op, n) => (s.standAt op n).setInputs (tickIn :: s.inputs)
  | none => s.setInputs (writeIn 0x0000 (BitVec.ofNat 8 w) :: s.inputs)

end Sys2Proof.Machine
end

