-- ==== Sys2Proof/Machine/Step.lean ====
section
/-! DEFINITION. The step: one clock of the block (R90, R113). -/

namespace Sys2Proof.Machine

/-- One step is one clock. -/
def step (s : State) : Host.Outcome State Fault Refusal := clockStep s

/-- The state whose next step runs the word of the opcode table (assumption log 16). -/
def State.withFetchWord (s : State) (nbits w : Nat) : State := placeWord s nbits w

end Sys2Proof.Machine
end

