-- ==== Sys2Proof/Machine/HostProgram.lean ====
section
/-! DEFINITION. The host programs' notation (R77, R78): the three bus forms, the names that stand for bytes, and the
pseudo-instructions with their expansions; and the run of a host program beside the block, clock by clock, with what is
observed of it (R242). -/

namespace Sys2Proof.Machine

/-- The forms of a host program (R77). -/
inductive HostOp where
  /-- `wr ADDR, VAL` -/
  | wr (a : Addr) (v : Byte)
  /-- `rd ADDR -> name` -/
  | rd (a : Addr)
  /-- `poll ADDR, MASK, VAL` -/
  | poll (a : Addr) (mask v : Byte)
  deriving DecidableEq, Repr

/-- The pseudo-instructions (R78). -/
inductive Pseudo where
  | cmd (x : Byte)
  | waitdone
  | run (x : Byte)
  | setlut
  | setimg (wd ht : BitVec 16)
  | fill (m : BlockMem) (n : Nat) (b : Byte)
  deriving DecidableEq, Repr

/-! The command mnemonics of host programs (R77). -/

/-- INIT -/
def byteInit : Byte := 0x01

/-- CLEAR -/
def byteClear : Byte := 0x02

/-- DISPLAY.MONO -/
def byteDisplayMono : Byte := 0x03

/-- DISPLAY.BR -/
def byteDisplayBr : Byte := 0x0B

/-- SLEEP -/
def byteSleep : Byte := 0x04

/-- GETBUF.B0 -/
def byteGetbufB0 : Byte := 0x05

/-- GETBUF.B1 -/
def byteGetbufB1 : Byte := 0x15

/-! The register names of host programs (R50, R77). -/

/-- CMD -/
def addrCmd : Addr := 0x0000

/-- STATUS -/
def addrStatus : Addr := 0x0001

/-- RESULT -/
def addrResult : Addr := 0x0002

/-- LUT_LEN -/
def addrLutLen : Addr := 0x0003

/-- IMG_W_LO -/
def addrImgWLo : Addr := 0x0004

/-- IMG_W_HI -/
def addrImgWHi : Addr := 0x0005

/-- IMG_H_LO -/
def addrImgHLo : Addr := 0x0006

/-- IMG_H_HI -/
def addrImgHHi : Addr := 0x0007

/-- `M+i` (R77). -/
def addrOf (m : BlockMem) (i : Nat) : Addr := BitVec.ofNat 16 (memBase m + i)

/-- The expansion of a pseudo-instruction (R78). -/
def expand : Pseudo → List HostOp
  | .cmd x => [.wr addrCmd x]
  | .waitdone => [.poll addrStatus 0x04 0x00]
  | .run x => [.wr addrCmd x, .poll addrStatus 0x04 0x00]
  | .setlut => [.wr addrLutLen 30]
  | .setimg wd ht =>
    [.wr addrImgWLo (wd.extractLsb' 0 8), .wr addrImgWHi (wd.extractLsb' 8 8),
      .wr addrImgHLo (ht.extractLsb' 0 8), .wr addrImgHHi (ht.extractLsb' 8 8)]
  | .fill m n b => (List.range n).map fun i => .wr (addrOf m i) b

/-- The bus access of a form; a poll repeats its read (R77). -/
def HostOp.input : HostOp → ClockIn
  | .wr a v => writeIn a v
  | .rd a => readIn a
  | .poll a _ _ => readIn a

/-- A poll ends when the value it read satisfies `(value & MASK) = VAL` (R77). -/
def HostOp.done (v : Byte) : HostOp → Bool
  | .wr _ _ => true
  | .rd _ => true
  | .poll _ mask want => v &&& mask == want

/-! ### The run of a host program (R242) -/

/-- What a clock brings to the run of a program beside the program's own accesses: whether the host issues its next
access in it, the transport's answer, and whether the engine steps (assumption log 28). -/
structure Beat where
  /-- the host issues its next access -/
  go : Bool := true
  /-- `t_done` -/
  tDone : Bool := false
  /-- `t_rsp` -/
  tRsp : Byte := 0
  /-- the engine takes the step it has ready -/
  tick : Bool := true
  deriving DecidableEq, Repr

/-- The inputs of a clock: the host's access with the transport's and the engine's part. -/
def Beat.join (b : Beat) (c : ClockIn) : ClockIn := { c with tDone := b.tDone, tRsp := b.tRsp, tick := b.tick }

/-- A host program running beside the block. -/
structure HostRun where
  /-- the block, with the trace issued since launch -/
  block : State
  /-- the forms whose accesses have not all completed, the next one first -/
  todo : List HostOp
  /-- the bytes the program has read, the first one first -/
  reads : List Byte
  deriving DecidableEq, Repr

/-- What a clock of a program's run answers. -/
abbrev HostOut := Host.Outcome HostRun Fault Refusal

/-- A program launched on a block: its trace counts from here (R242, R245). -/
def HostRun.launch (prog : List HostOp) (s : State) : HostRun := { block := { s with log := [] }, todo := prog, reads := [] }

/-- The form whose access the host issues in this clock. -/
def HostRun.issues (b : Beat) (r : HostRun) : Option HostOp := if b.go then r.todo.head? else none

/-- The block's inputs in this clock: the access the host issues, if it issues one. -/
def HostRun.input (b : Beat) (r : HostRun) : ClockIn :=
  b.join (match r.issues b with
    | some op => op.input
    | none => tickIn)

/-- The run after a clock that left the block in `t`. An access completes with its clock: a read's byte stands on `h_rdata`
in `t` (R90, R241). A form is done with its access, a poll only where its byte satisfies it (R77). -/
def HostRun.take (b : Beat) (r : HostRun) (t : State) : HostRun :=
  match r.issues b with
  | some op =>
    { block := t, todo := if op.done (t.hRdata.getD 0) then r.todo.tail else r.todo, reads := r.reads ++ t.hRdata.toList }
  | none => { r with block := t }

/-- One clock of a program's run. -/
def HostRun.clock (b : Beat) (r : HostRun) : HostOut :=
  match Sys2Proof.Machine.clock (r.input b) r.block with
  | .next t => .next (r.take b t)
  | .fault f => .fault f
  | .refused q => .refused q

/-- The run after `n` clocks. -/
def runProgram (beats : Nat → Beat) : Nat → HostRun → HostOut
  | 0, r => .next r
  | n + 1, r =>
    match runProgram beats n r with
    | .next u => u.clock (beats n)
    | .fault f => .fault f
    | .refused q => .refused q

/-- The block's inputs, clock by clock, in a program's run; quiet after the run has stopped. -/
def HostRun.env (beats : Nat → Beat) (r : HostRun) (n : Nat) : ClockIn :=
  match runProgram beats n r with
  | .next u => u.input (beats n)
  | .fault _ => tickIn
  | .refused _ => tickIn

/-- What is observed at the end of a run (R242): the host-visible state and the whole trace since launch. -/
structure Observation where
  status : Byte
  result : Byte
  lutLen : Byte
  imgWLo : Byte
  imgWHi : Byte
  imgHLo : Byte
  imgHHi : Byte
  /-- the written bytes of LUT_MEM, BUF0, BUF1 and IMG_MEM, by host address -/
  mem : Memory
  trace : List Event
  deriving DecidableEq, Repr

/-- The observation of a run where it stands (R242). -/
def HostRun.observe (r : HostRun) : Observation where
  status := statusByte r.block
  result := r.block.result
  lutLen := r.block.lutLen
  imgWLo := r.block.imgWLo
  imgWHi := r.block.imgWHi
  imgHLo := r.block.imgHLo
  imgHHi := r.block.imgHHi
  mem := r.block.mem
  trace := r.block.trace

end Sys2Proof.Machine
end

