-- ==== Sys2Proof/Safety.lean ====
section
/-! DEFINITION. What claims about the block are stated in: quiescence, the invariant that every step keeps, the requests
the block may issue, inputs and traces of cooperative runs, the environment's premises, runs without an end, and the end
of a host program's run (R242 to R245). -/

namespace Sys2Proof.Machine

/-- The block is quiescent (R242): no command runs and no request is outstanding. -/
def Quiescent (s : State) : Prop := s.running = false ∧ s.port = none

/-- The codes RESULT can hold (R211). -/
def resultCodes : List Byte :=
  [codeOk, codeLutLength, codeGeometry, codeState, codeIllegal, codeTransportInit]

/-- The request an instruction issues; a host command issues none of its own. -/
def requestOf : Instr → Option Request
  | .init => none
  | .clear => none
  | .display _ => none
  | .sleep => none
  | .getbuffer _ => none
  | .boosterSoftStart => some (.sendCommand 0x06)
  | .powerOn => some (.sendCommand 0x04)
  | .panelSettings => some (.sendCommand 0x00)
  | .vcomDataInterval => some (.sendCommand 0x50)
  | .resolution => some (.sendCommand 0x61)
  | .lutWrite => some (.sendCommand 0x32)
  | .blackDataStart => some (.sendCommand 0x10)
  | .redDataStart => some (.sendCommand 0x13)
  | .dataStop => some (.sendCommand 0x92)
  | .refresh => some (.sendCommand 0x12)
  | .powerOff => some (.sendCommand 0x02)
  | .deepSleep => some (.sendCommand 0x07)
  | .tInit => some .tInit
  | .tShutdown => some .tShutdown
  | .pinWrite p l => some (.pinWrite p l)
  | .pinRead p => some (.pinRead p)
  | .delay n => some (.delay n)
  | .sendCommand b => some (.sendCommand b)
  | .sendData b => some (.sendData b)

/-- The requests the block may issue (R84, R88, R106): RST is the only pin it writes, BUSY the only pin it reads, the
twelve panel bytes the only commands it sends, and 200, 10 and 100 ms the only delays it asks for. -/
def requestAllowed : Request → Bool
  | .tInit => true
  | .tShutdown => true
  | .pinWrite p _ => p == .rst
  | .pinRead p => p == .busy
  | .delay n => n == 200 || n == 10 || n == 100
  | .sendCommand b => panelBytes.contains b
  | .sendData _ => true

/-- SEQ.I is in the range of the micro-operation (R31, R110, R112). -/
def indexOk (i : Nat) : MicroOp → Bool
  | .stream _ n => i < n
  | .fill _ n => i < n
  | .wait => i ≤ 1
  | .tinit => i == 0
  | .tshut => i == 0
  | .rst _ => i == 0
  | .dly _ => i == 0
  | .cmd _ => i == 0
  | .dat _ => i == 0
  | .convert _ => i == 0
  | .finish _ _ => i == 0

/-- What every reachable state meets. -/
structure State.Inv (s : State) : Prop where
  /-- the block memories keep their canonical form -/
  canonical : memWf s.mem = true
  /-- RESULT holds a completion code (R211) -/
  coded : s.result ∈ resultCodes
  /-- a running command stands inside its list (R31, R112) -/
  placed : s.running = true → ∃ u, s.microOp = some u ∧ indexOk s.seqI u = true
  /-- L is latched by DISPLAY only (R73) -/
  layers : s.running = true → s.seqL = true → s.seqOp = .display
  /-- D is latched by GETBUFFER only (R74) -/
  dest : s.running = true → s.seqD = true → s.seqOp = .getbuffer
  /-- CLEAR, DISPLAY and SLEEP run in READY only (R169) -/
  legal : s.seqOp = .clear ∨ s.seqOp = .display ∨ s.seqOp = .sleep → s.lifecycle = .ready
  /-- INIT runs with 30 LUT bytes only (R121) -/
  lut : s.seqOp = .init → s.lutLen = 30
  /-- WAITING is 1 only inside a WaitReady (R23) -/
  waitsInside : s.waiting = true → s.microOp = some .wait
  /-- inside a WaitReady, once its first poll is issued, WAITING is 1 (R110) -/
  waitsShown : s.microOp = some .wait → s.port ≠ none ∨ s.seqI = 1 → s.waiting = true
  /-- an outstanding request is the one the running list issues where it stands (R33, R112) -/
  issued : ∀ r, s.port = some r → ∃ i, engineAct s = .ok (.run i) ∧ requestOf i = some r
  /-- every request in the trace is one the block may issue (R84, R88) -/
  traced : ∀ e ∈ s.log, requestAllowed e.req = true

/-! ### Cooperative inputs and the traces they give -/

/-- The inputs of requests that are answered at once, one after another: the engine issues a request in one clock, and
the transport answers it in the next. -/
def answersIn (rsps : List Byte) : List ClockIn := rsps.flatMap fun r => [tickIn, answerIn r]

/-- The trace of requests answered in turn. -/
def answered (reqs : List Request) (rsps : List Byte) : List Event :=
  List.zipWith (fun q r => { req := q, rsp := some r }) reqs rsps

/-- The responses of a WaitReady: `k` non-idle polls, each with the response of the delay that follows it, and the idle
poll at the end (R110). -/
structure Polls where
  busy : List (Byte × Byte)
  idle : Byte
  deriving DecidableEq, Repr

/-- Every poll reads what its place says (R110): bit 0 is the level (R83). -/
def Polls.ok (p : Polls) : Prop :=
  (∀ x ∈ p.busy, x.1.getLsbD 0 ≠ Config.busyIdleLevel) ∧ p.idle.getLsbD 0 = Config.busyIdleLevel

/-- The responses of a WaitReady in the order of its requests. -/
def Polls.rsps (p : Polls) : List Byte := p.busy.flatMap (fun x => [x.1, x.2]) ++ [p.idle]

/-- The requests of a WaitReady: `(BUSY?, DLY(100)) × k`, then `BUSY?` (R110). -/
def Polls.reqs (p : Polls) : List Request :=
  p.busy.flatMap (fun _ => [.pinRead .busy, .delay 100]) ++ [.pinRead .busy]

/-- `D(M[0..n-1])` (R12): the data requests of a block memory in index order; a byte that nothing has written stands as
0, and the statements that use this assume there is none. -/
def State.dataOf (s : State) (m : BlockMem) (n : Nat) : List Request :=
  (List.range n).map fun i => .sendData ((s.memByte m i).getD 0)

/-- Every byte of a block memory has been written since reset (I4). -/
def State.written (s : State) (m : BlockMem) : Prop := ∀ i < memSize m, (s.memByte m i).isSome = true

/-- The bit of BUF[k] that shows the panel pixel `(px, py)` (R52). -/
def State.panelBit (s : State) (k : Bool) (px py : Nat) : Option Bool :=
  (s.memByte (bufOf k) (13 * py + px / 8)).map fun b => b.getLsbD (7 - px % 8)

/-- `pix(x, y)` of the source image, for an image of width `w` (R53). -/
def State.sourceBit (s : State) (w x y : Nat) : Option Bool :=
  (s.memByte .imgMem ((x + y * w) / 8)).map fun b => b.getLsbD (7 - (x + y * w) % 8)

/-- The seven legal command bytes (R75). -/
def legalBytes : List Byte := [0x01, 0x02, 0x03, 0x0B, 0x04, 0x05, 0x15]

/-- The command an OP value names (R72). -/
def opOfBits (op : BitVec 3) : SeqOp :=
  if op = 0b001 then .init
  else if op = 0b010 then .clear
  else if op = 0b011 then .display
  else if op = 0b100 then .sleep
  else if op = 0b101 then .getbuffer
  else .idle

/-- The addresses of the block memories, by the numbers of the map (R50). -/
def memoryAddr (n : Nat) : Bool :=
  (0x0100 ≤ n && n ≤ 0x011D) || (0x1000 ≤ n && n ≤ 0x1AC3) || (0x2000 ≤ n && n ≤ 0x2AC3) || (0x3000 ≤ n && n ≤ 0x3AC3)

/-- The writable addresses (R56): CMD, LUT_LEN, the four IMG registers and the block memories. -/
def writableAddr (n : Nat) : Bool := n == 0x0000 || (0x0003 ≤ n && n ≤ 0x0007) || memoryAddr n

/-- The reserved addresses (R50, R51). -/
def reservedAddr (n : Nat) : Bool := 0x0008 ≤ n && !memoryAddr n

/-- The inputs of one whole command: its byte is written to CMD, its requests are answered in turn, and one more clock
ends it. -/
def commandIn (v : Byte) (rsps : List Byte) : List ClockIn := writeIn 0x0000 v :: (answersIn rsps ++ [tickIn])

/-- `n` steps of the machine from a state with the inputs `ins`. -/
def runFrom (n : Nat) (ins : List ClockIn) (s : State) : Out := Host.Core.run Sys2Proof.core n { s with inputs := ins }

/-! ### Unending environments: premises, runs without an end, launch states (R242, R244, R245) -/

/-- The state after `n` clocks of an unending environment. -/
def runEnv (env : Nat → ClockIn) : Nat → State → Out
  | 0, s => .next s
  | n + 1, s => andThen (runEnv env n s) fun t => clock (env n) t

/-- The request `r`, outstanding in clock `n`, is answered in clock `m`: it is outstanding in every clock from `n` to `m`,
no `t_done` and no block reset comes before `m`, and in `m` the one `t_done` comes without block reset (R101, R244). -/
def AnsweredAt (env : Nat → ClockIn) (s : State) (r : Request) (n m : Nat) : Prop :=
  n ≤ m ∧ (env m).rst = false ∧ (env m).tDone = true ∧
  (∀ k, n ≤ k → k ≤ m → ∃ u, runEnv env k s = .next u ∧ u.port = some r) ∧
  (∀ k, n ≤ k → k < m → (env k).rst = false ∧ (env k).tDone = false)

/-- `TransportAnswers` (R244): every request the block issues is answered, while it is outstanding, by one `t_done`. A
request that block reset abandons is not answered (assumption log 29). -/
def TransportAnswers (env : Nat → ClockIn) (s : State) : Prop :=
  ∀ n t r, runEnv env n s = .next t → t.port = some r → ∃ m, AnsweredAt env s r n m

/-- `BusyEventuallyIdle` (R244): in every WaitReady some poll is answered with the idle level. Without block reset a
WaitReady is left by such a poll only (R110), so the poll asked for is one of the WaitReady it is asked for. DESIGN CHOICE,
safe: R244 does not speak of a WaitReady that block reset abandons, and here it is met by an idle-answered poll of a later
WaitReady (assumption log 30). -/
def BusyEventuallyIdle (env : Nat → ClockIn) (s : State) : Prop :=
  ∀ n t, runEnv env n s = .next t → t.waiting = true →
    ∃ m u, n ≤ m ∧ runEnv env m s = .next u ∧ u.port = some (.pinRead .busy) ∧ (env m).rst = false ∧
      (env m).tDone = true ∧ (env m).tRsp.getLsbD 0 = Config.busyIdleLevel

/-- Weak fairness of the block (R244): from every clock on, some clock lets the engine step. -/
def WeaklyFair (env : Nat → ClockIn) : Prop := ∀ n, ∃ m, n ≤ m ∧ (env m).tick = true

/-- The transport raises no `t_done` where no request is outstanding (R244); the block ignores one that comes (R230), so
no claim rests on this. -/
def NoStrayAnswer (env : Nat → ClockIn) (s : State) : Prop :=
  ∀ n t, runEnv env n s = .next t → t.port = none → (env n).tDone = false

/-- No clock stops on a byte that nothing has written: every clock has a next state. -/
def NeverStops (env : Nat → ClockIn) (s : State) : Prop := ∀ n, ∃ t, runEnv env n s = .next t

/-- A hang (R111, R240, R242, I2): from some clock on the block is inside WaitReady for ever, and polls for ever: RUNNING and
WAITING stay 1, and after every clock another poll is answered. -/
def Hang (env : Nat → ClockIn) (s : State) : Prop :=
  ∃ n, (∀ m, n ≤ m → ∃ t, runEnv env m s = .next t ∧ t.running = true ∧ t.waiting = true) ∧
    ∀ m, n ≤ m → ∃ k t, m ≤ k ∧ runEnv env k s = .next t ∧ t.port = some (.pinRead .busy) ∧ (env k).tDone = true

/-- Stuck (R101, R240, R242, I2): from some clock on one request is outstanding for ever and never answered. -/
def Stuck (env : Nat → ClockIn) (s : State) : Prop :=
  ∃ n r, ∀ m, n ≤ m →
    (env m).tDone = false ∧ ∃ t, runEnv env m s = .next t ∧ t.running = true ∧ t.port = some r

/-- A run of a host program has ended (R242): its last access has been issued and has completed, and the block is
quiescent. -/
def HostRun.ended (r : HostRun) : Prop := r.todo = [] ∧ Quiescent r.block

/-- A launched program's run ends after `n` clocks, in `r` (R242). -/
def EndsAt (beats : Nat → Beat) (prog : List HostOp) (s : State) (n : Nat) (r : HostRun) : Prop :=
  runProgram beats n (HostRun.launch prog s) = .next r ∧ r.ended

/-- The run of a launched program hangs (R242). -/
def ProgramHangs (beats : Nat → Beat) (prog : List HostOp) (s : State) : Prop :=
  Hang ((HostRun.launch prog s).env beats) (HostRun.launch prog s).block

/-- The run of a launched program is stuck (R242). -/
def ProgramStuck (beats : Nat → Beat) (prog : List HostOp) (s : State) : Prop :=
  Stuck ((HostRun.launch prog s).env beats) (HostRun.launch prog s).block

/-- The launch states (R245): `ResetClean`, and the state in which an earlier run ended. There is no other. -/
inductive LaunchState : State → Prop where
  | resetClean : LaunchState State.reset
  | earlierEnd {beats : Nat → Beat} {prog : List HostOp} {s : State} {n : Nat} {r : HostRun} :
      LaunchState s → EndsAt beats prog s n r → LaunchState r.block

end Sys2Proof.Machine
end

