-- ==== Sys2Proof/Certificates/Slice0/Obligations.lean ====
section
/-! DEFINITION. The statements for the provers, each from the spec's numbered rules. -/

open Sys2Proof Sys2Proof.Machine

/-! ### Encodings -/

/-- Decoding the code of a well-formed instruction gives it back, with every operand at every value (30_encoding.md). -/
def Obligations.EncodedInstructionDecodes : Prop :=
  ∀ i : Instr, i.wellFormed = true → decode (encode i) = .ok i

/-- A code has one meaning: what it decodes to is encoded by that code alone (30_encoding.md). -/
def Obligations.DecodedCodeIsTheEncoding : Prop :=
  ∀ (c : Code) (i : Instr), decode c = .ok i → encode i = c

/-- A few codes written out from R75, R81, R82 and R87. -/
def Obligations.SpecCodesDecode : Prop :=
  decode (.host 0x01) = .ok .init ∧ decode (.host 0x0B) = .ok (.display true) ∧
  decode (.host 0x15) = .ok (.getbuffer true) ∧ decode (.host 0x09) = .error .layerWithoutDisplay ∧
  decode (.panel 0x06) = .ok .boosterSoftStart ∧ decode (.panel 0x92) = .ok .dataStop ∧
  decode (.panel 0x00) = .ok .panelSettings ∧
  decode (.request 0b010 0x0001) = .ok (.pinWrite .rst true) ∧ decode (.request 0b011 0x0200) = .ok (.pinRead .busy) ∧
  decode (.request 0b100 0x00C8) = .ok (.delay 200) ∧ decode (.request 0b110 0x00A5) = .ok (.sendData 0xA5) ∧
  decode (.request 0b111 0x0000) = .error .reservedKind

/-- R75 and R213: seven command bytes are legal, each its command; every other byte, written while no command runs, ends
at once with ERR_ILLEGAL_CMD and no other effect than the clearing of DROP (R215 check 2). -/
def Obligations.SevenCommandBytesAreLegal : Prop :=
  (decodeHost 0x01 = .ok .init ∧ decodeHost 0x02 = .ok .clear ∧ decodeHost 0x03 = .ok (.display false) ∧
    decodeHost 0x0B = .ok (.display true) ∧ decodeHost 0x04 = .ok .sleep ∧ decodeHost 0x05 = .ok (.getbuffer false) ∧
    decodeHost 0x15 = .ok (.getbuffer true)) ∧
  (∀ (v : Byte) (i : Instr), decodeHost v = .ok i → v ∈ legalBytes) ∧
  (∀ v : Byte, v ∉ legalBytes ↔ (cmdOp v = 0b000 ∨ cmdOp v = 0b110 ∨ cmdOp v = 0b111) ∨ cmdRsv v ≠ 0 ∨
    (cmdL v = true ∧ cmdOp v ≠ 0b011) ∨ (cmdD v = true ∧ cmdOp v ≠ 0b101)) ∧
  ((List.range 256).filter fun n => !legalBytes.contains (BitVec.ofNat 8 n)).length = 249 ∧
  (∀ (v : Byte) (s : State), v ∉ legalBytes → s.running = false →
    hostWrite 0x0000 v s = .next { s with drop := false, result := 0x04 })

/-! ### Acceptance of commands -/

/-- R215: the checks of a CMD write, in order, and what each does. R215 does not say where SEQ.I starts. -/
def Obligations.AcceptanceFollowsTheCheckOrder : Prop :=
  ∀ (v : Byte) (s : State), ∃ n : Nat,
    hostWrite 0x0000 v s =
      if s.running = true then .next { s with drop := true }
      else if v ∉ legalBytes then .next { s with drop := false, result := 0x04 }
      else if (opOfBits (cmdOp v) = .clear ∨ opOfBits (cmdOp v) = .display ∨ opOfBits (cmdOp v) = .sleep) ∧
          s.lifecycle ≠ .ready then .next { s with drop := false, result := 0x03 }
      else if opOfBits (cmdOp v) = .init ∧ s.lutLen ≠ 30 then .next { s with drop := false, result := 0x01 }
      else .next
        { s with drop := false, seqOp := opOfBits (cmdOp v), seqL := v.getLsbD 3, seqD := v.getLsbD 4, seqStep := 1, seqI := n }

/-- Every host command starts where its checks pass (R215 check 6), and changes nothing but DROP and the sequencer. That
SEQ.I starts at 0 is the model's choice (assumption log 9). -/
def Obligations.HostCommandsStart : Prop :=
  ∀ s : State, s.running = false →
    (s.lutLen = 30 → exec .init s = .next
      { s with drop := false, seqOp := .init, seqL := false, seqD := false, seqStep := 1, seqI := 0 }) ∧
    (s.lifecycle = .ready → exec .clear s = .next
      { s with drop := false, seqOp := .clear, seqL := false, seqD := false, seqStep := 1, seqI := 0 }) ∧
    (∀ l : Bool, s.lifecycle = .ready → exec (.display l) s = .next
      { s with drop := false, seqOp := .display, seqL := l, seqD := false, seqStep := 1, seqI := 0 }) ∧
    (s.lifecycle = .ready → exec .sleep s = .next
      { s with drop := false, seqOp := .sleep, seqL := false, seqD := false, seqStep := 1, seqI := 0 }) ∧
    (∀ d : Bool, exec (.getbuffer d) s = .next
      { s with drop := false, seqOp := .getbuffer, seqL := false, seqD := d, seqStep := 1, seqI := 0 })

/-- R212: CLEAR, DISPLAY and SLEEP outside READY end at once with ERR_STATE and change nothing else but DROP. -/
def Obligations.CommandOutsideReadyIsErrState : Prop :=
  ∀ s : State, s.running = false → s.lifecycle ≠ .ready →
    ∀ v : Byte, v = 0x02 ∨ v = 0x03 ∨ v = 0x0B ∨ v = 0x04 →
      hostWrite 0x0000 v s = .next { s with drop := false, result := 0x03 }

/-- R121: INIT with `LUT_LEN ≠ 30` ends at once with ERR_LUT_LENGTH and changes nothing else but DROP. -/
def Obligations.InitNeedsThirtyLutBytes : Prop :=
  ∀ s : State, s.running = false → s.lutLen ≠ 30 →
    hostWrite 0x0000 0x01 s = .next { s with drop := false, result := 0x01 } ∧
    exec .init s = .next { s with drop := false, result := 0x01 }

/-! ### The host bus -/

/-- R56: while a command runs a write to a writable address only sets DROP, and any other write does nothing. -/
def Obligations.WritesWhileRunningAreDropped : Prop :=
  ∀ (a : Addr) (v : Byte) (s : State), s.running = true →
    hostWrite a v s = .next (if writableAddr a.toNat = true then { s with drop := true } else s)

/-- A write to a register or memory byte while no command runs is read back, no other address reads otherwise, and
nothing else changes (R50, R58, R60). -/
def Obligations.WrittenByteIsReadBack : Prop :=
  ∀ (a : Addr) (v : Byte) (s : State), s.running = false → writableAddr a.toNat = true → a ≠ 0x0000 →
    ∃ t, hostWrite a v s = .next t ∧ readTarget t (target a) = .value v ∧
      (∀ b : Addr, b ≠ a → readTarget t (target b) = readTarget s (target b)) ∧
      t = { s with mem := t.mem, lutLen := t.lutLen, imgWLo := t.imgWLo, imgWHi := t.imgWHi, imgHLo := t.imgHLo,
                   imgHHi := t.imgHHi }

/-- Reserved addresses read 0x00, CMD reads 0x00, and writes to reserved and read-only addresses are ignored, whether a
command runs or not (R22, R51). -/
def Obligations.ReservedAndReadOnlyAddresses : Prop :=
  (∀ (a : Addr) (s : State), a = 0x0000 ∨ reservedAddr a.toNat = true →
    hostRead a s = .next { s with hRdata := some 0x00 }) ∧
  (∀ (a : Addr) (v : Byte) (s : State), a = 0x0001 ∨ a = 0x0002 ∨ reservedAddr a.toNat = true →
    hostWrite a v s = .next s)

/-- The address map (R50): each register at its address, and byte `i` of each memory at its base plus `i`. -/
def Obligations.AddressMap : Prop :=
  target 0x0000 = .cmd ∧ target 0x0001 = .status ∧ target 0x0002 = .result ∧ target 0x0003 = .lutLen ∧
  target 0x0004 = .imgWLo ∧ target 0x0005 = .imgWHi ∧ target 0x0006 = .imgHLo ∧ target 0x0007 = .imgHHi ∧
  (∀ i < 30, target (BitVec.ofNat 16 (0x0100 + i)) = .cell .lutMem i) ∧
  (∀ i < 2756, target (BitVec.ofNat 16 (0x1000 + i)) = .cell .buf0 i) ∧
  (∀ i < 2756, target (BitVec.ofNat 16 (0x2000 + i)) = .cell .buf1 i) ∧
  (∀ i < 2756, target (BitVec.ofNat 16 (0x3000 + i)) = .cell .imgMem i) ∧
  (∀ a : Addr, reservedAddr a.toNat = true → target a = .reserved)

/-- A read changes `h_rdata` and the model's counter only (R57, R58); its byte is the register's or memory's own, but
for GETBUFFER's destination while it runs, which reads a free byte (R57, I5), and a byte never written, where the model
stops (I4). -/
def Obligations.ReadsReturnTheCurrentByte : Prop :=
  ∀ s : State,
    hostRead 0x0001 s = .next { s with hRdata := some (statusByte s) } ∧
    hostRead 0x0002 s = .next { s with hRdata := some s.result } ∧
    hostRead 0x0003 s = .next { s with hRdata := some s.lutLen } ∧
    hostRead 0x0004 s = .next { s with hRdata := some s.imgWLo } ∧
    hostRead 0x0005 s = .next { s with hRdata := some s.imgWHi } ∧
    hostRead 0x0006 s = .next { s with hRdata := some s.imgHLo } ∧
    hostRead 0x0007 s = .next { s with hRdata := some s.imgHHi } ∧
    ∀ (m : BlockMem) (i : Nat), i < memSize m →
      hostRead (BitVec.ofNat 16 (memBase m + i)) s =
        if s.seqOp = .getbuffer ∧ m = bufOf s.seqD then
          .next { s with hRdata := some (Config.freeByte s.draws), draws := s.draws + 1 }
        else
          match s.memByte m i with
          | some b => .next { s with hRdata := some b }
          | none => .fault (.unwrittenByte (memBase m + i))

/-- The STATUS byte (R23): STATE in `[1:0]`, then RUNNING, DROP and WAITING, and `[7:5]` zero. -/
def Obligations.StatusByteFields : Prop :=
  ∀ s : State,
    (statusByte s).extractLsb' 0 2 =
      (match s.lifecycle with | .uninit => 0b00#2 | .ready => 0b01#2 | .slept => 0b10#2) ∧
    ((statusByte s).getLsbD 2 = true ↔ s.seqOp ≠ .idle) ∧ (statusByte s).getLsbD 3 = s.drop ∧
    (statusByte s).getLsbD 4 = s.waiting ∧ (statusByte s).extractLsb' 5 3 = 0b000#3

/-! ### Steps and decoded instructions -/

/-- A CMD write whose byte decodes runs that instruction: the step is its meaning, after the clock's input is taken and
`h_rdata` cleared, and before the engine's part where a command was running. That the engine acts after the host's write, and
only where a command was running before the clock, is the model's reading (DEDUCED, assumption log 15): R216 speaks of the
clock of END only. What `h_rdata` holds is the model's too (assumption log 6, 11, 27). Every other host access is
`StepMakesTheHostAccess`. -/
def Obligations.StepRunsTheWrittenCommand : Prop :=
  ∀ (s : State) (c : ClockIn) (i : Instr), s.nextInput = c → c.rst = false → c.hWe = true → c.hAddr = 0x0000 →
    decodeHost c.hWdata = .ok i →
    step s = andThen (exec i (readBeside c.hRe (s.popInput.setRdata none))) (engineIf s.running c)

/-- An engine step runs the instruction the sequencer stands at: the step is its meaning, after the clock's input is
taken, `h_rdata` cleared and, inside a WaitReady, WAITING set. -/
def Obligations.StepRunsTheSequencedInstruction : Prop :=
  ∀ (s : State) (c : ClockIn) (i : Instr), s.nextInput = c → c.rst = false → c.hWe = false → c.hRe = false →
    c.tick = true → s.running = true → s.port = none → engineAct s = .ok (.run i) →
    step s = exec i (s.popInput.setRdata none).enterWait

/-! ### Panel commands and transport requests -/

/-- Each panel command issues its own byte, framed by SEND_COMMAND, and changes nothing but the transport port (R87,
R107). -/
def Obligations.PanelCommandsIssueTheirByte : Prop :=
  ∀ s : State, s.port = none →
    exec .boosterSoftStart s = .next { s with port := some (.sendCommand 0x06) } ∧
    exec .powerOn s = .next { s with port := some (.sendCommand 0x04) } ∧
    exec .panelSettings s = .next { s with port := some (.sendCommand 0x00) } ∧
    exec .vcomDataInterval s = .next { s with port := some (.sendCommand 0x50) } ∧
    exec .resolution s = .next { s with port := some (.sendCommand 0x61) } ∧
    exec .lutWrite s = .next { s with port := some (.sendCommand 0x32) } ∧
    exec .blackDataStart s = .next { s with port := some (.sendCommand 0x10) } ∧
    exec .redDataStart s = .next { s with port := some (.sendCommand 0x13) } ∧
    exec .dataStop s = .next { s with port := some (.sendCommand 0x92) } ∧
    exec .refresh s = .next { s with port := some (.sendCommand 0x12) } ∧
    exec .powerOff s = .next { s with port := some (.sendCommand 0x02) } ∧
    exec .deepSleep s = .next { s with port := some (.sendCommand 0x07) }

/-- Each transport request is raised on the port and changes nothing else (R101 to R108). -/
def Obligations.TransportRequestsAreRaised : Prop :=
  ∀ s : State, s.port = none →
    exec .tInit s = .next { s with port := some .tInit } ∧
    exec .tShutdown s = .next { s with port := some .tShutdown } ∧
    (∀ l : Bool, exec (.pinWrite .rst l) s = .next { s with port := some (.pinWrite .rst l) }) ∧
    exec (.pinRead .busy) s = .next { s with port := some (.pinRead .busy) } ∧
    (∀ n : Arg, exec (.delay n) s = .next { s with port := some (.delay n) }) ∧
    (∀ b ∈ panelBytes, exec (.sendCommand b) s = .next { s with port := some (.sendCommand b) }) ∧
    (∀ b : Byte, exec (.sendData b) s = .next { s with port := some (.sendData b) })

/-- The port shows an outstanding request as the kind and argument of R81 and R82. -/
def Obligations.PortShowsKindAndArgument : Prop :=
  ∀ s : State,
    (s.port = some .tInit → s.tKind = some 0b000 ∧ s.tArg = some 0x0000) ∧
    (s.port = some .tShutdown → s.tKind = some 0b001 ∧ s.tArg = some 0x0000) ∧
    (∀ l : Bool, s.port = some (.pinWrite .rst l) →
      s.tKind = some 0b010 ∧ s.tArg = some (if l then 0x0001 else 0x0000)) ∧
    (s.port = some (.pinRead .busy) → s.tKind = some 0b011 ∧ s.tArg = some 0x0200) ∧
    (∀ n : Arg, s.port = some (.delay n) → s.tKind = some 0b100 ∧ s.tArg = some n) ∧
    (∀ b : Byte, s.port = some (.sendCommand b) → s.tKind = some 0b101 ∧ s.tArg = some (b.zeroExtend 16)) ∧
    (∀ b : Byte, s.port = some (.sendData b) → s.tKind = some 0b110 ∧ s.tArg = some (b.zeroExtend 16))

/-- Where the block never issues a request the model stops by name (I14, R84, R88). -/
def Obligations.NeverIssuedRequestsStop : Prop :=
  ∀ s : State,
    (∀ (p : Pin) (l : Bool), p ≠ .rst → exec (.pinWrite p l) s = .fault (.neverIssued (.pinWrite p l))) ∧
    (∀ p : Pin, p ≠ .busy → exec (.pinRead p) s = .fault (.neverIssued (.pinRead p))) ∧
    (∀ b : Byte, b ∉ panelBytes → exec (.sendCommand b) s = .fault (.neverIssued (.sendCommand b)))

/-- R101: the port holds its request until the transport answers; the answer lowers it in the next clock and pairs the
request with its response in the trace; and no request is raised in the clock that answers another. -/
def Obligations.RequestIsHeldUntilAnswered : Prop :=
  ∀ (s t : State) (r : Request), s.running = true → s.port = some r → s.nextInput.rst = false → step s = .next t →
    if s.nextInput.tDone = true then
      t.port = none ∧ t.log = { req := r, rsp := some s.nextInput.tRsp } :: s.log
    else
      t.port = some r ∧ t.log = s.log ∧ t.running = true ∧ t.seqOp = s.seqOp ∧ t.seqStep = s.seqStep ∧
        t.seqI = s.seqI

/-- R67: a step leaves the trace or adds one entry, for the one request that was outstanding. -/
def Obligations.TraceGrowsByTheOutstandingRequest : Prop :=
  ∀ s t : State, step s = .next t →
    t.log = s.log ∨ ∃ e : Event, s.port = some e.req ∧ t.log = e :: s.log ∧ t.port = none

/-- R84 and the twelve bytes of R88: from every state that meets the invariant, a step leaves on the port no request
but those the block may issue. -/
def Obligations.OnlyAllowedRequestsAreIssued : Prop :=
  ∀ (s t : State) (r : Request), s.Inv → step s = .next t → t.port = some r →
    t.tKind ≠ some 0b111 ∧ (∀ (p : Pin) (l : Bool), r = .pinWrite p l → p = .rst) ∧
    (∀ p : Pin, r = .pinRead p → p = .busy) ∧ (∀ b : Byte, r = .sendCommand b → b ∈ panelBytes) ∧
    (∀ n : Arg, r = .delay n → n = 200 ∨ n = 10 ∨ n = 100)

/-! ### Busy wait, streams and lists

Where the next micro-operation begins, SEQ.I is 0: the model's choice (assumption log 9). -/

/-- R110: a WaitReady issues `(BUSY?, DLY(100)) × k` and `BUSY?`, `2k + 1` requests, with WAITING 1 from its first request
until the idle read, and 0 after it. -/
def Obligations.WaitReadyPollsUntilIdle : Prop :=
  ∀ (s : State) (p : Polls) (rest : List ClockIn), s.microOp = some .wait → s.seqI = 0 → s.port = none → p.ok →
    p.reqs.length = 2 * p.busy.length + 1 ∧
    runFrom (2 * p.reqs.length) (answersIn p.rsps ++ rest) s = .next
      { s with seqStep := s.seqStep + 1, seqI := 0, waiting := false, hRdata := none, inputs := rest,
               log := (answered p.reqs p.rsps).reverse ++ s.log } ∧
    (∀ (n : Nat) (u : State), 0 < n → n < 2 * p.reqs.length → runFrom n (answersIn p.rsps ++ rest) s = .next u →
      u.waiting = true)

/-- R54 and the streams of R130, R161 and R162: a stream sends its memory's bytes in index order, one request a byte. -/
def Obligations.StreamSendsInIndexOrder : Prop :=
  ∀ (s : State) (m : BlockMem) (n : Nat) (rsps : List Byte) (rest : List ClockIn),
    s.microOp = some (.stream m n) → s.seqI = 0 → s.port = none → 0 < n → rsps.length = n →
    (∀ i < n, (s.memByte m i).isSome = true) →
    runFrom (2 * n) (answersIn rsps ++ rest) s = .next
      { s with seqStep := s.seqStep + 1, seqI := 0, hRdata := none, inputs := rest,
               log := (answered (s.dataOf m n) rsps).reverse ++ s.log }

/-- CLEAR's fill sends `n` equal bytes and reads no memory (R112, R164). -/
def Obligations.FillSendsEqualBytes : Prop :=
  ∀ (s : State) (b : Byte) (n : Nat) (rsps : List Byte) (rest : List ClockIn),
    s.microOp = some (.fill b n) → s.seqI = 0 → s.port = none → 0 < n → rsps.length = n →
    runFrom (2 * n) (answersIn rsps ++ rest) s = .next
      { s with seqStep := s.seqStep + 1, seqI := 0, hRdata := none, inputs := rest,
               log := (answered (List.replicate n (.sendData b)) rsps).reverse ++ s.log }

/-- The micro-operation lists as R120, R140, R160, R164 and R167 print them. -/
def Obligations.CommandListsAreThePrintedOnes : Prop :=
  initOps =
    [.tinit, .rst true, .dly 200, .rst false, .dly 10, .rst true, .dly 200, .cmd 0x06, .dat Config.boosterData0,
      .dat Config.boosterData1, .dat Config.boosterData2, .cmd 0x04, .wait, .cmd 0x00, .dat Config.panelSettingData,
      .cmd 0x50, .dat Config.vcomIntervalData, .cmd 0x61, .dat 0x68, .dat 0x00, .dat 0xD4, .cmd 0x32,
      .stream .lutMem 30, .finish 0x00 (some .ready)] ∧
  displayOps false = [.cmd 0x10, .stream .buf0 2756, .cmd 0x92, .cmd 0x12, .wait, .finish 0x00 none] ∧
  displayOps true =
    [.cmd 0x10, .stream .buf0 2756, .cmd 0x92, .cmd 0x13, .stream .buf1 2756, .cmd 0x92, .cmd 0x12, .wait,
      .finish 0x00 none] ∧
  clearOps =
    [.cmd 0x10, .fill 0xFF 2756, .cmd 0x92, .cmd 0x13, .fill 0xFF 2756, .cmd 0x92, .cmd 0x12, .wait, .finish 0x00 none] ∧
  sleepOps = [.cmd 0x02, .wait, .cmd 0x07, .dat 0xA5, .tshut, .finish 0x00 (some .slept)] ∧
  (∀ (d : Bool) (code : Byte), getbufferOps d code = [.convert d, .finish code none])

/-- R192: in every list a WaitReady stands after 0x04, 0x12 and 0x02, and nowhere else. -/
def Obligations.BusyWaitAfterThreeCommands : Prop :=
  ∀ s : State, s.ops[0]? ≠ some .wait ∧
    ∀ n : Nat, s.ops[n + 1]? = some .wait ↔
      s.ops[n]? = some (.cmd 0x04) ∨ s.ops[n]? = some (.cmd 0x12) ∨ s.ops[n]? = some (.cmd 0x02)

/-! ### Whole commands

These statements run a command on one schedule of inputs: the engine issues a request in one clock and the transport
answers it in the next, and nobody else touches the block. The schedule is theirs, and the clocks they count are the
model's (assumption log 2, 14), as it is that an accepted command takes its first engine step in a later clock than its CMD
write's (assumption log 15); `HeldClocksChangeNothing` and `HostCannotDisturbACommand` say that other schedules give the same
steps. Where SEQ.STEP and SEQ.I stand after a command is hidden from the host and the model's (assumption log 8,
9). -/

/-- R131: the whole trace of INIT, and its end in READY with RESULT 0x00; the one-request trace where T_INIT fails (R123), and
its end with RESULT 0xFF; and the empty trace where `LUT_LEN ≠ 30`. That the failing end falls in the very clock that takes
T_INIT's answer, the last of the three counted, is the model's reading of R112 and R113 (DEDUCED, assumption log 20); R123 does
not say it. -/
def Obligations.InitTrace : Prop :=
  (∀ (s : State) (p : Polls) (a b : List Byte) (rest : List ClockIn), s.running = false → s.port = none →
    s.waiting = false → s.lutLen = 30 → s.written .lutMem → p.ok → a.length = 11 → b.length = 39 →
    let reqs : List Request :=
      [.tInit, .pinWrite .rst true, .delay 200, .pinWrite .rst false, .delay 10, .pinWrite .rst true, .delay 200,
        .sendCommand 0x06, .sendData Config.boosterData0, .sendData Config.boosterData1, .sendData Config.boosterData2,
        .sendCommand 0x04] ++ p.reqs ++
      [.sendCommand 0x00, .sendData Config.panelSettingData, .sendCommand 0x50, .sendData Config.vcomIntervalData,
        .sendCommand 0x61, .sendData 0x68, .sendData 0x00, .sendData 0xD4, .sendCommand 0x32] ++ s.dataOf .lutMem 30
    let rsps : List Byte := 0x00 :: a ++ p.rsps ++ b
    reqs.length = 52 + 2 * p.busy.length ∧
    runFrom (2 * reqs.length + 2) (commandIn 0x01 rsps ++ rest) s = .next
      { s with lifecycle := .ready, drop := false, result := 0x00, seqOp := .idle, seqL := false, seqD := false,
               seqStep := 24, seqI := 0, hRdata := none, inputs := rest,
               log := (answered reqs rsps).reverse ++ s.log }) ∧
  (∀ (s : State) (x : Byte) (rest : List ClockIn), s.running = false → s.port = none → s.lutLen = 30 → x ≠ 0x00 →
    runFrom 3 (writeIn 0x0000 0x01 :: (answersIn [x] ++ rest)) s = .next
      { s with drop := false, result := 0xFF, seqOp := .idle, seqL := false, seqD := false, seqStep := 1, seqI := 0,
               hRdata := none, inputs := rest, log := { req := .tInit, rsp := some x } :: s.log }) ∧
  (∀ (s : State) (rest : List ClockIn), s.running = false → s.port = none → s.lutLen ≠ 30 →
    runFrom 1 (writeIn 0x0000 0x01 :: rest) s = .next
      { s with drop := false, result := 0x01, hRdata := none, inputs := rest })

/-- R161, R162 and R163: the whole trace of DISPLAY with one layer or two, and its end with RESULT 0x00. -/
def Obligations.DisplayTrace : Prop :=
  ∀ (s : State) (l : Bool) (p : Polls) (a : List Byte) (rest : List ClockIn), s.running = false → s.port = none →
    s.waiting = false → s.lifecycle = .ready → s.written .buf0 → (l = true → s.written .buf1) → p.ok →
    a.length = (if l then 5517 else 2759) →
    let reqs : List Request :=
      .sendCommand 0x10 :: s.dataOf .buf0 2756 ++ [.sendCommand 0x92] ++
      (if l then .sendCommand 0x13 :: s.dataOf .buf1 2756 ++ [.sendCommand 0x92] else []) ++
      [.sendCommand 0x12] ++ p.reqs
    reqs.length = (if l then 5518 else 2760) + 2 * p.busy.length ∧
    runFrom (2 * reqs.length + 2) (commandIn (if l then 0x0B else 0x03) (a ++ p.rsps) ++ rest) s = .next
      { s with drop := false, result := 0x00, seqOp := .idle, seqL := l, seqD := false,
               seqStep := (if l then 9 else 6), seqI := 0, hRdata := none, inputs := rest,
               log := (answered reqs (a ++ p.rsps)).reverse ++ s.log }

/-- R164 and R166: the whole trace of CLEAR, which streams 0xFF to both layers and writes no memory. -/
def Obligations.ClearTrace : Prop :=
  ∀ (s : State) (p : Polls) (a : List Byte) (rest : List ClockIn), s.running = false → s.port = none →
    s.waiting = false → s.lifecycle = .ready → p.ok → a.length = 5517 →
    let reqs : List Request :=
      .sendCommand 0x10 :: List.replicate 2756 (.sendData 0xFF) ++ [.sendCommand 0x92, .sendCommand 0x13] ++
      List.replicate 2756 (.sendData 0xFF) ++ [.sendCommand 0x92, .sendCommand 0x12] ++ p.reqs
    reqs.length = 5518 + 2 * p.busy.length ∧
    runFrom (2 * reqs.length + 2) (commandIn 0x02 (a ++ p.rsps) ++ rest) s = .next
      { s with drop := false, result := 0x00, seqOp := .idle, seqL := false, seqD := false, seqStep := 9, seqI := 0,
               hRdata := none, inputs := rest, log := (answered reqs (a ++ p.rsps)).reverse ++ s.log }

/-- R167: the whole trace of SLEEP, with T_SHUTDOWN last, and its end in SLEPT with every register and memory kept
(R221). -/
def Obligations.SleepTrace : Prop :=
  ∀ (s : State) (p : Polls) (a b c d : Byte) (rest : List ClockIn), s.running = false → s.port = none →
    s.waiting = false → s.lifecycle = .ready → p.ok →
    let reqs : List Request :=
      .sendCommand 0x02 :: p.reqs ++ [.sendCommand 0x07, .sendData 0xA5, .tShutdown]
    let rsps : List Byte := a :: p.rsps ++ [b, c, d]
    reqs.length = 5 + 2 * p.busy.length ∧
    runFrom (2 * reqs.length + 2) (commandIn 0x04 rsps ++ rest) s = .next
      { s with lifecycle := .slept, drop := false, result := 0x00, seqOp := .idle, seqL := false, seqD := false,
               seqStep := 6, seqI := 0, hRdata := none, inputs := rest,
               log := (answered reqs rsps).reverse ++ s.log }

/-- R122: once the last LUT byte is answered, INIT ends in one step with READY, RESULT 0x00 and RUNNING 0: after the answer
alone RUNNING is 1 and STATE and RESULT are as before, and the next step writes all three. Where the hidden SEQ.STEP and SEQ.I
stand then is not stated. -/
def Obligations.InitEndsInReady : Prop :=
  ∀ (s : State) (r : Request) (x : Byte) (rest : List ClockIn), s.seqOp = .init → s.seqStep = 23 → s.seqI = 29 →
    s.port = some r →
    (∃ u : State, runFrom 1 (answerIn x :: tickIn :: rest) s = .next u ∧ u.running = true ∧ u.lifecycle = s.lifecycle ∧
      u.result = s.result) ∧
    ∃ n i : Nat,
      runFrom 2 (answerIn x :: tickIn :: rest) s = .next
        { s with lifecycle := .ready, result := 0x00, seqOp := .idle, seqStep := n, seqI := i, port := none,
                 hRdata := none, inputs := rest, log := { req := r, rsp := some x } :: s.log }

/-- A nonzero T_INIT status ends INIT with 0xFF; STATE is kept and no further request is made (R123). That it ends in the
very step that takes the answer is the model's reading of R112 and R113 (assumption log 20). -/
def Obligations.FailedTransportInitEndsInit : Prop :=
  ∀ (s : State) (x : Byte) (rest : List ClockIn), s.seqOp = .init → s.seqStep = 1 → s.port = some .tInit → x ≠ 0x00 →
    runFrom 1 (answerIn x :: rest) s = .next
      { s with result := 0xFF, seqOp := .idle, port := none, hRdata := none, inputs := rest,
               log := { req := .tInit, rsp := some x } :: s.log }

/-! ### The converter

The three statements on a whole GETBUFFER run it in three clocks, its CMD write, CONVERT and END: that CONVERT is one
engine step is the model's choice (assumption log 14), and so is the engine's pace (assumption log 2). -/

/-- R143: the geometry test, over the two 16-bit values and over the four registers that hold them (R27). -/
def Obligations.GeometryTest : Prop :=
  ∀ s : State,
    (s.geometry = .native ↔ s.imgW = 104 ∧ s.imgH = 212) ∧
    (s.geometry = .transposed ↔ s.imgW = 212 ∧ s.imgH = 104) ∧
    (s.geometry = .unsupported ↔ ¬(s.imgW = 104 ∧ s.imgH = 212) ∧ ¬(s.imgW = 212 ∧ s.imgH = 104)) ∧
    (s.geometry = .native ↔ s.imgWHi = 0x00 ∧ s.imgWLo = 0x68 ∧ s.imgHHi = 0x00 ∧ s.imgHLo = 0xD4) ∧
    (s.geometry = .transposed ↔ s.imgWHi = 0x00 ∧ s.imgWLo = 0xD4 ∧ s.imgHHi = 0x00 ∧ s.imgHLo = 0x68)

/-- IMG_W and IMG_H are their HI byte above their LO byte (R27, R55). -/
def Obligations.ImageSizeIsHighThenLowByte : Prop :=
  ∀ s : State,
    s.imgW.toNat = 256 * s.imgWHi.toNat + s.imgWLo.toNat ∧ s.imgH.toNat = 256 * s.imgHHi.toNat + s.imgHLo.toNat

/-- A native GETBUFFER, from its CMD write to its end, leaves each panel pixel as the source pixel, which is a
byte-for-byte copy of IMG_MEM (R145); nothing else of the memories changes, and RESULT is 0x00 (R140). That it takes three
clocks is the model's choice (R113; assumption log 2, 14, 15). -/
def Obligations.NativeGetbufferCopiesTheImage : Prop :=
  ∀ (s : State) (k : Bool) (rest : List ClockIn), s.running = false → s.port = none → s.imgW = 104 → s.imgH = 212 →
    s.written .imgMem →
    ∃ t, runFrom 3 (commandIn (if k then 0x15 else 0x05) [] ++ tickIn :: rest) s = .next t ∧
      (∀ px < 104, ∀ py < 212, t.panelBit k px py = s.sourceBit 104 px py ∧ t.panelBit k px py ≠ none) ∧
      (∀ i < 2756, t.memByte (bufOf k) i = s.memByte .imgMem i) ∧
      (∀ a : Nat, inMem (bufOf k) a = false → memRead t.mem a = memRead s.mem a) ∧
      t = { s with mem := t.mem, drop := false, result := 0x00, seqOp := .idle, seqL := false, seqD := k,
                   seqStep := t.seqStep, seqI := t.seqI, hRdata := none, inputs := rest }

/-- A transposed GETBUFFER leaves panel pixel `(px, py)` as source pixel `(211 - py, px)`; the map of pixels is one-to-one
onto the panel (R147); nothing else of the memories changes, and RESULT is 0x00 (R140). That it takes three clocks is the
model's choice (R113; assumption log 2, 14, 15). -/
def Obligations.TransposedGetbufferRotatesTheImage : Prop :=
  (∀ (s : State) (k : Bool) (rest : List ClockIn), s.running = false → s.port = none → s.imgW = 212 → s.imgH = 104 →
    s.written .imgMem →
    ∃ t, runFrom 3 (commandIn (if k then 0x15 else 0x05) [] ++ tickIn :: rest) s = .next t ∧
      (∀ px < 104, ∀ py < 212, t.panelBit k px py = s.sourceBit 212 (211 - py) px ∧ t.panelBit k px py ≠ none) ∧
      (∀ a : Nat, inMem (bufOf k) a = false → memRead t.mem a = memRead s.mem a) ∧
      t = { s with mem := t.mem, drop := false, result := 0x00, seqOp := .idle, seqL := false, seqD := k,
                   seqStep := t.seqStep, seqI := t.seqI, hRdata := none, inputs := rest }) ∧
  (∀ x < 212, ∀ y < 104, y < 104 ∧ 211 - x < 212 ∧ (211 - (211 - x), y) = (x, y)) ∧
  (∀ px < 104, ∀ py < 212, 211 - py < 212 ∧ px < 104 ∧ (px, 211 - (211 - py)) = (px, py))

/-- An unsupported geometry leaves the destination all 0xFF with RESULT 0x02, and reads no byte of IMG_MEM (R148); nothing
else of the memories changes (R140). That it takes three clocks is the model's choice (R113; assumption log 2, 14, 15). -/
def Obligations.UnsupportedGeometryGivesWhite : Prop :=
  ∀ (s : State) (k : Bool) (rest : List ClockIn), s.running = false → s.port = none →
    ¬(s.imgW = 104 ∧ s.imgH = 212) → ¬(s.imgW = 212 ∧ s.imgH = 104) →
    ∃ t, runFrom 3 (commandIn (if k then 0x15 else 0x05) [] ++ tickIn :: rest) s = .next t ∧
      (∀ i < 2756, t.memByte (bufOf k) i = some 0xFF) ∧
      (∀ a : Nat, inMem (bufOf k) a = false → memRead t.mem a = memRead s.mem a) ∧
      t = { s with mem := t.mem, drop := false, result := 0x02, seqOp := .idle, seqL := false, seqD := k,
                   seqStep := t.seqStep, seqI := t.seqI, hRdata := none, inputs := rest }

/-! ### Whole-machine rules -/

/-- R24: only the END of INIT and of SLEEP write STATE, each as the command completes, and block reset; and an END that
gives a state writes it. -/
def Obligations.OnlyInitAndSleepWriteState : Prop :=
  (∀ s t : State, step s = .next t → t.lifecycle ≠ s.lifecycle →
    (s.nextInput.rst = true ∧ t.lifecycle = .uninit) ∨
    (s.nextInput.rst = false ∧ s.seqOp = .init ∧ s.microOp = some (.finish 0x00 (some .ready)) ∧
      t.lifecycle = .ready ∧ t.result = 0x00 ∧ t.running = false) ∨
    (s.nextInput.rst = false ∧ s.seqOp = .sleep ∧ s.microOp = some (.finish 0x00 (some .slept)) ∧
      t.lifecycle = .slept ∧ t.result = 0x00 ∧ t.running = false)) ∧
  (∀ (s : State) (code : Byte) (st : Lifecycle) (rest : List ClockIn), s.microOp = some (.finish code (some st)) →
    s.port = none → ∃ t, runFrom 1 (tickIn :: rest) s = .next t ∧ t.lifecycle = st ∧ t.running = false)

/-- While a command runs RESULT and STATE keep their values; the step that ends it, but for block reset, writes the code
that the table of R211 gives its end: 0xFF where INIT's T_INIT answered a nonzero status, 0x02 at the END of a GETBUFFER of
unsupported geometry, and 0x00 at every other END (R25, R211, R214). That INIT's failing end falls in the very step that takes
T_INIT's answer, the first of the three ends, is the model's reading of R112 and R113 (DEDUCED, assumption log 20); no rule
says it. -/
def Obligations.ResultIsWrittenAtTheEnd : Prop :=
  ∀ s t : State, step s = .next t → s.running = true → s.nextInput.rst = false →
    (t.running = true → t.result = s.result ∧ t.lifecycle = s.lifecycle) ∧
    (t.running = false →
      (s.seqOp = .init ∧ s.microOp = some .tinit ∧ s.port ≠ none ∧ s.nextInput.tDone = true ∧
        s.nextInput.tRsp ≠ 0x00 ∧ t.result = 0xFF) ∨
      (s.seqOp = .getbuffer ∧ s.geometry = .unsupported ∧ s.microOp = some (.finish 0x02 none) ∧ s.port = none ∧
        t.result = 0x02) ∨
      ((∃ st, s.microOp = some (.finish 0x00 st)) ∧ s.port = none ∧
        (s.seqOp = .getbuffer → s.geometry ≠ .unsupported) ∧ t.result = 0x00))

/-- No interleaving of host accesses changes what a running command does: with the host's strobes taken away the clock
gives the same state, but for DROP, `h_rdata` and the model's counter (R56, R113). -/
def Obligations.HostCannotDisturbACommand : Prop :=
  ∀ (c : ClockIn) (s t : State), s.running = true → c.rst = false → clock c s = .next t →
    ∃ u, clock { c with hWe := false, hRe := false } s = .next u ∧
      t = { u with drop := t.drop, hRdata := t.hRdata, draws := t.draws }

/-- A clock in which the running command's request is not answered, or its engine does not step, changes nothing but
DROP, `h_rdata` and the model's counter, whatever the host does: so the clocks between the engine's steps, which the
statements on whole commands leave out of their schedule, change no trace (R101, R113, I11). -/
def Obligations.HeldClocksChangeNothing : Prop :=
  ∀ (c : ClockIn) (s t : State), s.running = true → c.rst = false →
    (if s.port.isSome then c.tDone else c.tick) = false → clock c s = .next t →
    t = { s with drop := t.drop, hRdata := t.hRdata, draws := t.draws }

/-- A running command leaves LUT_LEN, the IMG registers and every byte of the memories but GETBUFFER's destination as
they were when it was accepted (R61). -/
def Obligations.RunningCommandKeepsItsOperands : Prop :=
  ∀ s t : State, step s = .next t → s.running = true → s.nextInput.rst = false →
    t.lutLen = s.lutLen ∧ t.imgWLo = s.imgWLo ∧ t.imgWHi = s.imgWHi ∧ t.imgHLo = s.imgHLo ∧ t.imgHHi = s.imgHHi ∧
    ∀ a : Nat, (s.seqOp = .getbuffer → inMem (bufOf s.seqD) a = false) → memRead t.mem a = memRead s.mem a

/-- R216: a host write in the clock of END is dropped though the command ends, and block reset wins over everything in
its clock. -/
def Obligations.WriteInTheClockOfEndIsDropped : Prop :=
  (∀ (s : State) (a : Addr) (v code : Byte) (st : Option Lifecycle) (rest : List ClockIn),
    s.microOp = some (.finish code st) → s.port = none → writableAddr a.toNat = true →
    runFrom 1 (writeIn a v :: rest) s = .next
      { s with drop := true, result := code, seqOp := .idle, lifecycle := st.getD s.lifecycle, hRdata := none,
               inputs := rest }) ∧
  (∀ (s : State) (c : ClockIn), s.nextInput = c → c.rst = true → step s = .next s.popInput.blockReset)

/-- A step stops only where a byte of a block memory is read that nothing has written since reset (I4): never on an
instruction, and never for want of a meaning. -/
def Obligations.OnlyUnwrittenBytesStopTheBlock : Prop :=
  ∀ s : State, s.Inv →
    (∀ f : Fault, step s = .fault f → ∃ a, f = .unwrittenByte a ∧ memRead s.mem a = none ∧ memoryAddr a = true) ∧
    (∀ q : Refusal, step s ≠ .refused q)

/-- The block's own stops of I4: an engine step at a STREAM whose next byte was never written answers the fault of that
byte's address, and CONVERT of an accepted geometry answers the fault of an IMG_MEM byte that was never written. That it
names the first of several is the model's choice (assumption log 5). -/
def Obligations.UnwrittenBytesStopTheEngine : Prop :=
  (∀ (s : State) (m : BlockMem) (n : Nat) (rest : List ClockIn), s.microOp = some (.stream m n) → s.port = none →
    s.memByte m s.seqI = none →
    runFrom 1 (tickIn :: rest) s = .fault (.unwrittenByte (memBase m + s.seqI))) ∧
  (∀ (s : State) (k : Bool) (i : Nat) (rest : List ClockIn), s.microOp = some (.convert k) → s.port = none →
    s.geometry ≠ .unsupported → i < 2756 → s.memByte .imgMem i = none → (∀ j < i, s.memByte .imgMem j ≠ none) →
    runFrom 1 (tickIn :: rest) s = .fault (.unwrittenByte (0x3000 + i)))

/-- R35: the state that reset leaves. SEQ's other parts are don't-care there and are not stated. -/
def Obligations.ResetState : Prop :=
  State.reset.lifecycle = .uninit ∧ State.reset.running = false ∧ State.reset.drop = false ∧
  State.reset.waiting = false ∧ State.reset.result = 0x00 ∧ State.reset.lutLen = 0x00 ∧ State.reset.imgWLo = 0x00 ∧
  State.reset.imgWHi = 0x00 ∧ State.reset.imgHLo = 0x00 ∧ State.reset.imgHHi = 0x00 ∧
  (∀ m i, State.reset.memByte m i = none) ∧ State.reset.seqOp = .idle ∧ State.reset.tReq = false ∧
  State.reset.port = none

/-- R230: block reset sets every piece of state to its reset value, ignores the clock's other inputs and issues no
request, whatever was running; and a `t_done` with no request outstanding does nothing. -/
def Obligations.BlockReset : Prop :=
  (∀ s : State, s.nextInput.rst = true →
    ∃ t, step s = .next t ∧ t.lifecycle = .uninit ∧ t.running = false ∧ t.drop = false ∧ t.waiting = false ∧
      t.result = 0x00 ∧ t.lutLen = 0x00 ∧ t.imgWLo = 0x00 ∧ t.imgWHi = 0x00 ∧ t.imgHLo = 0x00 ∧ t.imgHHi = 0x00 ∧
      t.seqOp = .idle ∧ t.tReq = false ∧ t.hRdata = none ∧ (∀ m i, t.memByte m i = none) ∧ t.inputs = s.inputs.tail ∧
      (s.port = none → t.log = s.log)) ∧
  (∀ (s : State) (c : ClockIn), s.port = none → clock { c with tDone := true } s = clock { c with tDone := false } s)

/-! ### The invariant -/

/-- The invariant holds at reset. -/
def Obligations.ResetMeetsInvariant : Prop := State.reset.Inv

/-- Every step keeps the invariant: the memories' canonical form, RESULT's codes (R211), the sequencer's place inside its
list (R31, R112), the commands' legality (R121, R169), WAITING (R23, R110), the outstanding request (R33) and the trace's
requests (R84, R88). -/
def Obligations.StepKeepsInvariant : Prop := ∀ s t : State, s.Inv → step s = .next t → t.Inv

/-! ### Host programs -/

/-- R78: the expansions of the pseudo-instructions. -/
def Obligations.PseudoInstructionsExpand : Prop :=
  (∀ x : Byte, expand (.cmd x) = [.wr 0x0000 x]) ∧ expand .waitdone = [.poll 0x0001 0x04 0x00] ∧
  (∀ x : Byte, expand (.run x) = expand (.cmd x) ++ expand .waitdone) ∧ expand .setlut = [.wr 0x0003 30] ∧
  (∀ wd ht : BitVec 16, expand (.setimg wd ht) =
    [.wr 0x0004 ((wd &&& 0xFF).setWidth 8), .wr 0x0005 ((wd >>> 8).setWidth 8), .wr 0x0006 ((ht &&& 0xFF).setWidth 8),
      .wr 0x0007 ((ht >>> 8).setWidth 8)]) ∧
  (∀ (m : BlockMem) (n : Nat) (b : Byte), (expand (.fill m n b)).length = n ∧
    ∀ i < n, (expand (.fill m n b))[i]? = some (.wr (BitVec.ofNat 16 (memBase m + i)) b))

/-! ### Runs: their end, and runs that have none -/

/-- Each form of a host program is one access in one clock (R77, R241, R243): a write is done with it; a read takes the byte
that stands on `h_rdata` after it; a poll takes its byte and is done where the byte satisfies it; a clock in which the host
issues nothing leaves the program. -/
def Obligations.HostFormsCompleteInOneClock : Prop :=
  ∀ (b : Beat) (r : HostRun) (t : State),
    (b.go = true → ∀ (a : Addr) (v : Byte) (rest : List HostOp), r.todo = .wr a v :: rest →
      clock (b.join (writeIn a v)) r.block = .next t →
      r.clock b = .next { block := t, todo := rest, reads := r.reads }) ∧
    (b.go = true → ∀ (a : Addr) (rest : List HostOp), r.todo = .rd a :: rest →
      clock (b.join (readIn a)) r.block = .next t →
      ∃ x, t.hRdata = some x ∧ r.clock b = .next { block := t, todo := rest, reads := r.reads ++ [x] }) ∧
    (b.go = true → ∀ (a : Addr) (mask want : Byte) (rest : List HostOp), r.todo = .poll a mask want :: rest →
      clock (b.join (readIn a)) r.block = .next t →
      ∃ x, t.hRdata = some x ∧
        r.clock b = .next
          { block := t, todo := (if x &&& mask = want then rest else r.todo), reads := r.reads ++ [x] }) ∧
    (b.go = false ∨ r.todo = [] → clock (b.join tickIn) r.block = .next t → r.clock b = .next { r with block := t })

/-- In a run of a host program the block does what it does under the inputs that the run gives it, clock by clock: it stops
where the run stops, and its state is the run's. -/
def Obligations.ProgramRunIsARunOfTheBlock : Prop :=
  ∀ (beats : Nat → Beat) (r : HostRun) (n : Nat),
    (∀ u, runProgram beats n r = .next u → runEnv (r.env beats) n r.block = .next u.block) ∧
    (∀ t, runEnv (r.env beats) n r.block = .next t → ∃ u, runProgram beats n r = .next u ∧ u.block = t)

/-- When a run of a host program has ended, and what is observed there (R242): the last access has completed, RUNNING is 0,
SEQ.OP is IDLE, t_req is 0 and no request is outstanding; the observation is what the host would read, and the trace in the
order of its requests. -/
def Obligations.RunEndsQuiescent : Prop :=
  ∀ r : HostRun,
    (r.ended ↔ r.todo = [] ∧ r.block.running = false ∧ r.block.seqOp = .idle ∧ r.block.tReq = false ∧
      r.block.port = none) ∧
    hostRead 0x0001 r.block = .next { r.block with hRdata := some r.observe.status } ∧
    hostRead 0x0002 r.block = .next { r.block with hRdata := some r.observe.result } ∧
    hostRead 0x0003 r.block = .next { r.block with hRdata := some r.observe.lutLen } ∧
    hostRead 0x0004 r.block = .next { r.block with hRdata := some r.observe.imgWLo } ∧
    hostRead 0x0005 r.block = .next { r.block with hRdata := some r.observe.imgWHi } ∧
    hostRead 0x0006 r.block = .next { r.block with hRdata := some r.observe.imgHLo } ∧
    hostRead 0x0007 r.block = .next { r.block with hRdata := some r.observe.imgHHi } ∧
    (r.ended → ∀ (m : BlockMem) (i : Nat) (x : Byte), i < memSize m →
      memRead r.observe.mem (memBase m + i) = some x →
      hostRead (BitVec.ofNat 16 (memBase m + i)) r.block = .next { r.block with hRdata := some x }) ∧
    r.observe.trace.reverse = r.block.log

/-- A request that is never answered is outstanding in every clock, with RUNNING 1, whatever the host does, and so the block
is stuck (R101, R240, I2). The form of `Stuck` is the model's reading (DEDUCED, assumption log 29). -/
def Obligations.UnansweredRequestIsStuck : Prop :=
  ∀ (env : Nat → ClockIn) (s : State) (r : Request), s.running = true → s.port = some r →
    (∀ n, (env n).rst = false ∧ (env n).tDone = false) → NeverStops env s →
    (∀ n, ∃ t, runEnv env n s = .next t ∧ t.running = true ∧ t.port = some r) ∧ Stuck env s

/-- A busy line that never reads idle makes a WaitReady a hang, whatever the host does and however slow the transport and the
engine are: the block polls for ever (R111, R240, I2). The form of `Hang` is the model's reading (DEDUCED, assumption log 29). -/
def Obligations.BusyForEverIsHang : Prop :=
  ∀ (env : Nat → ClockIn) (s : State), s.microOp = some .wait → s.seqI = 0 → s.port = none →
    (∀ n, (env n).rst = false ∧ (env n).tRsp.getLsbD 0 ≠ Config.busyIdleLevel) → WeaklyFair env →
    (∀ n, ∃ m, n ≤ m ∧ (env m).tDone = true) → NeverStops env s → Hang env s

/-- A running command ends, hangs or is stuck (R242, R240, I2): from every state of the invariant in which a command runs,
whatever the host and the transport do, some later state is quiescent, or the block polls for ever, or one request is never
answered, as long as the engine is let step again and again (R244) and no clock stops on a byte that nothing has written. Block
reset is one of the ways in which a later state is quiescent (R231). A hang and a stuck run have no end, and no run is both. The
forms of `Hang` and `Stuck` are the model's reading (DEDUCED, assumption log 29). -/
def Obligations.CommandEndsHangsOrIsStuck : Prop :=
  (∀ (env : Nat → ClockIn) (s : State), s.Inv → s.running = true → WeaklyFair env → NeverStops env s →
    (∃ n t, runEnv env n s = .next t ∧ Quiescent t) ∨ Hang env s ∨ Stuck env s) ∧
  ∀ (env : Nat → ClockIn) (s : State),
    (Hang env s ∨ Stuck env s → ∃ n, ∀ m, n ≤ m → ∀ t, runEnv env m s = .next t → ¬Quiescent t) ∧
    ¬(Hang env s ∧ Stuck env s)

/-- Under the three premises of R244 a running command comes to its end: from every state of the invariant in which a command
runs, some later state is quiescent, unless a clock stops on a byte that nothing has written. -/
def Obligations.CommandsFinish : Prop :=
  ∀ (env : Nat → ClockIn) (s : State), s.Inv → s.running = true → TransportAnswers env s →
    BusyEventuallyIdle env s → WeaklyFair env → NeverStops env s →
    ∃ n t, runEnv env n s = .next t ∧ Quiescent t

/-! ### The host's access in a step -/

/-- Every clock without block reset makes the host's access, whether a command runs or not (R10, R57, R60, R90, R243): a
write, with any byte and at any address, is `hostWrite`; a read is `hostRead`; a clock without a strobe leaves the block to the
engine; and the engine, which acts where a command was running, leaves `h_rdata`, DROP and the model's counter. So `h_rdata`
shows in the next clock what a read of the state before this one gives. The model's part in it: the engine acts after the host
and only where a command was running before the clock (DEDUCED, assumption log 15); `h_rdata` holds a byte after a read only
(assumption log 11); with both strobes the write acts as if alone and the read is a free byte (I6; assumption log 6, 27). -/
def Obligations.StepMakesTheHostAccess : Prop :=
  ∀ (s : State) (c : ClockIn), s.nextInput = c → c.rst = false →
    let u : State := { s with inputs := s.inputs.tail, hRdata := none }
    let engine : State → Out := fun v => if s.running = true then engineClock c v else .next v
    (c.hWe = true → c.hRe = false → step s = andThen (hostWrite c.hAddr c.hWdata u) engine) ∧
    (c.hWe = true → c.hRe = true →
      step s = andThen
        (hostWrite c.hAddr c.hWdata { u with hRdata := some (Config.freeByte s.draws), draws := s.draws + 1 }) engine) ∧
    (c.hWe = false → c.hRe = true → step s = andThen (hostRead c.hAddr u) engine) ∧
    (c.hWe = false → c.hRe = false → step s = engine u) ∧
    (∀ v t : State, engine v = .next t → t.hRdata = v.hRdata ∧ t.drop = v.drop ∧ t.draws = v.draws) ∧
    (c.hWe = false → c.hRe = true → ∀ t : State, step s = .next t →
      ∃ r : State, hostRead c.hAddr s = .next r ∧ t.hRdata = r.hRdata)
end

