-- ==== Sys2Proof/Laws/Memory.lean ====
section
/-! SUPPORT. The laws of the block memories: read after write, writes of consecutive bytes, and the canonical form. -/

namespace Sys2Proof.Machine

@[simp] theorem memRead_nil (a : Nat) : memRead [] a = none := rfl

theorem memRead_cons (k a : Nat) (c : Byte) (m : Memory) :
    memRead ((k, c) :: m) a = if a = k then some c else memRead m a := by
  unfold memRead
  rw [List.lookup_cons]
  by_cases h : a = k
  · simp [h]
  · rw [if_neg h, beq_false_of_ne h]

/-- A write is read back, and every other address reads as before. -/
theorem memRead_memWrite (m : Memory) (a x : Nat) (b : Byte) :
    memRead (memWrite m a b) x = if x = a then some b else memRead m x := by
  induction m with
  | nil => simp [memWrite, memRead_cons]
  | cons c rest ih =>
    obtain ⟨k, c⟩ := c
    unfold memWrite
    split
    · simp [memRead_cons]
    · split
      · next h => subst h; simp only [memRead_cons]; split <;> rfl
      · next h =>
        simp only [memRead_cons, ih]
        by_cases hx : x = a
        · subst hx; simp [h]
        · simp [hx]

theorem memRead_memWrite_same (m : Memory) (a : Nat) (b : Byte) : memRead (memWrite m a b) a = some b := by
  simp [memRead_memWrite]

theorem memRead_memWrite_other (m : Memory) {a x : Nat} (b : Byte) (h : x ≠ a) :
    memRead (memWrite m a b) x = memRead m x := by
  simp [memRead_memWrite, h]

/-- A run of bytes is read back at its addresses, and every other address reads as before. -/
theorem memRead_memWriteRun (bs : List Byte) (m : Memory) (a x : Nat) :
    memRead (memWriteRun m a bs) x =
      if a ≤ x ∧ x < a + bs.length then bs[x - a]? else memRead m x := by
  induction bs generalizing m a with
  | nil => simp [memWriteRun]
  | cons b bs ih =>
    simp only [memWriteRun, ih, memRead_memWrite, List.length_cons]
    by_cases hx : x = a
    · subst hx; simp
    · by_cases hlt : a < x
      · obtain ⟨d, rfl⟩ : ∃ d, x = a + 1 + d := ⟨x - a - 1, by omega⟩
        have e1 : a + 1 + d - (a + 1) = d := by omega
        have e2 : a + 1 + d - a = d + 1 := by omega
        simp only [e1, e2, List.getElem?_cons_succ, hx, if_false]
        by_cases hd : d < bs.length
        · rw [if_pos (by omega), if_pos (by omega)]
        · rw [if_neg (by omega), if_neg (by omega)]
      · rw [if_neg (by omega), if_neg hx, if_neg (by omega)]

theorem memRead_memWriteRun_at (bs : List Byte) (m : Memory) (a i : Nat) (h : i < bs.length) :
    memRead (memWriteRun m a bs) (a + i) = some bs[i] := by
  rw [memRead_memWriteRun, if_pos (by omega), show a + i - a = i by omega, List.getElem?_eq_getElem h]

/-- A run is read whole exactly when each of its bytes has been written. -/
theorem memReadRun_ok {m : Memory} {n a : Nat} {bs : List Byte} (h : memReadRun m a n = .ok bs) :
    bs.length = n ∧ ∀ i, i < n → memRead m (a + i) = bs[i]? := by
  induction n generalizing a bs with
  | zero => simp only [memReadRun, Except.ok.injEq] at h; subst h; simp
  | succ n ih =>
    unfold memReadRun at h
    split at h
    · simp at h
    · next b hb =>
      cases hr : memReadRun m (a + 1) n with
      | error e => simp [hr, Except.map] at h
      | ok cs =>
        simp only [hr, Except.map, Except.ok.injEq] at h
        subst h
        obtain ⟨hl, hv⟩ := ih hr
        refine ⟨by simp [hl], fun i hi => ?_⟩
        cases i with
        | zero => simpa using hb
        | succ i => simpa [Nat.add_assoc, Nat.add_comm 1 i] using hv i (by omega)

/-- A run that is not read whole names an address in it that nothing has written. -/
theorem memReadRun_error {m : Memory} {n a e : Nat} (h : memReadRun m a n = .error e) :
    memRead m e = none ∧ a ≤ e ∧ e < a + n := by
  induction n generalizing a with
  | zero => simp [memReadRun] at h
  | succ n ih =>
    unfold memReadRun at h
    split at h
    · next hn => simp only [Except.error.injEq] at h; subst h; exact ⟨hn, by omega, by omega⟩
    · cases hr : memReadRun m (a + 1) n with
      | error f =>
        simp only [hr, Except.map, Except.error.injEq] at h
        subst h
        obtain ⟨h1, h2, h3⟩ := ih hr
        exact ⟨h1, by omega, by omega⟩
      | ok cs => simp [hr, Except.map] at h

/-- A run whose every byte has been written is read whole. -/
theorem memReadRun_total {m : Memory} {n a : Nat} (h : ∀ i, i < n → (memRead m (a + i)).isSome = true) :
    ∃ bs, memReadRun m a n = .ok bs := by
  cases hr : memReadRun m a n with
  | ok bs => exact ⟨bs, rfl⟩
  | error e =>
    obtain ⟨h1, h2, h3⟩ := memReadRun_error hr
    have := h (e - a) (by omega)
    rw [show a + (e - a) = e by omega, h1] at this
    simp at this

/-! ### The canonical form -/

theorem risesFrom_le {lo lo' : Nat} {m : Memory} (h : risesFrom lo m = true) (hle : lo' ≤ lo) :
    risesFrom lo' m = true := by
  cases m with
  | nil => rfl
  | cons c rest =>
    simp only [risesFrom, Bool.and_eq_true, decide_eq_true_eq] at h ⊢
    exact ⟨by omega, h.2⟩

theorem risesFrom_memWrite {lo a : Nat} {m : Memory} {b : Byte} (h : risesFrom lo m = true) (hlo : lo ≤ a) :
    risesFrom lo (memWrite m a b) = true := by
  induction m generalizing lo with
  | nil => simp [memWrite, risesFrom, hlo]
  | cons c rest ih =>
    obtain ⟨k, c⟩ := c
    simp only [risesFrom, Bool.and_eq_true, decide_eq_true_eq] at h
    unfold memWrite
    split
    · simp only [risesFrom, Bool.and_eq_true, decide_eq_true_eq]; exact ⟨hlo, by omega, h.2⟩
    · split
      · next he => subst he; simp only [risesFrom, Bool.and_eq_true, decide_eq_true_eq]; exact h
      · simp only [risesFrom, Bool.and_eq_true, decide_eq_true_eq]
        exact ⟨h.1, ih h.2 (by omega)⟩

theorem all_memWrite {a : Nat} {m : Memory} {b : Byte} (h : (m.all fun c => isStored c.1) = true)
    (ha : isStored a = true) : ((memWrite m a b).all fun c => isStored c.1) = true := by
  induction m with
  | nil => simp [memWrite, ha]
  | cons c rest ih =>
    obtain ⟨k, c⟩ := c
    simp only [List.all_cons, Bool.and_eq_true] at h
    unfold memWrite
    split
    · simp [ha, h.1, h.2]
    · split
      · simp [ha, h.2]
      · simp only [List.all_cons, Bool.and_eq_true]; exact ⟨h.1, ih h.2⟩

/-- A write to a stored address keeps the canonical form. -/
theorem memWf_memWrite {m : Memory} {a : Nat} {b : Byte} (h : memWf m = true) (ha : isStored a = true) :
    memWf (memWrite m a b) = true := by
  simp only [memWf, Bool.and_eq_true] at h ⊢
  exact ⟨risesFrom_memWrite h.1 (Nat.zero_le _), all_memWrite h.2 ha⟩

/-- A run of writes to stored addresses keeps the canonical form. -/
theorem memWf_memWriteRun {bs : List Byte} {m : Memory} {a : Nat} (h : memWf m = true)
    (ha : ∀ i, i < bs.length → isStored (a + i) = true) : memWf (memWriteRun m a bs) = true := by
  induction bs generalizing m a with
  | nil => exact h
  | cons b bs ih =>
    refine ih (memWf_memWrite h (by simpa using ha 0 (by simp))) fun i hi => ?_
    have := ha (i + 1) (by simpa using hi)
    rwa [show a + 1 + i = a + (i + 1) by omega]

theorem memWf_nil : memWf [] = true := rfl

/-- Below its first address a rising list holds nothing. -/
theorem memRead_none_of_lt {lo a : Nat} {m : Memory} (h : risesFrom lo m = true) (hlt : a < lo) :
    memRead m a = none := by
  induction m generalizing lo with
  | nil => rfl
  | cons c rest ih =>
    obtain ⟨k, c⟩ := c
    simp only [risesFrom, Bool.and_eq_true, decide_eq_true_eq] at h
    rw [memRead_cons, if_neg (by omega)]
    exact ih h.2 (by omega)

/-- A byte that is listed lies in a block memory. -/
theorem isStored_of_memRead {m : Memory} {a : Nat} {b : Byte} (h : memWf m = true) (hr : memRead m a = some b) :
    isStored a = true := by
  simp only [memWf, Bool.and_eq_true] at h
  have h2 := h.2
  clear h
  induction m with
  | nil => simp at hr
  | cons c rest ih =>
    obtain ⟨k, c⟩ := c
    simp only [List.all_cons, Bool.and_eq_true] at h2
    rw [memRead_cons] at hr
    split at hr
    · next e => subst e; exact h2.1
    · exact ih hr h2.2

/-- The addresses of a block memory are stored addresses (R50). -/
theorem isStored_base (m : BlockMem) {i : Nat} (h : i < memSize m) : isStored (memBase m + i) = true := by
  have hm : inMem m (memBase m + i) = true := by
    rw [inMem, Bool.and_eq_true, decide_eq_true_iff, decide_eq_true_iff]
    omega
  cases m <;> simp [isStored, hm]

end Sys2Proof.Machine
end

