-- ==== Sys2Proof/Laws/State.lean ====
section
/-! SUPPORT. One lemma per field per update of State, each true by definition, so that no proof unfolds an update. -/

namespace Sys2Proof.Machine

/-! ### `State.dropWrite` -/

@[simp] theorem dropWrite_lifecycle (s : State) : s.dropWrite.lifecycle = s.lifecycle := rfl

@[simp] theorem dropWrite_drop (s : State) : s.dropWrite.drop = true := rfl

@[simp] theorem dropWrite_waiting (s : State) : s.dropWrite.waiting = s.waiting := rfl

@[simp] theorem dropWrite_result (s : State) : s.dropWrite.result = s.result := rfl

@[simp] theorem dropWrite_lutLen (s : State) : s.dropWrite.lutLen = s.lutLen := rfl

@[simp] theorem dropWrite_imgWLo (s : State) : s.dropWrite.imgWLo = s.imgWLo := rfl

@[simp] theorem dropWrite_imgWHi (s : State) : s.dropWrite.imgWHi = s.imgWHi := rfl

@[simp] theorem dropWrite_imgHLo (s : State) : s.dropWrite.imgHLo = s.imgHLo := rfl

@[simp] theorem dropWrite_imgHHi (s : State) : s.dropWrite.imgHHi = s.imgHHi := rfl

@[simp] theorem dropWrite_mem (s : State) : s.dropWrite.mem = s.mem := rfl

@[simp] theorem dropWrite_seqOp (s : State) : s.dropWrite.seqOp = s.seqOp := rfl

@[simp] theorem dropWrite_seqL (s : State) : s.dropWrite.seqL = s.seqL := rfl

@[simp] theorem dropWrite_seqD (s : State) : s.dropWrite.seqD = s.seqD := rfl

@[simp] theorem dropWrite_seqStep (s : State) : s.dropWrite.seqStep = s.seqStep := rfl

@[simp] theorem dropWrite_seqI (s : State) : s.dropWrite.seqI = s.seqI := rfl

@[simp] theorem dropWrite_port (s : State) : s.dropWrite.port = s.port := rfl

@[simp] theorem dropWrite_hRdata (s : State) : s.dropWrite.hRdata = s.hRdata := rfl

@[simp] theorem dropWrite_draws (s : State) : s.dropWrite.draws = s.draws := rfl

@[simp] theorem dropWrite_log (s : State) : s.dropWrite.log = s.log := rfl

@[simp] theorem dropWrite_inputs (s : State) : s.dropWrite.inputs = s.inputs := rfl

/-! ### `State.reject` -/

@[simp] theorem reject_lifecycle (c : Byte) (s : State) : (s.reject c).lifecycle = s.lifecycle := rfl

@[simp] theorem reject_drop (c : Byte) (s : State) : (s.reject c).drop = false := rfl

@[simp] theorem reject_waiting (c : Byte) (s : State) : (s.reject c).waiting = s.waiting := rfl

@[simp] theorem reject_result (c : Byte) (s : State) : (s.reject c).result = c := rfl

@[simp] theorem reject_lutLen (c : Byte) (s : State) : (s.reject c).lutLen = s.lutLen := rfl

@[simp] theorem reject_imgWLo (c : Byte) (s : State) : (s.reject c).imgWLo = s.imgWLo := rfl

@[simp] theorem reject_imgWHi (c : Byte) (s : State) : (s.reject c).imgWHi = s.imgWHi := rfl

@[simp] theorem reject_imgHLo (c : Byte) (s : State) : (s.reject c).imgHLo = s.imgHLo := rfl

@[simp] theorem reject_imgHHi (c : Byte) (s : State) : (s.reject c).imgHHi = s.imgHHi := rfl

@[simp] theorem reject_mem (c : Byte) (s : State) : (s.reject c).mem = s.mem := rfl

@[simp] theorem reject_seqOp (c : Byte) (s : State) : (s.reject c).seqOp = s.seqOp := rfl

@[simp] theorem reject_seqL (c : Byte) (s : State) : (s.reject c).seqL = s.seqL := rfl

@[simp] theorem reject_seqD (c : Byte) (s : State) : (s.reject c).seqD = s.seqD := rfl

@[simp] theorem reject_seqStep (c : Byte) (s : State) : (s.reject c).seqStep = s.seqStep := rfl

@[simp] theorem reject_seqI (c : Byte) (s : State) : (s.reject c).seqI = s.seqI := rfl

@[simp] theorem reject_port (c : Byte) (s : State) : (s.reject c).port = s.port := rfl

@[simp] theorem reject_hRdata (c : Byte) (s : State) : (s.reject c).hRdata = s.hRdata := rfl

@[simp] theorem reject_draws (c : Byte) (s : State) : (s.reject c).draws = s.draws := rfl

@[simp] theorem reject_log (c : Byte) (s : State) : (s.reject c).log = s.log := rfl

@[simp] theorem reject_inputs (c : Byte) (s : State) : (s.reject c).inputs = s.inputs := rfl

/-! ### `State.start` -/

@[simp] theorem start_lifecycle (op : SeqOp) (l d : Bool) (s : State) : (s.start op l d).lifecycle = s.lifecycle := rfl

@[simp] theorem start_drop (op : SeqOp) (l d : Bool) (s : State) : (s.start op l d).drop = false := rfl

@[simp] theorem start_waiting (op : SeqOp) (l d : Bool) (s : State) : (s.start op l d).waiting = s.waiting := rfl

@[simp] theorem start_result (op : SeqOp) (l d : Bool) (s : State) : (s.start op l d).result = s.result := rfl

@[simp] theorem start_lutLen (op : SeqOp) (l d : Bool) (s : State) : (s.start op l d).lutLen = s.lutLen := rfl

@[simp] theorem start_imgWLo (op : SeqOp) (l d : Bool) (s : State) : (s.start op l d).imgWLo = s.imgWLo := rfl

@[simp] theorem start_imgWHi (op : SeqOp) (l d : Bool) (s : State) : (s.start op l d).imgWHi = s.imgWHi := rfl

@[simp] theorem start_imgHLo (op : SeqOp) (l d : Bool) (s : State) : (s.start op l d).imgHLo = s.imgHLo := rfl

@[simp] theorem start_imgHHi (op : SeqOp) (l d : Bool) (s : State) : (s.start op l d).imgHHi = s.imgHHi := rfl

@[simp] theorem start_mem (op : SeqOp) (l d : Bool) (s : State) : (s.start op l d).mem = s.mem := rfl

@[simp] theorem start_seqOp (op : SeqOp) (l d : Bool) (s : State) : (s.start op l d).seqOp = op := rfl

@[simp] theorem start_seqL (op : SeqOp) (l d : Bool) (s : State) : (s.start op l d).seqL = l := rfl

@[simp] theorem start_seqD (op : SeqOp) (l d : Bool) (s : State) : (s.start op l d).seqD = d := rfl

@[simp] theorem start_seqStep (op : SeqOp) (l d : Bool) (s : State) : (s.start op l d).seqStep = 1 := rfl

@[simp] theorem start_seqI (op : SeqOp) (l d : Bool) (s : State) : (s.start op l d).seqI = 0 := rfl

@[simp] theorem start_port (op : SeqOp) (l d : Bool) (s : State) : (s.start op l d).port = s.port := rfl

@[simp] theorem start_hRdata (op : SeqOp) (l d : Bool) (s : State) : (s.start op l d).hRdata = s.hRdata := rfl

@[simp] theorem start_draws (op : SeqOp) (l d : Bool) (s : State) : (s.start op l d).draws = s.draws := rfl

@[simp] theorem start_log (op : SeqOp) (l d : Bool) (s : State) : (s.start op l d).log = s.log := rfl

@[simp] theorem start_inputs (op : SeqOp) (l d : Bool) (s : State) : (s.start op l d).inputs = s.inputs := rfl

/-! ### `State.finish` -/

@[simp] theorem finish_lifecycle (c : Byte) (st : Option Lifecycle) (s : State) : (s.finish c st).lifecycle = st.getD s.lifecycle := rfl

@[simp] theorem finish_drop (c : Byte) (st : Option Lifecycle) (s : State) : (s.finish c st).drop = s.drop := rfl

@[simp] theorem finish_waiting (c : Byte) (st : Option Lifecycle) (s : State) : (s.finish c st).waiting = s.waiting := rfl

@[simp] theorem finish_result (c : Byte) (st : Option Lifecycle) (s : State) : (s.finish c st).result = c := rfl

@[simp] theorem finish_lutLen (c : Byte) (st : Option Lifecycle) (s : State) : (s.finish c st).lutLen = s.lutLen := rfl

@[simp] theorem finish_imgWLo (c : Byte) (st : Option Lifecycle) (s : State) : (s.finish c st).imgWLo = s.imgWLo := rfl

@[simp] theorem finish_imgWHi (c : Byte) (st : Option Lifecycle) (s : State) : (s.finish c st).imgWHi = s.imgWHi := rfl

@[simp] theorem finish_imgHLo (c : Byte) (st : Option Lifecycle) (s : State) : (s.finish c st).imgHLo = s.imgHLo := rfl

@[simp] theorem finish_imgHHi (c : Byte) (st : Option Lifecycle) (s : State) : (s.finish c st).imgHHi = s.imgHHi := rfl

@[simp] theorem finish_mem (c : Byte) (st : Option Lifecycle) (s : State) : (s.finish c st).mem = s.mem := rfl

@[simp] theorem finish_seqOp (c : Byte) (st : Option Lifecycle) (s : State) : (s.finish c st).seqOp = .idle := rfl

@[simp] theorem finish_seqL (c : Byte) (st : Option Lifecycle) (s : State) : (s.finish c st).seqL = s.seqL := rfl

@[simp] theorem finish_seqD (c : Byte) (st : Option Lifecycle) (s : State) : (s.finish c st).seqD = s.seqD := rfl

@[simp] theorem finish_seqStep (c : Byte) (st : Option Lifecycle) (s : State) : (s.finish c st).seqStep = s.seqStep := rfl

@[simp] theorem finish_seqI (c : Byte) (st : Option Lifecycle) (s : State) : (s.finish c st).seqI = s.seqI := rfl

@[simp] theorem finish_port (c : Byte) (st : Option Lifecycle) (s : State) : (s.finish c st).port = s.port := rfl

@[simp] theorem finish_hRdata (c : Byte) (st : Option Lifecycle) (s : State) : (s.finish c st).hRdata = s.hRdata := rfl

@[simp] theorem finish_draws (c : Byte) (st : Option Lifecycle) (s : State) : (s.finish c st).draws = s.draws := rfl

@[simp] theorem finish_log (c : Byte) (st : Option Lifecycle) (s : State) : (s.finish c st).log = s.log := rfl

@[simp] theorem finish_inputs (c : Byte) (st : Option Lifecycle) (s : State) : (s.finish c st).inputs = s.inputs := rfl

/-! ### `State.advance` -/

@[simp] theorem advance_lifecycle (s : State) : s.advance.lifecycle = s.lifecycle := rfl

@[simp] theorem advance_drop (s : State) : s.advance.drop = s.drop := rfl

@[simp] theorem advance_waiting (s : State) : s.advance.waiting = s.waiting := rfl

@[simp] theorem advance_result (s : State) : s.advance.result = s.result := rfl

@[simp] theorem advance_lutLen (s : State) : s.advance.lutLen = s.lutLen := rfl

@[simp] theorem advance_imgWLo (s : State) : s.advance.imgWLo = s.imgWLo := rfl

@[simp] theorem advance_imgWHi (s : State) : s.advance.imgWHi = s.imgWHi := rfl

@[simp] theorem advance_imgHLo (s : State) : s.advance.imgHLo = s.imgHLo := rfl

@[simp] theorem advance_imgHHi (s : State) : s.advance.imgHHi = s.imgHHi := rfl

@[simp] theorem advance_mem (s : State) : s.advance.mem = s.mem := rfl

@[simp] theorem advance_seqOp (s : State) : s.advance.seqOp = s.seqOp := rfl

@[simp] theorem advance_seqL (s : State) : s.advance.seqL = s.seqL := rfl

@[simp] theorem advance_seqD (s : State) : s.advance.seqD = s.seqD := rfl

@[simp] theorem advance_seqStep (s : State) : s.advance.seqStep = s.seqStep + 1 := rfl

@[simp] theorem advance_seqI (s : State) : s.advance.seqI = 0 := rfl

@[simp] theorem advance_port (s : State) : s.advance.port = s.port := rfl

@[simp] theorem advance_hRdata (s : State) : s.advance.hRdata = s.hRdata := rfl

@[simp] theorem advance_draws (s : State) : s.advance.draws = s.draws := rfl

@[simp] theorem advance_log (s : State) : s.advance.log = s.log := rfl

@[simp] theorem advance_inputs (s : State) : s.advance.inputs = s.inputs := rfl

/-! ### `State.setIndex` -/

@[simp] theorem setIndex_lifecycle (i : Nat) (s : State) : (s.setIndex i).lifecycle = s.lifecycle := rfl

@[simp] theorem setIndex_drop (i : Nat) (s : State) : (s.setIndex i).drop = s.drop := rfl

@[simp] theorem setIndex_waiting (i : Nat) (s : State) : (s.setIndex i).waiting = s.waiting := rfl

@[simp] theorem setIndex_result (i : Nat) (s : State) : (s.setIndex i).result = s.result := rfl

@[simp] theorem setIndex_lutLen (i : Nat) (s : State) : (s.setIndex i).lutLen = s.lutLen := rfl

@[simp] theorem setIndex_imgWLo (i : Nat) (s : State) : (s.setIndex i).imgWLo = s.imgWLo := rfl

@[simp] theorem setIndex_imgWHi (i : Nat) (s : State) : (s.setIndex i).imgWHi = s.imgWHi := rfl

@[simp] theorem setIndex_imgHLo (i : Nat) (s : State) : (s.setIndex i).imgHLo = s.imgHLo := rfl

@[simp] theorem setIndex_imgHHi (i : Nat) (s : State) : (s.setIndex i).imgHHi = s.imgHHi := rfl

@[simp] theorem setIndex_mem (i : Nat) (s : State) : (s.setIndex i).mem = s.mem := rfl

@[simp] theorem setIndex_seqOp (i : Nat) (s : State) : (s.setIndex i).seqOp = s.seqOp := rfl

@[simp] theorem setIndex_seqL (i : Nat) (s : State) : (s.setIndex i).seqL = s.seqL := rfl

@[simp] theorem setIndex_seqD (i : Nat) (s : State) : (s.setIndex i).seqD = s.seqD := rfl

@[simp] theorem setIndex_seqStep (i : Nat) (s : State) : (s.setIndex i).seqStep = s.seqStep := rfl

@[simp] theorem setIndex_seqI (i : Nat) (s : State) : (s.setIndex i).seqI = i := rfl

@[simp] theorem setIndex_port (i : Nat) (s : State) : (s.setIndex i).port = s.port := rfl

@[simp] theorem setIndex_hRdata (i : Nat) (s : State) : (s.setIndex i).hRdata = s.hRdata := rfl

@[simp] theorem setIndex_draws (i : Nat) (s : State) : (s.setIndex i).draws = s.draws := rfl

@[simp] theorem setIndex_log (i : Nat) (s : State) : (s.setIndex i).log = s.log := rfl

@[simp] theorem setIndex_inputs (i : Nat) (s : State) : (s.setIndex i).inputs = s.inputs := rfl

/-! ### `State.setWaiting` -/

@[simp] theorem setWaiting_lifecycle (b : Bool) (s : State) : (s.setWaiting b).lifecycle = s.lifecycle := rfl

@[simp] theorem setWaiting_drop (b : Bool) (s : State) : (s.setWaiting b).drop = s.drop := rfl

@[simp] theorem setWaiting_waiting (b : Bool) (s : State) : (s.setWaiting b).waiting = b := rfl

@[simp] theorem setWaiting_result (b : Bool) (s : State) : (s.setWaiting b).result = s.result := rfl

@[simp] theorem setWaiting_lutLen (b : Bool) (s : State) : (s.setWaiting b).lutLen = s.lutLen := rfl

@[simp] theorem setWaiting_imgWLo (b : Bool) (s : State) : (s.setWaiting b).imgWLo = s.imgWLo := rfl

@[simp] theorem setWaiting_imgWHi (b : Bool) (s : State) : (s.setWaiting b).imgWHi = s.imgWHi := rfl

@[simp] theorem setWaiting_imgHLo (b : Bool) (s : State) : (s.setWaiting b).imgHLo = s.imgHLo := rfl

@[simp] theorem setWaiting_imgHHi (b : Bool) (s : State) : (s.setWaiting b).imgHHi = s.imgHHi := rfl

@[simp] theorem setWaiting_mem (b : Bool) (s : State) : (s.setWaiting b).mem = s.mem := rfl

@[simp] theorem setWaiting_seqOp (b : Bool) (s : State) : (s.setWaiting b).seqOp = s.seqOp := rfl

@[simp] theorem setWaiting_seqL (b : Bool) (s : State) : (s.setWaiting b).seqL = s.seqL := rfl

@[simp] theorem setWaiting_seqD (b : Bool) (s : State) : (s.setWaiting b).seqD = s.seqD := rfl

@[simp] theorem setWaiting_seqStep (b : Bool) (s : State) : (s.setWaiting b).seqStep = s.seqStep := rfl

@[simp] theorem setWaiting_seqI (b : Bool) (s : State) : (s.setWaiting b).seqI = s.seqI := rfl

@[simp] theorem setWaiting_port (b : Bool) (s : State) : (s.setWaiting b).port = s.port := rfl

@[simp] theorem setWaiting_hRdata (b : Bool) (s : State) : (s.setWaiting b).hRdata = s.hRdata := rfl

@[simp] theorem setWaiting_draws (b : Bool) (s : State) : (s.setWaiting b).draws = s.draws := rfl

@[simp] theorem setWaiting_log (b : Bool) (s : State) : (s.setWaiting b).log = s.log := rfl

@[simp] theorem setWaiting_inputs (b : Bool) (s : State) : (s.setWaiting b).inputs = s.inputs := rfl

/-! ### `State.setMem` -/

@[simp] theorem setMem_lifecycle (m : Memory) (s : State) : (s.setMem m).lifecycle = s.lifecycle := rfl

@[simp] theorem setMem_drop (m : Memory) (s : State) : (s.setMem m).drop = s.drop := rfl

@[simp] theorem setMem_waiting (m : Memory) (s : State) : (s.setMem m).waiting = s.waiting := rfl

@[simp] theorem setMem_result (m : Memory) (s : State) : (s.setMem m).result = s.result := rfl

@[simp] theorem setMem_lutLen (m : Memory) (s : State) : (s.setMem m).lutLen = s.lutLen := rfl

@[simp] theorem setMem_imgWLo (m : Memory) (s : State) : (s.setMem m).imgWLo = s.imgWLo := rfl

@[simp] theorem setMem_imgWHi (m : Memory) (s : State) : (s.setMem m).imgWHi = s.imgWHi := rfl

@[simp] theorem setMem_imgHLo (m : Memory) (s : State) : (s.setMem m).imgHLo = s.imgHLo := rfl

@[simp] theorem setMem_imgHHi (m : Memory) (s : State) : (s.setMem m).imgHHi = s.imgHHi := rfl

@[simp] theorem setMem_mem (m : Memory) (s : State) : (s.setMem m).mem = m := rfl

@[simp] theorem setMem_seqOp (m : Memory) (s : State) : (s.setMem m).seqOp = s.seqOp := rfl

@[simp] theorem setMem_seqL (m : Memory) (s : State) : (s.setMem m).seqL = s.seqL := rfl

@[simp] theorem setMem_seqD (m : Memory) (s : State) : (s.setMem m).seqD = s.seqD := rfl

@[simp] theorem setMem_seqStep (m : Memory) (s : State) : (s.setMem m).seqStep = s.seqStep := rfl

@[simp] theorem setMem_seqI (m : Memory) (s : State) : (s.setMem m).seqI = s.seqI := rfl

@[simp] theorem setMem_port (m : Memory) (s : State) : (s.setMem m).port = s.port := rfl

@[simp] theorem setMem_hRdata (m : Memory) (s : State) : (s.setMem m).hRdata = s.hRdata := rfl

@[simp] theorem setMem_draws (m : Memory) (s : State) : (s.setMem m).draws = s.draws := rfl

@[simp] theorem setMem_log (m : Memory) (s : State) : (s.setMem m).log = s.log := rfl

@[simp] theorem setMem_inputs (m : Memory) (s : State) : (s.setMem m).inputs = s.inputs := rfl

/-! ### `State.raise` -/

@[simp] theorem raise_lifecycle (r : Request) (s : State) : (s.raise r).lifecycle = s.lifecycle := rfl

@[simp] theorem raise_drop (r : Request) (s : State) : (s.raise r).drop = s.drop := rfl

@[simp] theorem raise_waiting (r : Request) (s : State) : (s.raise r).waiting = s.waiting := rfl

@[simp] theorem raise_result (r : Request) (s : State) : (s.raise r).result = s.result := rfl

@[simp] theorem raise_lutLen (r : Request) (s : State) : (s.raise r).lutLen = s.lutLen := rfl

@[simp] theorem raise_imgWLo (r : Request) (s : State) : (s.raise r).imgWLo = s.imgWLo := rfl

@[simp] theorem raise_imgWHi (r : Request) (s : State) : (s.raise r).imgWHi = s.imgWHi := rfl

@[simp] theorem raise_imgHLo (r : Request) (s : State) : (s.raise r).imgHLo = s.imgHLo := rfl

@[simp] theorem raise_imgHHi (r : Request) (s : State) : (s.raise r).imgHHi = s.imgHHi := rfl

@[simp] theorem raise_mem (r : Request) (s : State) : (s.raise r).mem = s.mem := rfl

@[simp] theorem raise_seqOp (r : Request) (s : State) : (s.raise r).seqOp = s.seqOp := rfl

@[simp] theorem raise_seqL (r : Request) (s : State) : (s.raise r).seqL = s.seqL := rfl

@[simp] theorem raise_seqD (r : Request) (s : State) : (s.raise r).seqD = s.seqD := rfl

@[simp] theorem raise_seqStep (r : Request) (s : State) : (s.raise r).seqStep = s.seqStep := rfl

@[simp] theorem raise_seqI (r : Request) (s : State) : (s.raise r).seqI = s.seqI := rfl

@[simp] theorem raise_port (r : Request) (s : State) : (s.raise r).port = some r := rfl

@[simp] theorem raise_hRdata (r : Request) (s : State) : (s.raise r).hRdata = s.hRdata := rfl

@[simp] theorem raise_draws (r : Request) (s : State) : (s.raise r).draws = s.draws := rfl

@[simp] theorem raise_log (r : Request) (s : State) : (s.raise r).log = s.log := rfl

@[simp] theorem raise_inputs (r : Request) (s : State) : (s.raise r).inputs = s.inputs := rfl

/-! ### `State.answer` -/

@[simp] theorem answer_lifecycle (r : Request) (x : Byte) (s : State) : (s.answer r x).lifecycle = s.lifecycle := rfl

@[simp] theorem answer_drop (r : Request) (x : Byte) (s : State) : (s.answer r x).drop = s.drop := rfl

@[simp] theorem answer_waiting (r : Request) (x : Byte) (s : State) : (s.answer r x).waiting = s.waiting := rfl

@[simp] theorem answer_result (r : Request) (x : Byte) (s : State) : (s.answer r x).result = s.result := rfl

@[simp] theorem answer_lutLen (r : Request) (x : Byte) (s : State) : (s.answer r x).lutLen = s.lutLen := rfl

@[simp] theorem answer_imgWLo (r : Request) (x : Byte) (s : State) : (s.answer r x).imgWLo = s.imgWLo := rfl

@[simp] theorem answer_imgWHi (r : Request) (x : Byte) (s : State) : (s.answer r x).imgWHi = s.imgWHi := rfl

@[simp] theorem answer_imgHLo (r : Request) (x : Byte) (s : State) : (s.answer r x).imgHLo = s.imgHLo := rfl

@[simp] theorem answer_imgHHi (r : Request) (x : Byte) (s : State) : (s.answer r x).imgHHi = s.imgHHi := rfl

@[simp] theorem answer_mem (r : Request) (x : Byte) (s : State) : (s.answer r x).mem = s.mem := rfl

@[simp] theorem answer_seqOp (r : Request) (x : Byte) (s : State) : (s.answer r x).seqOp = s.seqOp := rfl

@[simp] theorem answer_seqL (r : Request) (x : Byte) (s : State) : (s.answer r x).seqL = s.seqL := rfl

@[simp] theorem answer_seqD (r : Request) (x : Byte) (s : State) : (s.answer r x).seqD = s.seqD := rfl

@[simp] theorem answer_seqStep (r : Request) (x : Byte) (s : State) : (s.answer r x).seqStep = s.seqStep := rfl

@[simp] theorem answer_seqI (r : Request) (x : Byte) (s : State) : (s.answer r x).seqI = s.seqI := rfl

@[simp] theorem answer_port (r : Request) (x : Byte) (s : State) : (s.answer r x).port = none := rfl

@[simp] theorem answer_hRdata (r : Request) (x : Byte) (s : State) : (s.answer r x).hRdata = s.hRdata := rfl

@[simp] theorem answer_draws (r : Request) (x : Byte) (s : State) : (s.answer r x).draws = s.draws := rfl

@[simp] theorem answer_log (r : Request) (x : Byte) (s : State) : (s.answer r x).log = ⟨r, some x⟩ :: s.log := rfl

@[simp] theorem answer_inputs (r : Request) (x : Byte) (s : State) : (s.answer r x).inputs = s.inputs := rfl

/-! ### `State.setRdata` -/

@[simp] theorem setRdata_lifecycle (v : Option Byte) (s : State) : (s.setRdata v).lifecycle = s.lifecycle := rfl

@[simp] theorem setRdata_drop (v : Option Byte) (s : State) : (s.setRdata v).drop = s.drop := rfl

@[simp] theorem setRdata_waiting (v : Option Byte) (s : State) : (s.setRdata v).waiting = s.waiting := rfl

@[simp] theorem setRdata_result (v : Option Byte) (s : State) : (s.setRdata v).result = s.result := rfl

@[simp] theorem setRdata_lutLen (v : Option Byte) (s : State) : (s.setRdata v).lutLen = s.lutLen := rfl

@[simp] theorem setRdata_imgWLo (v : Option Byte) (s : State) : (s.setRdata v).imgWLo = s.imgWLo := rfl

@[simp] theorem setRdata_imgWHi (v : Option Byte) (s : State) : (s.setRdata v).imgWHi = s.imgWHi := rfl

@[simp] theorem setRdata_imgHLo (v : Option Byte) (s : State) : (s.setRdata v).imgHLo = s.imgHLo := rfl

@[simp] theorem setRdata_imgHHi (v : Option Byte) (s : State) : (s.setRdata v).imgHHi = s.imgHHi := rfl

@[simp] theorem setRdata_mem (v : Option Byte) (s : State) : (s.setRdata v).mem = s.mem := rfl

@[simp] theorem setRdata_seqOp (v : Option Byte) (s : State) : (s.setRdata v).seqOp = s.seqOp := rfl

@[simp] theorem setRdata_seqL (v : Option Byte) (s : State) : (s.setRdata v).seqL = s.seqL := rfl

@[simp] theorem setRdata_seqD (v : Option Byte) (s : State) : (s.setRdata v).seqD = s.seqD := rfl

@[simp] theorem setRdata_seqStep (v : Option Byte) (s : State) : (s.setRdata v).seqStep = s.seqStep := rfl

@[simp] theorem setRdata_seqI (v : Option Byte) (s : State) : (s.setRdata v).seqI = s.seqI := rfl

@[simp] theorem setRdata_port (v : Option Byte) (s : State) : (s.setRdata v).port = s.port := rfl

@[simp] theorem setRdata_hRdata (v : Option Byte) (s : State) : (s.setRdata v).hRdata = v := rfl

@[simp] theorem setRdata_draws (v : Option Byte) (s : State) : (s.setRdata v).draws = s.draws := rfl

@[simp] theorem setRdata_log (v : Option Byte) (s : State) : (s.setRdata v).log = s.log := rfl

@[simp] theorem setRdata_inputs (v : Option Byte) (s : State) : (s.setRdata v).inputs = s.inputs := rfl

/-! ### `State.drawRdata` -/

@[simp] theorem drawRdata_lifecycle (s : State) : s.drawRdata.lifecycle = s.lifecycle := rfl

@[simp] theorem drawRdata_drop (s : State) : s.drawRdata.drop = s.drop := rfl

@[simp] theorem drawRdata_waiting (s : State) : s.drawRdata.waiting = s.waiting := rfl

@[simp] theorem drawRdata_result (s : State) : s.drawRdata.result = s.result := rfl

@[simp] theorem drawRdata_lutLen (s : State) : s.drawRdata.lutLen = s.lutLen := rfl

@[simp] theorem drawRdata_imgWLo (s : State) : s.drawRdata.imgWLo = s.imgWLo := rfl

@[simp] theorem drawRdata_imgWHi (s : State) : s.drawRdata.imgWHi = s.imgWHi := rfl

@[simp] theorem drawRdata_imgHLo (s : State) : s.drawRdata.imgHLo = s.imgHLo := rfl

@[simp] theorem drawRdata_imgHHi (s : State) : s.drawRdata.imgHHi = s.imgHHi := rfl

@[simp] theorem drawRdata_mem (s : State) : s.drawRdata.mem = s.mem := rfl

@[simp] theorem drawRdata_seqOp (s : State) : s.drawRdata.seqOp = s.seqOp := rfl

@[simp] theorem drawRdata_seqL (s : State) : s.drawRdata.seqL = s.seqL := rfl

@[simp] theorem drawRdata_seqD (s : State) : s.drawRdata.seqD = s.seqD := rfl

@[simp] theorem drawRdata_seqStep (s : State) : s.drawRdata.seqStep = s.seqStep := rfl

@[simp] theorem drawRdata_seqI (s : State) : s.drawRdata.seqI = s.seqI := rfl

@[simp] theorem drawRdata_port (s : State) : s.drawRdata.port = s.port := rfl

@[simp] theorem drawRdata_hRdata (s : State) : s.drawRdata.hRdata = some (Config.freeByte s.draws) := rfl

@[simp] theorem drawRdata_draws (s : State) : s.drawRdata.draws = s.draws + 1 := rfl

@[simp] theorem drawRdata_log (s : State) : s.drawRdata.log = s.log := rfl

@[simp] theorem drawRdata_inputs (s : State) : s.drawRdata.inputs = s.inputs := rfl

/-! ### `State.setInputs` -/

@[simp] theorem setInputs_lifecycle (ins : List ClockIn) (s : State) : (s.setInputs ins).lifecycle = s.lifecycle := rfl

@[simp] theorem setInputs_drop (ins : List ClockIn) (s : State) : (s.setInputs ins).drop = s.drop := rfl

@[simp] theorem setInputs_waiting (ins : List ClockIn) (s : State) : (s.setInputs ins).waiting = s.waiting := rfl

@[simp] theorem setInputs_result (ins : List ClockIn) (s : State) : (s.setInputs ins).result = s.result := rfl

@[simp] theorem setInputs_lutLen (ins : List ClockIn) (s : State) : (s.setInputs ins).lutLen = s.lutLen := rfl

@[simp] theorem setInputs_imgWLo (ins : List ClockIn) (s : State) : (s.setInputs ins).imgWLo = s.imgWLo := rfl

@[simp] theorem setInputs_imgWHi (ins : List ClockIn) (s : State) : (s.setInputs ins).imgWHi = s.imgWHi := rfl

@[simp] theorem setInputs_imgHLo (ins : List ClockIn) (s : State) : (s.setInputs ins).imgHLo = s.imgHLo := rfl

@[simp] theorem setInputs_imgHHi (ins : List ClockIn) (s : State) : (s.setInputs ins).imgHHi = s.imgHHi := rfl

@[simp] theorem setInputs_mem (ins : List ClockIn) (s : State) : (s.setInputs ins).mem = s.mem := rfl

@[simp] theorem setInputs_seqOp (ins : List ClockIn) (s : State) : (s.setInputs ins).seqOp = s.seqOp := rfl

@[simp] theorem setInputs_seqL (ins : List ClockIn) (s : State) : (s.setInputs ins).seqL = s.seqL := rfl

@[simp] theorem setInputs_seqD (ins : List ClockIn) (s : State) : (s.setInputs ins).seqD = s.seqD := rfl

@[simp] theorem setInputs_seqStep (ins : List ClockIn) (s : State) : (s.setInputs ins).seqStep = s.seqStep := rfl

@[simp] theorem setInputs_seqI (ins : List ClockIn) (s : State) : (s.setInputs ins).seqI = s.seqI := rfl

@[simp] theorem setInputs_port (ins : List ClockIn) (s : State) : (s.setInputs ins).port = s.port := rfl

@[simp] theorem setInputs_hRdata (ins : List ClockIn) (s : State) : (s.setInputs ins).hRdata = s.hRdata := rfl

@[simp] theorem setInputs_draws (ins : List ClockIn) (s : State) : (s.setInputs ins).draws = s.draws := rfl

@[simp] theorem setInputs_log (ins : List ClockIn) (s : State) : (s.setInputs ins).log = s.log := rfl

@[simp] theorem setInputs_inputs (ins : List ClockIn) (s : State) : (s.setInputs ins).inputs = ins := rfl

/-! ### `State.popInput` -/

@[simp] theorem popInput_lifecycle (s : State) : s.popInput.lifecycle = s.lifecycle := rfl

@[simp] theorem popInput_drop (s : State) : s.popInput.drop = s.drop := rfl

@[simp] theorem popInput_waiting (s : State) : s.popInput.waiting = s.waiting := rfl

@[simp] theorem popInput_result (s : State) : s.popInput.result = s.result := rfl

@[simp] theorem popInput_lutLen (s : State) : s.popInput.lutLen = s.lutLen := rfl

@[simp] theorem popInput_imgWLo (s : State) : s.popInput.imgWLo = s.imgWLo := rfl

@[simp] theorem popInput_imgWHi (s : State) : s.popInput.imgWHi = s.imgWHi := rfl

@[simp] theorem popInput_imgHLo (s : State) : s.popInput.imgHLo = s.imgHLo := rfl

@[simp] theorem popInput_imgHHi (s : State) : s.popInput.imgHHi = s.imgHHi := rfl

@[simp] theorem popInput_mem (s : State) : s.popInput.mem = s.mem := rfl

@[simp] theorem popInput_seqOp (s : State) : s.popInput.seqOp = s.seqOp := rfl

@[simp] theorem popInput_seqL (s : State) : s.popInput.seqL = s.seqL := rfl

@[simp] theorem popInput_seqD (s : State) : s.popInput.seqD = s.seqD := rfl

@[simp] theorem popInput_seqStep (s : State) : s.popInput.seqStep = s.seqStep := rfl

@[simp] theorem popInput_seqI (s : State) : s.popInput.seqI = s.seqI := rfl

@[simp] theorem popInput_port (s : State) : s.popInput.port = s.port := rfl

@[simp] theorem popInput_hRdata (s : State) : s.popInput.hRdata = s.hRdata := rfl

@[simp] theorem popInput_draws (s : State) : s.popInput.draws = s.draws := rfl

@[simp] theorem popInput_log (s : State) : s.popInput.log = s.log := rfl

@[simp] theorem popInput_inputs (s : State) : s.popInput.inputs = s.inputs.tail := rfl

/-! ### `State.writeBuf` -/

@[simp] theorem writeBuf_lifecycle (k : Bool) (bs : List Byte) (s : State) : (s.writeBuf k bs).lifecycle = s.lifecycle := rfl

@[simp] theorem writeBuf_drop (k : Bool) (bs : List Byte) (s : State) : (s.writeBuf k bs).drop = s.drop := rfl

@[simp] theorem writeBuf_waiting (k : Bool) (bs : List Byte) (s : State) : (s.writeBuf k bs).waiting = s.waiting := rfl

@[simp] theorem writeBuf_result (k : Bool) (bs : List Byte) (s : State) : (s.writeBuf k bs).result = s.result := rfl

@[simp] theorem writeBuf_lutLen (k : Bool) (bs : List Byte) (s : State) : (s.writeBuf k bs).lutLen = s.lutLen := rfl

@[simp] theorem writeBuf_imgWLo (k : Bool) (bs : List Byte) (s : State) : (s.writeBuf k bs).imgWLo = s.imgWLo := rfl

@[simp] theorem writeBuf_imgWHi (k : Bool) (bs : List Byte) (s : State) : (s.writeBuf k bs).imgWHi = s.imgWHi := rfl

@[simp] theorem writeBuf_imgHLo (k : Bool) (bs : List Byte) (s : State) : (s.writeBuf k bs).imgHLo = s.imgHLo := rfl

@[simp] theorem writeBuf_imgHHi (k : Bool) (bs : List Byte) (s : State) : (s.writeBuf k bs).imgHHi = s.imgHHi := rfl

@[simp] theorem writeBuf_mem (k : Bool) (bs : List Byte) (s : State) : (s.writeBuf k bs).mem = memWriteRun s.mem (memBase (bufOf k)) bs := rfl

@[simp] theorem writeBuf_seqOp (k : Bool) (bs : List Byte) (s : State) : (s.writeBuf k bs).seqOp = s.seqOp := rfl

@[simp] theorem writeBuf_seqL (k : Bool) (bs : List Byte) (s : State) : (s.writeBuf k bs).seqL = s.seqL := rfl

@[simp] theorem writeBuf_seqD (k : Bool) (bs : List Byte) (s : State) : (s.writeBuf k bs).seqD = s.seqD := rfl

@[simp] theorem writeBuf_seqStep (k : Bool) (bs : List Byte) (s : State) : (s.writeBuf k bs).seqStep = s.seqStep := rfl

@[simp] theorem writeBuf_seqI (k : Bool) (bs : List Byte) (s : State) : (s.writeBuf k bs).seqI = s.seqI := rfl

@[simp] theorem writeBuf_port (k : Bool) (bs : List Byte) (s : State) : (s.writeBuf k bs).port = s.port := rfl

@[simp] theorem writeBuf_hRdata (k : Bool) (bs : List Byte) (s : State) : (s.writeBuf k bs).hRdata = s.hRdata := rfl

@[simp] theorem writeBuf_draws (k : Bool) (bs : List Byte) (s : State) : (s.writeBuf k bs).draws = s.draws := rfl

@[simp] theorem writeBuf_log (k : Bool) (bs : List Byte) (s : State) : (s.writeBuf k bs).log = s.log := rfl

@[simp] theorem writeBuf_inputs (k : Bool) (bs : List Byte) (s : State) : (s.writeBuf k bs).inputs = s.inputs := rfl

/-! ### `State.enterWait` -/

/-- Entering a WaitReady touches WAITING alone. -/
theorem enterWait_eq (s : State) : s.enterWait = s.setWaiting (s.waiting || s.microOp = some .wait) := by
  unfold State.enterWait
  split
  · next h => simp [h]
  · next h => simp [h, State.setWaiting]

@[simp] theorem enterWait_lifecycle (s : State) : s.enterWait.lifecycle = s.lifecycle := by rw [enterWait_eq]; rfl

@[simp] theorem enterWait_drop (s : State) : s.enterWait.drop = s.drop := by rw [enterWait_eq]; rfl

@[simp] theorem enterWait_waiting (s : State) : s.enterWait.waiting = (s.waiting || s.microOp = some .wait) := by rw [enterWait_eq]; rfl

@[simp] theorem enterWait_result (s : State) : s.enterWait.result = s.result := by rw [enterWait_eq]; rfl

@[simp] theorem enterWait_lutLen (s : State) : s.enterWait.lutLen = s.lutLen := by rw [enterWait_eq]; rfl

@[simp] theorem enterWait_imgWLo (s : State) : s.enterWait.imgWLo = s.imgWLo := by rw [enterWait_eq]; rfl

@[simp] theorem enterWait_imgWHi (s : State) : s.enterWait.imgWHi = s.imgWHi := by rw [enterWait_eq]; rfl

@[simp] theorem enterWait_imgHLo (s : State) : s.enterWait.imgHLo = s.imgHLo := by rw [enterWait_eq]; rfl

@[simp] theorem enterWait_imgHHi (s : State) : s.enterWait.imgHHi = s.imgHHi := by rw [enterWait_eq]; rfl

@[simp] theorem enterWait_mem (s : State) : s.enterWait.mem = s.mem := by rw [enterWait_eq]; rfl

@[simp] theorem enterWait_seqOp (s : State) : s.enterWait.seqOp = s.seqOp := by rw [enterWait_eq]; rfl

@[simp] theorem enterWait_seqL (s : State) : s.enterWait.seqL = s.seqL := by rw [enterWait_eq]; rfl

@[simp] theorem enterWait_seqD (s : State) : s.enterWait.seqD = s.seqD := by rw [enterWait_eq]; rfl

@[simp] theorem enterWait_seqStep (s : State) : s.enterWait.seqStep = s.seqStep := by rw [enterWait_eq]; rfl

@[simp] theorem enterWait_seqI (s : State) : s.enterWait.seqI = s.seqI := by rw [enterWait_eq]; rfl

@[simp] theorem enterWait_port (s : State) : s.enterWait.port = s.port := by rw [enterWait_eq]; rfl

@[simp] theorem enterWait_hRdata (s : State) : s.enterWait.hRdata = s.hRdata := by rw [enterWait_eq]; rfl

@[simp] theorem enterWait_draws (s : State) : s.enterWait.draws = s.draws := by rw [enterWait_eq]; rfl

@[simp] theorem enterWait_log (s : State) : s.enterWait.log = s.log := by rw [enterWait_eq]; rfl

@[simp] theorem enterWait_inputs (s : State) : s.enterWait.inputs = s.inputs := by rw [enterWait_eq]; rfl

/-! ### `State.standAt` -/

@[simp] theorem standAt_lifecycle (op : SeqOp) (n : Nat) (s : State) : (s.standAt op n).lifecycle = s.lifecycle := rfl

@[simp] theorem standAt_drop (op : SeqOp) (n : Nat) (s : State) : (s.standAt op n).drop = s.drop := rfl

@[simp] theorem standAt_waiting (op : SeqOp) (n : Nat) (s : State) : (s.standAt op n).waiting = s.waiting := rfl

@[simp] theorem standAt_result (op : SeqOp) (n : Nat) (s : State) : (s.standAt op n).result = s.result := rfl

@[simp] theorem standAt_lutLen (op : SeqOp) (n : Nat) (s : State) : (s.standAt op n).lutLen = s.lutLen := rfl

@[simp] theorem standAt_imgWLo (op : SeqOp) (n : Nat) (s : State) : (s.standAt op n).imgWLo = s.imgWLo := rfl

@[simp] theorem standAt_imgWHi (op : SeqOp) (n : Nat) (s : State) : (s.standAt op n).imgWHi = s.imgWHi := rfl

@[simp] theorem standAt_imgHLo (op : SeqOp) (n : Nat) (s : State) : (s.standAt op n).imgHLo = s.imgHLo := rfl

@[simp] theorem standAt_imgHHi (op : SeqOp) (n : Nat) (s : State) : (s.standAt op n).imgHHi = s.imgHHi := rfl

@[simp] theorem standAt_mem (op : SeqOp) (n : Nat) (s : State) : (s.standAt op n).mem = s.mem := rfl

@[simp] theorem standAt_seqOp (op : SeqOp) (n : Nat) (s : State) : (s.standAt op n).seqOp = op := rfl

@[simp] theorem standAt_seqL (op : SeqOp) (n : Nat) (s : State) : (s.standAt op n).seqL = false := rfl

@[simp] theorem standAt_seqD (op : SeqOp) (n : Nat) (s : State) : (s.standAt op n).seqD = false := rfl

@[simp] theorem standAt_seqStep (op : SeqOp) (n : Nat) (s : State) : (s.standAt op n).seqStep = n := rfl

@[simp] theorem standAt_seqI (op : SeqOp) (n : Nat) (s : State) : (s.standAt op n).seqI = 0 := rfl

@[simp] theorem standAt_port (op : SeqOp) (n : Nat) (s : State) : (s.standAt op n).port = none := rfl

@[simp] theorem standAt_hRdata (op : SeqOp) (n : Nat) (s : State) : (s.standAt op n).hRdata = s.hRdata := rfl

@[simp] theorem standAt_draws (op : SeqOp) (n : Nat) (s : State) : (s.standAt op n).draws = s.draws := rfl

@[simp] theorem standAt_log (op : SeqOp) (n : Nat) (s : State) : (s.standAt op n).log = s.log := rfl

@[simp] theorem standAt_inputs (op : SeqOp) (n : Nat) (s : State) : (s.standAt op n).inputs = s.inputs := rfl

/-! ### `State.blockReset` -/

@[simp] theorem blockReset_lifecycle (s : State) : s.blockReset.lifecycle = State.reset.lifecycle := rfl

@[simp] theorem blockReset_drop (s : State) : s.blockReset.drop = State.reset.drop := rfl

@[simp] theorem blockReset_waiting (s : State) : s.blockReset.waiting = State.reset.waiting := rfl

@[simp] theorem blockReset_result (s : State) : s.blockReset.result = State.reset.result := rfl

@[simp] theorem blockReset_lutLen (s : State) : s.blockReset.lutLen = State.reset.lutLen := rfl

@[simp] theorem blockReset_imgWLo (s : State) : s.blockReset.imgWLo = State.reset.imgWLo := rfl

@[simp] theorem blockReset_imgWHi (s : State) : s.blockReset.imgWHi = State.reset.imgWHi := rfl

@[simp] theorem blockReset_imgHLo (s : State) : s.blockReset.imgHLo = State.reset.imgHLo := rfl

@[simp] theorem blockReset_imgHHi (s : State) : s.blockReset.imgHHi = State.reset.imgHHi := rfl

@[simp] theorem blockReset_mem (s : State) : s.blockReset.mem = State.reset.mem := rfl

@[simp] theorem blockReset_seqOp (s : State) : s.blockReset.seqOp = State.reset.seqOp := rfl

@[simp] theorem blockReset_seqL (s : State) : s.blockReset.seqL = State.reset.seqL := rfl

@[simp] theorem blockReset_seqD (s : State) : s.blockReset.seqD = State.reset.seqD := rfl

@[simp] theorem blockReset_seqStep (s : State) : s.blockReset.seqStep = State.reset.seqStep := rfl

@[simp] theorem blockReset_seqI (s : State) : s.blockReset.seqI = State.reset.seqI := rfl

@[simp] theorem blockReset_port (s : State) : s.blockReset.port = State.reset.port := rfl

@[simp] theorem blockReset_hRdata (s : State) : s.blockReset.hRdata = State.reset.hRdata := rfl

@[simp] theorem blockReset_draws (s : State) : s.blockReset.draws = s.draws := rfl

@[simp] theorem blockReset_log (s : State) : s.blockReset.log = abandonedLog s := rfl

@[simp] theorem blockReset_inputs (s : State) : s.blockReset.inputs = s.inputs := rfl

/-! ### `State.reset` -/

@[simp] theorem reset_lifecycle : State.reset.lifecycle = .uninit := rfl

@[simp] theorem reset_drop : State.reset.drop = false := rfl

@[simp] theorem reset_waiting : State.reset.waiting = false := rfl

@[simp] theorem reset_result : State.reset.result = 0x00 := rfl

@[simp] theorem reset_lutLen : State.reset.lutLen = 0x00 := rfl

@[simp] theorem reset_imgWLo : State.reset.imgWLo = 0x00 := rfl

@[simp] theorem reset_imgWHi : State.reset.imgWHi = 0x00 := rfl

@[simp] theorem reset_imgHLo : State.reset.imgHLo = 0x00 := rfl

@[simp] theorem reset_imgHHi : State.reset.imgHHi = 0x00 := rfl

@[simp] theorem reset_mem : State.reset.mem = [] := rfl

@[simp] theorem reset_seqOp : State.reset.seqOp = .idle := rfl

@[simp] theorem reset_seqL : State.reset.seqL = false := rfl

@[simp] theorem reset_seqD : State.reset.seqD = false := rfl

@[simp] theorem reset_seqStep : State.reset.seqStep = 0 := rfl

@[simp] theorem reset_seqI : State.reset.seqI = 0 := rfl

@[simp] theorem reset_port : State.reset.port = none := rfl

@[simp] theorem reset_hRdata : State.reset.hRdata = none := rfl

@[simp] theorem reset_draws : State.reset.draws = 0 := rfl

@[simp] theorem reset_log : State.reset.log = [] := rfl

@[simp] theorem reset_inputs : State.reset.inputs = [] := rfl

end Sys2Proof.Machine
end

