-- ==== Sys2Proof/Laws/Ops.lean ====
section
/-! SUPPORT. What each shared operation and each meaning can answer, said once. -/

namespace Sys2Proof.Machine

/-! ### RUNNING under the updates -/

theorem running_iff (s : State) : s.running = true ↔ s.seqOp ≠ .idle := by simp [State.running]

theorem not_running_iff (s : State) : s.running = false ↔ s.seqOp = .idle := by simp [State.running]

@[simp] theorem running_dropWrite (s : State) : s.dropWrite.running = s.running := rfl

@[simp] theorem running_reject (c : Byte) (s : State) : (s.reject c).running = s.running := rfl

@[simp] theorem running_finish (c : Byte) (st : Option Lifecycle) (s : State) : (s.finish c st).running = false := rfl

@[simp] theorem running_advance (s : State) : s.advance.running = s.running := rfl

@[simp] theorem running_setIndex (i : Nat) (s : State) : (s.setIndex i).running = s.running := rfl

@[simp] theorem running_setWaiting (b : Bool) (s : State) : (s.setWaiting b).running = s.running := rfl

@[simp] theorem running_setMem (m : Memory) (s : State) : (s.setMem m).running = s.running := rfl

@[simp] theorem running_raise (r : Request) (s : State) : (s.raise r).running = s.running := rfl

@[simp] theorem running_answer (r : Request) (x : Byte) (s : State) : (s.answer r x).running = s.running := rfl

@[simp] theorem running_setRdata (v : Option Byte) (s : State) : (s.setRdata v).running = s.running := rfl

@[simp] theorem running_drawRdata (s : State) : s.drawRdata.running = s.running := rfl

@[simp] theorem running_popInput (s : State) : s.popInput.running = s.running := rfl

@[simp] theorem running_setInputs (ins : List ClockIn) (s : State) : (s.setInputs ins).running = s.running := rfl

@[simp] theorem running_blockReset (s : State) : s.blockReset.running = false := rfl

theorem running_start {op : SeqOp} (h : op ≠ .idle) (l d : Bool) (s : State) : (s.start op l d).running = true := by
  simp [running_iff, h]

/-! ### Acceptance (R215) -/

/-- Acceptance drops the byte, turns it away or starts the command. -/
theorem accept_cases {op : SeqOp} {l d : Bool} {r : Option Byte} {s t : State}
    (h : accept op l d r s = .next t) :
    (s.running = true ∧ t = s.dropWrite) ∨
    (s.running = false ∧ ∃ c, r = some c ∧ t = s.reject c) ∨
    (s.running = false ∧ r = none ∧ t = s.start op l d) := by
  unfold accept at h
  split at h
  · next hr => exact .inl ⟨hr, by simpa using h.symm⟩
  · next hr =>
    simp only [Bool.not_eq_true] at hr
    split at h
    · exact .inr (.inl ⟨hr, _, rfl, by simpa using h.symm⟩)
    · exact .inr (.inr ⟨hr, rfl, by simpa using h.symm⟩)

theorem accept_running {op : SeqOp} {l d : Bool} {r : Option Byte} {s : State} (h : s.running = true) :
    accept op l d r s = .next s.dropWrite := by simp [accept, h]

theorem accept_refused {op : SeqOp} {l d : Bool} {c : Byte} {s : State} (h : s.running = false) :
    accept op l d (some c) s = .next (s.reject c) := by simp [accept, h]

theorem accept_started {op : SeqOp} {l d : Bool} {s : State} (h : s.running = false) :
    accept op l d none s = .next (s.start op l d) := by simp [accept, h]

/-- Acceptance always answers a next state. -/
theorem accept_total (op : SeqOp) (l d : Bool) (r : Option Byte) (s : State) : ∃ t, accept op l d r s = .next t := by
  unfold accept
  split
  · exact ⟨_, rfl⟩
  · split <;> exact ⟨_, rfl⟩

/-! ### Requests (R101) -/

theorem issue_free {r : Request} {s : State} (h : s.port = none) : issue r s = .next (s.raise r) := by
  simp [issue, h]

theorem issue_held {r : Request} {s : State} (h : s.port ≠ none) : issue r s = .next s := by
  obtain ⟨q, hq⟩ := Option.ne_none_iff_exists'.1 h
  simp [issue, hq]

/-- An issue holds while a request is outstanding, and else raises its request. -/
theorem issue_cases {r : Request} {s t : State} (h : issue r s = .next t) :
    (s.port ≠ none ∧ t = s) ∨ (s.port = none ∧ t = s.raise r) := by
  by_cases hp : s.port = none
  · rw [issue_free hp] at h; exact .inr ⟨hp, by simpa using h.symm⟩
  · rw [issue_held hp] at h; exact .inl ⟨hp, by simpa using h.symm⟩

/-! ### Every meaning -/

/-- An instruction that issues a request raises exactly it where the port is free. -/
theorem exec_request {i : Instr} {r : Request} {s : State} (hi : requestOf i = some r)
    (hw : i.wellFormed = true) (hp : s.port = none) : exec i s = .next (s.raise r) := by
  cases i <;> simp only [requestOf, Option.some.injEq, reduceCtorEq] at hi <;> subst hi
  case pinWrite p l =>
    have hp' : p = .rst := by simpa [Instr.wellFormed] using hw
    simp [exec, execPinWrite, hp', issue_free hp]
  case pinRead p =>
    have hp' : p = .busy := by simpa [Instr.wellFormed] using hw
    simp [exec, execPinRead, hp', issue_free hp]
  case sendCommand b =>
    have hb : b ∈ panelBytes := by simpa [Instr.wellFormed] using hw
    simp [exec, execSendCommand, hb, issue_free hp]
  all_goals exact issue_free hp

/-- What a meaning can answer: a host command is accepted (R215), and a request is held, raised, or one the block never
issues (I14). -/
theorem exec_cases (i : Instr) (s : State) :
    (requestOf i = none ∧ ∃ op l d r, op ≠ SeqOp.idle ∧ exec i s = accept op l d r s) ∨
    (∃ r, requestOf i = some r ∧ i.wellFormed = true ∧ exec i s = issue r s) ∨
    (i.wellFormed = false ∧ exec i s = .fault (.neverIssued i)) := by
  cases i
  case init => exact .inl ⟨rfl, .init, false, false, lutRefusal s, by decide, rfl⟩
  case clear => exact .inl ⟨rfl, .clear, false, false, stateRefusal s, by decide, rfl⟩
  case display l => exact .inl ⟨rfl, .display, l, false, stateRefusal s, by decide, rfl⟩
  case sleep => exact .inl ⟨rfl, .sleep, false, false, stateRefusal s, by decide, rfl⟩
  case getbuffer d => exact .inl ⟨rfl, .getbuffer, false, d, none, by decide, rfl⟩
  case pinWrite p l =>
    by_cases hp : p = .rst
    · exact .inr (.inl ⟨_, rfl, by simp [Instr.wellFormed, hp], by simp [exec, execPinWrite, hp]⟩)
    · exact .inr (.inr ⟨by simp [Instr.wellFormed, hp], by simp [exec, execPinWrite, hp]⟩)
  case pinRead p =>
    by_cases hp : p = .busy
    · exact .inr (.inl ⟨_, rfl, by simp [Instr.wellFormed, hp], by simp [exec, execPinRead, hp]⟩)
    · exact .inr (.inr ⟨by simp [Instr.wellFormed, hp], by simp [exec, execPinRead, hp]⟩)
  case sendCommand b =>
    by_cases hb : b ∈ panelBytes
    · exact .inr (.inl ⟨_, rfl, by simp [Instr.wellFormed, hb], by simp [exec, execSendCommand, hb]⟩)
    · exact .inr (.inr ⟨by simp [Instr.wellFormed, hb], by simp [exec, execSendCommand, hb]⟩)
  all_goals exact .inr (.inl ⟨_, rfl, rfl, rfl⟩)

/-- A running command turns every host command into a dropped write (R56, R215 check 1). -/
theorem exec_host_running {i : Instr} {s : State} (hi : requestOf i = none) (hr : s.running = true) :
    exec i s = .next s.dropWrite := by
  rcases exec_cases i s with ⟨-, op, l, d, r, -, h⟩ | ⟨r, h, -⟩ | ⟨h, -⟩
  · rw [h, accept_running hr]
  · rw [hi] at h; cases h
  · cases i <;> simp [requestOf, Instr.wellFormed] at hi h

/-- A decoded CMD byte is a host command (R75). -/
theorem requestOf_decodeHost {v : Byte} {i : Instr} (h : decodeHost v = .ok i) : requestOf i = none := by
  unfold decodeHost at h
  repeat' split at h
  all_goals first | (cases h; rfl) | simp at h

end Sys2Proof.Machine
end

