-- ==== Sys2Proof/Laws/Sequence.lean ====
section
/-! SUPPORT. What the hardwired lists hold: which micro-operations stand in them, and that each ends in END. -/

namespace Sys2Proof.Machine

/-- What every micro-operation of the lists meets: its request is one the block may issue, its stream covers a whole
block memory, and its completion code is one of RESULT's. -/
def opListed : MicroOp → Bool
  | .tinit => true
  | .tshut => true
  | .rst _ => true
  | .dly n => n == 200 || n == 10 || n == 100
  | .cmd b => panelBytes.contains b
  | .dat _ => true
  | .stream m n => n == memSize m
  | .fill _ n => n == Config.bufBytes
  | .wait => true
  | .convert _ => true
  | .finish code _ => resultCodes.contains code

/-- The micro-operation is END. -/
def opFinishes : MicroOp → Bool
  | .tinit => false
  | .tshut => false
  | .rst _ => false
  | .dly _ => false
  | .cmd _ => false
  | .dat _ => false
  | .stream _ _ => false
  | .fill _ _ => false
  | .wait => false
  | .convert _ => false
  | .finish _ _ => true

theorem listed_initOps : initOps.all opListed = true := by rfl

theorem listed_clearOps : clearOps.all opListed = true := by rfl

theorem listed_displayOps (l : Bool) : (displayOps l).all opListed = true := by cases l <;> rfl

theorem listed_sleepOps : sleepOps.all opListed = true := by rfl

theorem geometryCode_mem (s : State) : s.geometryCode ∈ resultCodes := by
  unfold State.geometryCode
  split <;> decide

theorem listed_getbufferOps (d : Bool) (s : State) :
    (getbufferOps d s.geometryCode).all opListed = true := by
  have := geometryCode_mem s
  simp [getbufferOps, opListed, this]

/-- Every micro-operation of the running list is one of the spec's (R112). -/
theorem listed_ops (s : State) : s.ops.all opListed = true := by
  unfold State.ops
  split
  · rfl
  · exact listed_initOps
  · exact listed_clearOps
  · exact listed_displayOps _
  · exact listed_sleepOps
  · exact listed_getbufferOps _ _

theorem microOp_mem {s : State} {u : MicroOp} (h : s.microOp = some u) : u ∈ s.ops := by
  unfold State.microOp at h
  split at h
  · cases h
  · exact List.mem_of_getElem? h

theorem microOp_listed {s : State} {u : MicroOp} (h : s.microOp = some u) : opListed u = true :=
  List.all_eq_true.1 (listed_ops s) u (microOp_mem h)

/-- The sequencer stands at a micro-operation only while a command runs. -/
theorem running_of_microOp {s : State} {u : MicroOp} (h : s.microOp = some u) : s.running = true := by
  rw [running_iff]
  intro hi
  have := microOp_mem h
  simp [State.ops, hi] at this

/-- The list of a running command ends in END. -/
theorem ops_last {s : State} (h : s.running = true) : ∃ c st, s.ops.getLast? = some (.finish c st) := by
  rw [running_iff] at h
  unfold State.ops
  split
  · next hi => exact absurd hi h
  · exact ⟨_, _, rfl⟩
  · exact ⟨_, _, rfl⟩
  · cases s.seqL <;> exact ⟨_, _, rfl⟩
  · exact ⟨_, _, rfl⟩
  · exact ⟨_, _, rfl⟩

/-- A micro-operation that is not END has a next one. -/
theorem microOp_next {s : State} {u : MicroOp} (h : s.microOp = some u) (hu : opFinishes u = false) :
    ∃ v, s.ops[s.seqStep]? = some v := by
  obtain ⟨c, st, hl⟩ := ops_last (running_of_microOp h)
  unfold State.microOp at h
  split at h
  · cases h
  · next n hn =>
    rw [hn]
    obtain ⟨hlt, -⟩ := List.getElem?_eq_some_iff.1 h
    rw [List.getLast?_eq_getElem?] at hl
    by_cases hlast : n + 1 < s.ops.length
    · exact ⟨_, List.getElem?_eq_getElem hlast⟩
    · have : n = s.ops.length - 1 := by omega
      subst this
      rw [h, Option.some.injEq] at hl
      subst hl
      cases hu

end Sys2Proof.Machine
end

