-- ==== Sys2Proof/Laws/Engine.lean ====
section
/-! SUPPORT. What an engine step and an answer can do, said once. -/

namespace Sys2Proof.Machine

/-- The position, the micro-operation and the engine's action depend only on the sequencer, the IMG registers and the
block memories. -/
structure SamePlace (s t : State) : Prop where
  mem : t.mem = s.mem
  seqOp : t.seqOp = s.seqOp
  seqL : t.seqL = s.seqL
  seqD : t.seqD = s.seqD
  seqStep : t.seqStep = s.seqStep
  seqI : t.seqI = s.seqI
  imgWLo : t.imgWLo = s.imgWLo
  imgWHi : t.imgWHi = s.imgWHi
  imgHLo : t.imgHLo = s.imgHLo
  imgHHi : t.imgHHi = s.imgHHi

theorem ops_congr {s t : State} (h : SamePlace s t) : t.ops = s.ops := by
  simp [State.ops, State.geometryCode, State.geometry, State.imgW, State.imgH, h.seqOp, h.seqL, h.seqD, h.imgWLo,
    h.imgWHi, h.imgHLo, h.imgHHi]

theorem microOp_congr {s t : State} (h : SamePlace s t) : t.microOp = s.microOp := by
  simp [State.microOp, ops_congr h, h.seqStep]

theorem actOf_congr {s t : State} (h : SamePlace s t) (u : MicroOp) : actOf t u = actOf s u := by
  cases u <;> simp [actOf, State.memByte, h.mem, h.seqI]

theorem engineAct_congr {s t : State} (h : SamePlace s t) : engineAct t = engineAct s := by
  simp [engineAct, microOp_congr h, actOf_congr h, h.seqStep]

theorem samePlace_popInput (s : State) : SamePlace s s.popInput := by constructor <;> rfl

theorem samePlace_setRdata (v : Option Byte) (s : State) : SamePlace s (s.setRdata v) := by constructor <;> rfl

theorem samePlace_drawRdata (s : State) : SamePlace s s.drawRdata := by constructor <;> rfl

theorem samePlace_dropWrite (s : State) : SamePlace s s.dropWrite := by constructor <;> rfl

theorem samePlace_raise (r : Request) (s : State) : SamePlace s (s.raise r) := by constructor <;> rfl

theorem samePlace_answer (r : Request) (x : Byte) (s : State) : SamePlace s (s.answer r x) := by constructor <;> rfl

theorem samePlace_setWaiting (b : Bool) (s : State) : SamePlace s (s.setWaiting b) := by constructor <;> rfl

theorem samePlace_trans {s t u : State} (h : SamePlace s t) (k : SamePlace t u) : SamePlace s u :=
  ⟨k.mem.trans h.mem, k.seqOp.trans h.seqOp, k.seqL.trans h.seqL, k.seqD.trans h.seqD, k.seqStep.trans h.seqStep,
    k.seqI.trans h.seqI, k.imgWLo.trans h.imgWLo, k.imgWHi.trans h.imgWHi, k.imgHLo.trans h.imgHLo,
    k.imgHHi.trans h.imgHHi⟩

theorem samePlace_enterWait (s : State) : SamePlace s s.enterWait := by
  unfold State.enterWait
  split <;> constructor <;> rfl

/-- The twelve panel bytes decode, each to the panel command that sends it (R87). -/
theorem decodePanel_of_mem {b : Byte} (h : b ∈ panelBytes) :
    ∃ i, decodePanel b = .ok i ∧ requestOf i = some (.sendCommand b) ∧ i.wellFormed = true := by
  simp only [panelBytes, List.mem_cons, List.not_mem_nil, or_false] at h
  rcases h with rfl | rfl | rfl | rfl | rfl | rfl | rfl | rfl | rfl | rfl | rfl | rfl <;>
    exact ⟨_, rfl, rfl, rfl⟩

/-- What the engine does at a micro-operation of the lists: it runs a well-formed instruction whose request is one the
block may issue; it converts; it ends the command; or it meets a byte that nothing has written. -/
theorem actOf_cases {s : State} {u : MicroOp} (h : opListed u = true) :
    (∃ i r, actOf s u = .ok (.run i) ∧ requestOf i = some r ∧ i.wellFormed = true ∧ requestAllowed r = true ∧
      opFinishes u = false) ∨
    (∃ k, u = .convert k ∧ actOf s u = .ok (.convert k)) ∨
    (∃ c st, u = .finish c st ∧ actOf s u = .ok (.finish c st)) ∨
    (∃ m n, u = .stream m n ∧ s.memByte m s.seqI = none ∧
      actOf s u = .error (.unwrittenByte (memBase m + s.seqI))) := by
  cases u with
  | tinit => exact .inl ⟨_, _, rfl, rfl, rfl, rfl, rfl⟩
  | tshut => exact .inl ⟨_, _, rfl, rfl, rfl, rfl, rfl⟩
  | rst l => exact .inl ⟨_, _, rfl, rfl, rfl, rfl, rfl⟩
  | dly n => exact .inl ⟨_, _, rfl, rfl, rfl, h, rfl⟩
  | cmd b =>
    obtain ⟨i, hd, hr, hw⟩ := decodePanel_of_mem (b := b) (by simpa [opListed] using h)
    exact .inl ⟨i, _, by simp [actOf, hd], hr, hw, h, rfl⟩
  | dat b => exact .inl ⟨_, _, rfl, rfl, rfl, rfl, rfl⟩
  | stream m n =>
    cases hb : s.memByte m s.seqI with
    | none => exact .inr (.inr (.inr ⟨m, n, rfl, hb, by simp [actOf, hb]⟩))
    | some b => exact .inl ⟨.sendData b, _, by simp [actOf, hb], rfl, rfl, rfl, rfl⟩
  | fill b n => exact .inl ⟨_, _, rfl, rfl, rfl, rfl, rfl⟩
  | wait =>
    by_cases hi : s.seqI = 0
    · exact .inl ⟨.pinRead .busy, _, by simp [actOf, hi], rfl, rfl, rfl, rfl⟩
    · exact .inl ⟨.delay Config.pollMs, _, by simp [actOf, hi], rfl, rfl, rfl, rfl⟩
  | convert k => exact .inr (.inl ⟨k, rfl, rfl⟩)
  | finish c st => exact .inr (.inr (.inl ⟨c, st, rfl, rfl⟩))

/-- A conversion writes a whole PanelBuffer and advances, or meets an image byte that nothing has written. -/
theorem convertStep_cases (k : Bool) (s : State) :
    (∃ bytes, convertStep k s = .next (s.writeBuf k bytes).advance ∧
      ((s.geometry = .unsupported ∧ bytes = prefill) ∨
       (s.geometry = .native ∧ ∃ img, s.image = .ok img ∧ bytes = convertNative img) ∨
       (s.geometry = .transposed ∧ ∃ img, s.image = .ok img ∧ bytes = convertTransposed img))) ∨
    (∃ a, s.image = .error a ∧ convertStep k s = .fault (.unwrittenByte a)) := by
  unfold convertStep
  split
  · next hg =>
    split
    · next a ha => exact .inr ⟨a, ha, rfl⟩
    · next img hi => exact .inl ⟨_, rfl, .inr (.inl ⟨hg, img, hi, rfl⟩)⟩
  · next hg =>
    split
    · next a ha => exact .inr ⟨a, ha, rfl⟩
    · next img hi => exact .inl ⟨_, rfl, .inr (.inr ⟨hg, img, hi, rfl⟩)⟩
  · next hg => exact .inl ⟨_, rfl, .inl ⟨hg, rfl⟩⟩

theorem length_clearPixel (buf : List Byte) (i k : Nat) : (clearPixel buf i k).length = buf.length := by
  simp [clearPixel]

theorem length_foldl_keep {α : Type} (f : List Byte → α → List Byte) (hf : ∀ b a, (f b a).length = b.length)
    (l : List α) (b : List Byte) : (l.foldl f b).length = b.length := by
  induction l generalizing b with
  | nil => rfl
  | cons a l ih => rw [List.foldl_cons, ih, hf]

theorem length_prefill : prefill.length = 2756 := List.length_replicate

/-- The converter's buffers have the PanelBuffer's length (R142). -/
theorem length_convertNative (img : List Byte) : (convertNative img).length = 2756 := by
  unfold convertNative
  rw [length_foldl_keep, length_prefill]
  intro b a
  unfold nativePixel
  split
  · rfl
  · exact length_clearPixel _ _ _

theorem length_convertTransposed (img : List Byte) : (convertTransposed img).length = 2756 := by
  unfold convertTransposed
  rw [length_foldl_keep, length_prefill]
  intro b a
  unfold transposedPixel
  split
  · rfl
  · exact length_clearPixel _ _ _

/-- An engine step with a free port, from a place inside the running list: it raises a request the block may issue; it
writes a PanelBuffer; it ends the command; or it meets a byte that nothing has written. -/
theorem engineStep_cases {s : State} {u : MicroOp} (hu : s.microOp = some u) (hp : s.port = none) :
    (∃ i r, engineAct s = .ok (.run i) ∧ requestOf i = some r ∧ requestAllowed r = true ∧ opFinishes u = false ∧
      engineStep s = .next (s.enterWait.raise r)) ∨
    (∃ k bytes, u = .convert k ∧ bytes.length = 2756 ∧ engineStep s = .next (s.writeBuf k bytes).advance) ∨
    (∃ c st, u = .finish c st ∧ engineStep s = .next (s.finish c st)) ∨
    (∃ a, memRead s.mem a = none ∧ isStored a = true ∧ engineStep s = .fault (.unwrittenByte a)) ∨
    (∃ m n, u = .stream m n ∧ s.memByte m s.seqI = none ∧
      engineStep s = .fault (.unwrittenByte (memBase m + s.seqI))) := by
  have he : engineAct s = actOf s u := by simp [engineAct, hu]
  rcases actOf_cases (s := s) (microOp_listed hu) with ⟨i, r, ha, hr, hw, hal, hf⟩ | ⟨k, rfl, ha⟩ |
      ⟨c, st, rfl, ha⟩ | ⟨m, n, rfl, hn, ha⟩
  · have hp' : s.enterWait.port = none := by rw [enterWait_eq]; exact hp
    refine .inl ⟨i, r, he.trans ha, hr, hal, hf, ?_⟩
    unfold engineStep
    rw [he, ha]
    exact exec_request hr hw hp'
  · have hs : engineStep s = convertStep k s := by unfold engineStep; rw [he, ha]
    rcases convertStep_cases k s with ⟨bytes, hb, hc⟩ | ⟨a, hi, hb⟩
    · refine .inr (.inl ⟨k, bytes, rfl, ?_, hs.trans hb⟩)
      rcases hc with ⟨-, hc⟩ | ⟨-, img, -, hc⟩ | ⟨-, img, -, hc⟩
      · rw [hc, length_prefill]
      · rw [hc, length_convertNative]
      · rw [hc, length_convertTransposed]
    · have h := memReadRun_error (m := s.mem) (n := memSize .imgMem) (a := memBase .imgMem) (e := a) hi
      obtain ⟨h1, h2, h3⟩ := h
      refine .inr (.inr (.inr (.inl ⟨a, h1, ?_, hs.trans hb⟩)))
      have hd : a - memBase .imgMem < memSize .imgMem := by omega
      have := isStored_base _ hd
      rwa [Nat.add_sub_of_le h2] at this
  · exact .inr (.inr (.inl ⟨c, st, rfl, by unfold engineStep; rw [he, ha]⟩))
  · exact .inr (.inr (.inr (.inr ⟨m, n, rfl, hn, by unfold engineStep; rw [he, ha]⟩)))

/-- An answer clears the port and enters the trace; then the sequencer stays in its micro-operation at another index,
takes the next one (leaving a WaitReady if it was in one), or, where T_INIT failed, ends the command. -/
theorem complete_cases {s : State} {u : MicroOp} (hu : s.microOp = some u) (r : Request) (x : Byte) :
    (opFinishes u = false ∧ u ≠ .wait ∧ complete r x s = (s.answer r x).advance) ∨
    (u = .wait ∧ s.seqI = 0 ∧ x.getLsbD 0 = Config.busyIdleLevel ∧
      complete r x s = ((s.answer r x).setWaiting false).advance) ∨
    (u = .wait ∧ s.seqI = 0 ∧ x.getLsbD 0 ≠ Config.busyIdleLevel ∧ complete r x s = (s.answer r x).setIndex 1) ∨
    (u = .wait ∧ s.seqI ≠ 0 ∧ complete r x s = (s.answer r x).setIndex 0) ∨
    (∃ n, ((∃ m, u = .stream m n) ∨ (∃ b, u = .fill b n)) ∧ s.seqI + 1 < n ∧
      complete r x s = (s.answer r x).setIndex (s.seqI + 1)) ∨
    (u = .tinit ∧ x ≠ 0 ∧ complete r x s = (s.answer r x).finish codeTransportInit none) ∨
    ((opFinishes u = true ∨ ∃ k, u = .convert k) ∧ complete r x s = s.answer r x) := by
  unfold complete
  rw [hu]
  cases u with
  | tinit =>
    by_cases h : x = 0
    · exact .inl ⟨rfl, by simp, by simp [afterAnswer, h]⟩
    · exact .inr (.inr (.inr (.inr (.inr (.inl ⟨rfl, h, if_neg h⟩)))))
  | tshut => exact .inl ⟨rfl, by simp, rfl⟩
  | rst l => exact .inl ⟨rfl, by simp, rfl⟩
  | dly n => exact .inl ⟨rfl, by simp, rfl⟩
  | cmd b => exact .inl ⟨rfl, by simp, rfl⟩
  | dat b => exact .inl ⟨rfl, by simp, rfl⟩
  | stream m n =>
    by_cases h : s.seqI + 1 < n
    · exact .inr (.inr (.inr (.inr (.inl ⟨n, .inl ⟨m, rfl⟩, h, by simp [afterAnswer, State.nextIndex, h]⟩))))
    · exact .inl ⟨rfl, by simp, by simp [afterAnswer, State.nextIndex, h]⟩
  | fill b n =>
    by_cases h : s.seqI + 1 < n
    · exact .inr (.inr (.inr (.inr (.inl ⟨n, .inr ⟨b, rfl⟩, h, by simp [afterAnswer, State.nextIndex, h]⟩))))
    · exact .inl ⟨rfl, by simp, by simp [afterAnswer, State.nextIndex, h]⟩
  | wait =>
    by_cases h : s.seqI = 0
    · by_cases hx : x.getLsbD 0 = Config.busyIdleLevel
      · exact .inr (.inl ⟨rfl, h, hx, by simp only [afterAnswer, State.afterWait, answer_seqI, h, hx, if_true]⟩)
      · exact .inr (.inr (.inl ⟨rfl, h, hx, by
          simp only [afterAnswer, State.afterWait, answer_seqI, h, hx, if_true, if_false]⟩))
    · exact .inr (.inr (.inr (.inl ⟨rfl, h, by simp [afterAnswer, State.afterWait, h]⟩)))
  | convert k => exact .inr (.inr (.inr (.inr (.inr (.inr ⟨.inr ⟨k, rfl⟩, rfl⟩)))))
  | finish c st => exact .inr (.inr (.inr (.inr (.inr (.inr ⟨.inl rfl, rfl⟩)))))

/-! ### WaitReady (R110) -/

/-- An engine step inside WaitReady sets WAITING and raises the poll at index 0 and the delay at index 1. -/
theorem engineStep_wait {s : State} (hm : s.microOp = some .wait) (hp : s.port = none) :
    engineStep s =
      .next ((s.setWaiting true).raise (if s.seqI = 0 then .pinRead .busy else .delay Config.pollMs)) := by
  have he : s.enterWait = s.setWaiting true := by rw [State.enterWait, if_pos hm]
  have hp' : (s.setWaiting true).port = none := hp
  have ha : engineAct s = actOf s .wait := by simp [engineAct, hm]
  unfold engineStep
  rw [ha, actOf, he]
  by_cases hi : s.seqI = 0
  · rw [if_pos hi, if_pos hi]; exact exec_request (i := .pinRead .busy) rfl rfl hp'
  · rw [if_neg hi, if_neg hi]; exact exec_request (i := .delay Config.pollMs) rfl rfl hp'

/-- The answer to a poll that reads idle leaves WaitReady. -/
theorem complete_idle {s : State} {x : Byte} (hm : s.microOp = some .wait) (hi : s.seqI = 0)
    (hx : x.getLsbD 0 = Config.busyIdleLevel) (r : Request) :
    complete r x s = ((s.answer r x).setWaiting false).advance := by
  unfold complete
  rw [hm]
  exact (if_pos hi).trans (if_pos hx)

/-- Any other answer inside WaitReady changes the index only: after a poll the delay is next, after a delay the poll. -/
theorem complete_busy {s : State} {x : Byte} (hm : s.microOp = some .wait)
    (hx : s.seqI = 0 → x.getLsbD 0 ≠ Config.busyIdleLevel) (r : Request) :
    complete r x s = (s.answer r x).setIndex (if s.seqI = 0 then 1 else 0) := by
  unfold complete
  rw [hm]
  by_cases hi : s.seqI = 0
  · rw [if_pos hi]; exact (if_pos hi).trans (if_neg (hx hi))
  · rw [if_neg hi]; exact if_neg hi

end Sys2Proof.Machine
end

