-- ==== Sys2Proof/Laws/HostBus.lean ====
section
/-! SUPPORT. What the host's part of a clock can do, said once: while a command runs, and while none does. -/

namespace Sys2Proof.Machine

/-- The host's part of a clock while a command runs: DROP, `h_rdata` and the model's counter are all it can touch. -/
structure HostTouch (s t : State) : Prop where
  eq : t = { s with drop := t.drop, hRdata := t.hRdata, draws := t.draws }

theorem hostTouch_setRdata (v : Option Byte) (s : State) : HostTouch s (s.setRdata v) := ⟨rfl⟩

theorem hostTouch_trans {s t u : State} (h : HostTouch s t) (k : HostTouch t u) : HostTouch s u := by
  refine ⟨?_⟩
  rw [k.eq, h.eq]

theorem hostTouch_drawRdata (s : State) : HostTouch s s.drawRdata := ⟨rfl⟩

theorem hostTouch_dropWrite (s : State) : HostTouch s s.dropWrite := ⟨rfl⟩

theorem hostTouch_refl (s : State) : HostTouch s s := ⟨rfl⟩

theorem hostTouch_readBeside (re : Bool) (s : State) : HostTouch s (readBeside re s) := by
  unfold readBeside
  split
  · exact hostTouch_drawRdata s
  · exact hostTouch_refl s

theorem hostTouch_running {s t : State} (h : HostTouch s t) : t.running = s.running := by rw [h.eq]; rfl

/-- A read changes `h_rdata` and the counter only, or meets a byte that nothing has written. -/
theorem hostRead_cases (a : Addr) (s : State) :
    (∃ b, readTarget s (target a) = .value b ∧ hostRead a s = .next (s.setRdata (some b))) ∨
    (readTarget s (target a) = .anyValue ∧ hostRead a s = .next s.drawRdata) ∨
    (∃ k, readTarget s (target a) = .unwritten k ∧ hostRead a s = .fault (.unwrittenByte k)) := by
  unfold hostRead
  split
  · next b h => exact .inl ⟨b, h, rfl⟩
  · next h => exact .inr (.inl ⟨h, rfl⟩)
  · next k h => exact .inr (.inr ⟨k, h, rfl⟩)

theorem hostRead_touch {a : Addr} {s t : State} (h : hostRead a s = .next t) : HostTouch s t := by
  rcases hostRead_cases a s with ⟨b, -, hb⟩ | ⟨-, hb⟩ | ⟨k, -, hb⟩ <;> rw [hb] at h
  · obtain rfl : s.setRdata (some b) = t := by simpa using h
    exact hostTouch_setRdata _ s
  · obtain rfl : s.drawRdata = t := by simpa using h
    exact hostTouch_drawRdata s
  · cases h

theorem inMem_iff {m : BlockMem} {a : Nat} : inMem m a = true ↔ memBase m ≤ a ∧ a < memBase m + memSize m := by
  rw [inMem, Bool.and_eq_true, decide_eq_true_iff, decide_eq_true_iff]

/-- A cell of the address map lies in its memory (R50). -/
theorem target_cell {a : Addr} {m : BlockMem} {i : Nat} (h : target a = .cell m i) :
    i < memSize m ∧ a.toNat = memBase m + i := by
  have key : ∀ k, inMem k a.toNat = true → cellAt k a.toNat = .cell m i → i < memSize m ∧ a.toNat = memBase m + i := by
    intro k hk hc
    rw [inMem_iff] at hk
    simp only [cellAt, Target.cell.injEq] at hc
    obtain ⟨rfl, rfl⟩ := hc
    omega
  have hreg : ∀ n, registerAt n ≠ .cell m i := by
    intro n
    unfold registerAt
    split <;> simp
  unfold target at h
  by_cases h1 : inMem .lutMem a.toNat = true
  · rw [if_pos h1] at h; exact key _ h1 h
  · by_cases h2 : inMem .buf0 a.toNat = true
    · rw [if_neg h1, if_pos h2] at h; exact key _ h2 h
    · by_cases h3 : inMem .buf1 a.toNat = true
      · rw [if_neg h1, if_neg h2, if_pos h3] at h; exact key _ h3 h
      · by_cases h4 : inMem .imgMem a.toNat = true
        · rw [if_neg h1, if_neg h2, if_neg h3, if_pos h4] at h; exact key _ h4 h
        · rw [if_neg h1, if_neg h2, if_neg h3, if_neg h4] at h; exact absurd h (hreg _)

/-- A CMD write while a command runs is dropped (R56). -/
theorem writeCmd_running {v : Byte} {s : State} (hr : s.running = true) : writeCmd v s = .next s.dropWrite := by
  unfold writeCmd
  split
  · next i h => exact exec_host_running (requestOf_decodeHost h) hr
  · simp [illegalCmd, hr]

/-- A write while a command runs is dropped or ignored (R51, R56). -/
theorem hostWrite_running {a : Addr} {v : Byte} {s : State} (hr : s.running = true) :
    hostWrite a v s = .next s.dropWrite ∨ hostWrite a v s = .next s := by
  unfold hostWrite writeTarget
  split
  · exact .inl (writeCmd_running hr)
  · exact .inr rfl
  · exact .inr rfl
  all_goals first | exact .inr rfl | exact .inl (by simp [writeOrDrop, hr])

theorem hostClock_touch {c : ClockIn} {s t : State} (hr : s.running = true) (h : hostClock c s = .next t) :
    HostTouch s t := by
  unfold hostClock at h
  split at h
  · have h0 := hostTouch_trans (hostTouch_setRdata none s) (hostTouch_readBeside c.hRe _)
    have hr' : (readBeside c.hRe (s.setRdata none)).running = true := (hostTouch_running h0).trans hr
    rcases hostWrite_running (a := c.hAddr) (v := c.hWdata) hr' with e | e <;> rw [e] at h
    · obtain rfl := by simpa using h
      exact hostTouch_trans h0 (hostTouch_dropWrite _)
    · obtain rfl := by simpa using h
      exact h0
  · split at h
    · exact hostTouch_trans (hostTouch_setRdata none s) (hostRead_touch h)
    · obtain rfl := by simpa using h
      exact hostTouch_setRdata none s

/-- What a host write can do while no command runs. -/
inductive IdleWrite (s : State) : State → Prop where
  /-- ignored (R51) -/
  | ignored : IdleWrite s s
  /-- a register takes the byte -/
  | lutLen (v : Byte) : IdleWrite s { s with lutLen := v }
  | imgWLo (v : Byte) : IdleWrite s { s with imgWLo := v }
  | imgWHi (v : Byte) : IdleWrite s { s with imgWHi := v }
  | imgHLo (v : Byte) : IdleWrite s { s with imgHLo := v }
  | imgHHi (v : Byte) : IdleWrite s { s with imgHHi := v }
  /-- a block memory takes the byte -/
  | cell (m : BlockMem) (i : Nat) (v : Byte) (h : i < memSize m) :
    IdleWrite s (s.setMem (memWrite s.mem (memBase m + i) v))
  /-- a command byte is turned away (R211 to R213) -/
  | rejected (c : Byte) (h : c ∈ resultCodes) : IdleWrite s (s.reject c)
  /-- a command starts, its checks passed (R215) -/
  | started (op : SeqOp) (l d : Bool) (hop : op ≠ .idle) (hl : l = true → op = .display)
    (hd : d = true → op = .getbuffer) (hlut : op = .init → s.lutLen = 30)
    (hst : op = .clear ∨ op = .display ∨ op = .sleep → s.lifecycle = .ready) :
    IdleWrite s (s.start op l d)

theorem writeCmd_idle {v : Byte} {s : State} (hr : s.running = false) :
    ∃ t, writeCmd v s = .next t ∧ IdleWrite s t := by
  unfold writeCmd
  split
  · next i h =>
    have hq := requestOf_decodeHost h
    cases i <;> simp only [requestOf, reduceCtorEq] at hq
    case init =>
      by_cases hl : s.lutLen = 30
      · exact ⟨_, by simp only [exec, execInit, lutRefusal, hl, if_true]; exact accept_started hr,
          .started .init false false (by decide) (by decide) (by decide) (fun _ => hl) (by simp)⟩
      · exact ⟨_, by simp only [exec, execInit, lutRefusal, hl, if_false]; exact accept_refused hr,
          .rejected _ (by decide)⟩
    case getbuffer d =>
      exact ⟨_, accept_started hr,
        .started .getbuffer false d (by decide) (by decide) (fun _ => rfl) (by simp) (by simp)⟩
    case clear =>
      by_cases hl : s.lifecycle = .ready
      · exact ⟨_, by simp only [exec, execClear, stateRefusal, hl, if_true]; exact accept_started hr,
          .started .clear false false (by decide) (by decide) (by decide) (by simp) (fun _ => hl)⟩
      · exact ⟨_, by simp only [exec, execClear, stateRefusal, hl, if_false]; exact accept_refused hr,
          .rejected _ (by decide)⟩
    case display l =>
      by_cases hl : s.lifecycle = .ready
      · exact ⟨_, by simp only [exec, execDisplay, stateRefusal, hl, if_true]; exact accept_started hr,
          .started .display l false (by decide) (fun _ => rfl) (by decide) (by simp) (fun _ => hl)⟩
      · exact ⟨_, by simp only [exec, execDisplay, stateRefusal, hl, if_false]; exact accept_refused hr,
          .rejected _ (by decide)⟩
    case sleep =>
      by_cases hl : s.lifecycle = .ready
      · exact ⟨_, by simp only [exec, execSleep, stateRefusal, hl, if_true]; exact accept_started hr,
          .started .sleep false false (by decide) (by decide) (by decide) (by simp) (fun _ => hl)⟩
      · exact ⟨_, by simp only [exec, execSleep, stateRefusal, hl, if_false]; exact accept_refused hr,
          .rejected _ (by decide)⟩
  · exact ⟨s.reject codeIllegal, by simp [illegalCmd, hr], .rejected _ (by decide)⟩

theorem hostWrite_idle {a : Addr} {v : Byte} {s : State} (hr : s.running = false) :
    ∃ t, hostWrite a v s = .next t ∧ IdleWrite s t := by
  unfold hostWrite
  generalize ht : target a = g
  cases g with
  | cmd => exact writeCmd_idle hr
  | status => exact ⟨_, rfl, .ignored⟩
  | result => exact ⟨_, rfl, .ignored⟩
  | lutLen => exact ⟨_, by simp [writeTarget, writeOrDrop, hr], .lutLen v⟩
  | imgWLo => exact ⟨_, by simp [writeTarget, writeOrDrop, hr], .imgWLo v⟩
  | imgWHi => exact ⟨_, by simp [writeTarget, writeOrDrop, hr], .imgWHi v⟩
  | imgHLo => exact ⟨_, by simp [writeTarget, writeOrDrop, hr], .imgHLo v⟩
  | imgHHi => exact ⟨_, by simp [writeTarget, writeOrDrop, hr], .imgHHi v⟩
  | cell m i => exact ⟨_, by simp [writeTarget, writeOrDrop, hr], .cell m i v (target_cell ht).1⟩
  | reserved => exact ⟨_, rfl, .ignored⟩

/-- The host's part of a clock while no command runs: a write, after `h_rdata` and the counter alone have changed. -/
theorem hostClock_idle {c : ClockIn} {s t : State} (hr : s.running = false) (h : hostClock c s = .next t) :
    ∃ s', HostTouch s s' ∧ IdleWrite s' t := by
  unfold hostClock at h
  split at h
  · have h0 := hostTouch_trans (hostTouch_setRdata none s) (hostTouch_readBeside c.hRe _)
    obtain ⟨u, hu, hw⟩ := hostWrite_idle (a := c.hAddr) (v := c.hWdata) ((hostTouch_running h0).trans hr)
    rw [hu] at h
    obtain rfl : u = t := by simpa using h
    exact ⟨_, h0, hw⟩
  · split at h
    · exact ⟨t, hostTouch_trans (hostTouch_setRdata none s) (hostRead_touch h), .ignored⟩
    · obtain rfl := by simpa using h
      exact ⟨_, hostTouch_setRdata none s, .ignored⟩

/-- The host's part of a clock stops only where the host reads a byte of a block memory that nothing has written. -/
theorem hostClock_fault {c : ClockIn} {s : State} {f : Fault} (h : hostClock c s = .fault f) :
    ∃ a, f = .unwrittenByte a ∧ memRead s.mem a = none ∧ isStored a = true := by
  unfold hostClock at h
  split at h
  · by_cases hr : (readBeside c.hRe (s.setRdata none)).running = true
    · rcases hostWrite_running (a := c.hAddr) (v := c.hWdata) hr with e | e <;> rw [e] at h <;> cases h
    · obtain ⟨u, hu, -⟩ := hostWrite_idle (a := c.hAddr) (v := c.hWdata) (by simpa using hr)
      rw [hu] at h
      cases h
  · split at h
    · rcases hostRead_cases c.hAddr (s.setRdata none) with ⟨b, -, hb⟩ | ⟨-, hb⟩ | ⟨k, hk, hb⟩ <;> rw [hb] at h
      · cases h
      · cases h
      · obtain rfl : Fault.unwrittenByte k = f := by simpa using h
        refine ⟨k, rfl, ?_⟩
        cases ht : target c.hAddr <;> rw [ht] at hk <;> simp only [readTarget, reduceCtorEq] at hk
        next m i =>
          unfold readCell at hk
          split at hk
          · cases hk
          · split at hk
            · cases hk
            · next hn =>
              obtain rfl : memBase m + i = k := by simpa using hk
              exact ⟨hn, isStored_base m (target_cell ht).1⟩
    · cases h

theorem hostClock_not_refused (c : ClockIn) (s : State) (q : Refusal) : hostClock c s ≠ .refused q := by
  intro h
  unfold hostClock at h
  split at h
  · by_cases hr : (readBeside c.hRe (s.setRdata none)).running = true
    · rcases hostWrite_running (a := c.hAddr) (v := c.hWdata) hr with e | e <;> rw [e] at h <;> cases h
    · obtain ⟨u, hu, -⟩ := hostWrite_idle (a := c.hAddr) (v := c.hWdata) (by simpa using hr)
      rw [hu] at h
      cases h
  · split at h
    · rcases hostRead_cases c.hAddr (s.setRdata none) with ⟨b, -, hb⟩ | ⟨-, hb⟩ | ⟨k, hk, hb⟩ <;>
        rw [hb] at h <;> cases h
    · cases h

end Sys2Proof.Machine
end

