-- ==== Sys2Proof/Laws/Clock.lean ====
section
/-! SUPPORT. What one clock, and so one step, can do, said once. -/

namespace Sys2Proof.Machine

theorem step_eq (s : State) : step s = clock s.nextInput s.popInput := rfl

theorem clock_reset {c : ClockIn} {s : State} (h : c.rst = true) : clock c s = .next s.blockReset := by
  simp [clock, h]

/-- A clock is block reset; or the host's part alone, where no command ran; or the host's part and then the engine's. -/
theorem clock_cases {c : ClockIn} {s t : State} (h : clock c s = .next t) :
    (c.rst = true ∧ t = s.blockReset) ∨
    (c.rst = false ∧ s.running = false ∧ hostClock c s = .next t) ∨
    (c.rst = false ∧ s.running = true ∧ ∃ u, hostClock c s = .next u ∧ engineClock c u = .next t) := by
  unfold clock at h
  split at h
  · next hr => exact .inl ⟨hr, by simpa using h.symm⟩
  · next hr =>
    simp only [Bool.not_eq_true] at hr
    cases hh : hostClock c s with
    | next u =>
      rw [hh] at h
      cases hs : s.running with
      | false => exact .inr (.inl ⟨hr, rfl, by simpa [andThen, engineIf, hs] using h⟩)
      | true => exact .inr (.inr ⟨hr, rfl, u, rfl, by simpa [andThen, engineIf, hs] using h⟩)
    | fault f => rw [hh] at h; cases h
    | refused q => rw [hh] at h; cases h

/-- The engine's part of a clock: it holds, takes an answer, or takes a step. -/
theorem engineClock_cases (c : ClockIn) (s : State) :
    (engineClock c s = .next s) ∨
    (∃ r, s.port = some r ∧ c.tDone = true ∧ engineClock c s = .next (complete r c.tRsp s)) ∨
    (s.port = none ∧ c.tick = true ∧ engineClock c s = engineStep s) := by
  unfold engineClock
  split
  · next r hp =>
    cases hd : c.tDone with
    | false => exact .inl rfl
    | true => exact .inr (.inl ⟨r, hp, rfl, rfl⟩)
  · next hp =>
    cases ht : c.tick with
    | false => exact .inl rfl
    | true => exact .inr (.inr ⟨hp, rfl, rfl⟩)

/-- The host's touch does not move the sequencer. -/
theorem samePlace_hostTouch {s t : State} (h : HostTouch s t) : SamePlace s t := by
  rw [h.eq]
  constructor <;> rfl

/-- A clock of a running command without block reset: after the host's touch the engine holds, takes the answer to the
outstanding request, or takes a step with none outstanding. -/
theorem clock_running_cases {c : ClockIn} {s t : State} (hr : s.running = true) (h0 : c.rst = false)
    (h : clock c s = .next t) :
    ∃ v, HostTouch s v ∧
      (((if s.port.isSome then c.tDone else c.tick) = false ∧ t = v) ∨
       (∃ r, s.port = some r ∧ c.tDone = true ∧ t = complete r c.tRsp v) ∨
       (s.port = none ∧ c.tick = true ∧ engineStep v = .next t)) := by
  rcases clock_cases h with ⟨h1, -⟩ | ⟨-, h1, -⟩ | ⟨-, -, v, hv, he⟩
  · rw [h0] at h1; cases h1
  · rw [hr] at h1; cases h1
  · have ht := hostClock_touch hr hv
    have hp : v.port = s.port := by rw [ht.eq]
    refine ⟨v, ht, ?_⟩
    unfold engineClock at he
    rw [hp] at he
    cases hs : s.port with
    | some r =>
      rw [hs] at he
      cases hd : c.tDone <;> rw [hd] at he
      · exact .inl ⟨rfl, by simpa using he.symm⟩
      · exact .inr (.inl ⟨r, rfl, rfl, by simpa using he.symm⟩)
    | none =>
      rw [hs] at he
      cases hd : c.tick <;> rw [hd] at he
      · exact .inl ⟨rfl, by simpa using he.symm⟩
      · exact .inr (.inr ⟨rfl, rfl, he⟩)

end Sys2Proof.Machine
end

