-- ==== Sys2Proof/Laws/HostProgram.lean ====
section
/-! SUPPORT. What a clock of a host program's run does, and how runs in unending environments go on from one clock to the
next. -/

namespace Sys2Proof.Machine

/-! ### A beat's inputs -/

@[simp] theorem join_rst (b : Beat) (c : ClockIn) : (b.join c).rst = c.rst := rfl

@[simp] theorem join_hWe (b : Beat) (c : ClockIn) : (b.join c).hWe = c.hWe := rfl

@[simp] theorem join_hRe (b : Beat) (c : ClockIn) : (b.join c).hRe = c.hRe := rfl

@[simp] theorem join_hAddr (b : Beat) (c : ClockIn) : (b.join c).hAddr = c.hAddr := rfl

@[simp] theorem join_hWdata (b : Beat) (c : ClockIn) : (b.join c).hWdata = c.hWdata := rfl

@[simp] theorem join_tDone (b : Beat) (c : ClockIn) : (b.join c).tDone = b.tDone := rfl

@[simp] theorem join_tRsp (b : Beat) (c : ClockIn) : (b.join c).tRsp = b.tRsp := rfl

@[simp] theorem join_tick (b : Beat) (c : ClockIn) : (b.join c).tick = b.tick := rfl

/-! ### What the host sees over a clock -/

/-- An answer leaves `h_rdata`, DROP and the model's counter. -/
theorem complete_hostSide (r : Request) (x : Byte) (s : State) :
    (complete r x s).hRdata = s.hRdata ∧ (complete r x s).drop = s.drop ∧ (complete r x s).draws = s.draws := by
  unfold complete
  split
  · exact ⟨rfl, rfl, rfl⟩
  · next u _ =>
    cases u <;> simp only [afterAnswer, State.nextIndex, State.afterWait] <;> (repeat' split) <;> exact ⟨rfl, rfl, rfl⟩

/-- The engine's part of a clock leaves `h_rdata`, DROP and the model's counter. -/
theorem engineClock_hostSide {c : ClockIn} {s t : State} (h : engineClock c s = .next t) :
    t.hRdata = s.hRdata ∧ t.drop = s.drop ∧ t.draws = s.draws := by
  rcases engineClock_cases c s with e | ⟨r, -, -, e⟩ | ⟨hp, -, e⟩ <;> rw [e] at h
  · cases h; exact ⟨rfl, rfl, rfl⟩
  · cases h; exact complete_hostSide r _ s
  · cases hm : s.microOp with
    | none => simp [engineStep, engineAct, hm] at h
    | some u =>
      rcases engineStep_cases hm hp with ⟨i, r, -, -, -, -, e2⟩ | ⟨k, b, -, -, e2⟩ | ⟨c', st, -, e2⟩ | ⟨a, -, -, e2⟩ |
        ⟨m, n, -, -, e2⟩ <;> rw [e2] at h <;> cases h
      · rw [enterWait_eq]; exact ⟨rfl, rfl, rfl⟩
      · exact ⟨rfl, rfl, rfl⟩
      · exact ⟨rfl, rfl, rfl⟩

theorem idleWrite_hRdata {s t : State} (h : IdleWrite s t) : t.hRdata = s.hRdata := by cases h <;> rfl

/-- A host write leaves `h_rdata`. -/
theorem hostWrite_hRdata {a : Addr} {v : Byte} {s t : State} (h : hostWrite a v s = .next t) : t.hRdata = s.hRdata := by
  cases hr : s.running with
  | true => rcases hostWrite_running (a := a) (v := v) hr with e | e <;> rw [e] at h <;> cases h <;> rfl
  | false =>
    obtain ⟨u, hu, hi⟩ := hostWrite_idle (a := a) (v := v) hr
    rw [hu] at h
    cases h
    exact idleWrite_hRdata hi

/-- A clock without block reset is the host's part, and then at most the engine's, which leaves `h_rdata`. -/
theorem clock_hRdata {c : ClockIn} {s t : State} (h0 : c.rst = false) (h : clock c s = .next t) :
    ∃ u, hostClock c s = .next u ∧ t.hRdata = u.hRdata := by
  rcases clock_cases h with ⟨h1, -⟩ | ⟨-, -, h1⟩ | ⟨-, -, u, hu, he⟩
  · rw [h0] at h1; cases h1
  · exact ⟨t, h1, rfl⟩
  · exact ⟨u, hu, (engineClock_hostSide he).1⟩

/-- After a clock with a write alone, or with no access, `h_rdata` is not valid. -/
theorem clock_hRdata_none {c : ClockIn} {s t : State} (h0 : c.rst = false) (hr : c.hRe = false)
    (h : clock c s = .next t) : t.hRdata = none := by
  obtain ⟨u, hu, ht⟩ := clock_hRdata h0 h
  rw [ht]
  unfold hostClock at hu
  rw [hr] at hu
  split at hu
  · exact (hostWrite_hRdata hu).trans rfl
  · cases hu; rfl

/-- After a clock with a read alone `h_rdata` holds a byte. -/
theorem clock_hRdata_some {c : ClockIn} {s t : State} (h0 : c.rst = false) (hw : c.hWe = false) (hr : c.hRe = true)
    (h : clock c s = .next t) : ∃ x, t.hRdata = some x := by
  obtain ⟨u, hu, ht⟩ := clock_hRdata h0 h
  rw [ht]
  unfold hostClock at hu
  rw [hr, hw] at hu
  simp only [Bool.false_eq_true, if_false, if_true] at hu
  rcases hostRead_cases c.hAddr (s.setRdata none) with ⟨b, -, e⟩ | ⟨-, e⟩ | ⟨k, -, e⟩ <;> rw [e] at hu <;> cases hu
  · exact ⟨b, rfl⟩
  · exact ⟨_, rfl⟩

/-! ### Programs -/

/-- A clock of a program's run is the block's clock with the run's inputs. -/
theorem hostRun_clock_next {b : Beat} {r : HostRun} {t : State} (h : clock (r.input b) r.block = .next t) :
    r.clock b = .next (r.take b t) := by
  unfold HostRun.clock
  rw [h]

/-- A run goes on exactly where the block does, and its block is the block's next state. -/
theorem hostRun_clock_cases {b : Beat} {r u : HostRun} (h : r.clock b = .next u) :
    clock (r.input b) r.block = .next u.block ∧ u = r.take b u.block := by
  unfold HostRun.clock at h
  split at h
  · next t ht =>
    cases h
    have : (r.take b t).block = t := by unfold HostRun.take; split <;> rfl
    exact ⟨by rw [this]; exact ht, by rw [this]⟩
  · cases h
  · cases h

theorem runProgram_succ {beats : Nat → Beat} {n : Nat} {r u : HostRun} (h : runProgram beats n r = .next u) :
    runProgram beats (n + 1) r = u.clock (beats n) := by simp [runProgram, h]

theorem runProgram_succ_inv {beats : Nat → Beat} {n : Nat} {r u : HostRun} (h : runProgram beats (n + 1) r = .next u) :
    ∃ w, runProgram beats n r = .next w ∧ w.clock (beats n) = .next u := by
  unfold runProgram at h
  split at h
  · next w hw => exact ⟨w, hw, h⟩
  · cases h
  · cases h

/-! ### Unending environments -/

theorem runEnv_succ {env : Nat → ClockIn} {n : Nat} {s t : State} (h : runEnv env n s = .next t) :
    runEnv env (n + 1) s = clock (env n) t := by simp [runEnv, h, andThen]

theorem runEnv_succ_inv {env : Nat → ClockIn} {n : Nat} {s u : State} (h : runEnv env (n + 1) s = .next u) :
    ∃ t, runEnv env n s = .next t ∧ clock (env n) t = .next u := by
  unfold runEnv andThen at h
  split at h
  · next t ht => exact ⟨t, ht, h⟩
  · cases h
  · cases h

/-- A clock that a never stopping run takes has the next state of the run. -/
theorem neverStops_next {env : Nat → ClockIn} {s t : State} {n : Nat} (h : NeverStops env s)
    (ht : runEnv env n s = .next t) : ∃ u, clock (env n) t = .next u ∧ runEnv env (n + 1) s = .next u := by
  obtain ⟨u, hu⟩ := h (n + 1)
  exact ⟨u, (runEnv_succ ht).symm.trans hu, hu⟩

end Sys2Proof.Machine
end

