-- ==== Sys2Proof/Laws/PerInstr.lean ====
section
/-! SUPPORT. The per-instruction families: the code of each instruction stands in the place its format names. -/

namespace Sys2Proof.Laws.CodeFormat

/-- Where a code stands. -/
def place : Code → Format
  | .host _ => .hostCmd
  | .panel _ => .panelCmd
  | .request _ _ => .transportReq

/-- The code of an instruction stands where its row's format says (R70, R80, R86). -/
def Statement (i : Instr) : Prop := place (encode i) = i.format

theorem init : Statement .init := rfl

theorem clear : Statement .clear := rfl

theorem display (l : Bool) : Statement (.display l) := rfl

theorem sleep : Statement .sleep := rfl

theorem getbuffer (d : Bool) : Statement (.getbuffer d) := rfl

theorem boosterSoftStart : Statement .boosterSoftStart := rfl

theorem powerOn : Statement .powerOn := rfl

theorem panelSettings : Statement .panelSettings := rfl

theorem vcomDataInterval : Statement .vcomDataInterval := rfl

theorem resolution : Statement .resolution := rfl

theorem lutWrite : Statement .lutWrite := rfl

theorem blackDataStart : Statement .blackDataStart := rfl

theorem redDataStart : Statement .redDataStart := rfl

theorem dataStop : Statement .dataStop := rfl

theorem refresh : Statement .refresh := rfl

theorem powerOff : Statement .powerOff := rfl

theorem deepSleep : Statement .deepSleep := rfl

theorem tInit : Statement .tInit := rfl

theorem tShutdown : Statement .tShutdown := rfl

theorem pinWrite (p : Pin) (level : Bool) : Statement (.pinWrite p level) := rfl

theorem pinRead (p : Pin) : Statement (.pinRead p) := rfl

theorem delay (ms : Arg) : Statement (.delay ms) := rfl

theorem sendCommand (b : Byte) : Statement (.sendCommand b) := rfl

theorem sendData (b : Byte) : Statement (.sendData b) := rfl

end Sys2Proof.Laws.CodeFormat
end

