-- ==== Sys2Proof/Laws/Progress.lean ====
section
/-! SUPPORT. How far a running command is from its end, and what one clock of it can do to that, said once. -/

namespace Sys2Proof.Machine

/-- What is left of a running command: the micro-operations of its list that are not done, and of the one it stands at
the bytes that are not answered. The two indexes of a WaitReady count as one. -/
def State.remaining (s : State) : Nat :=
  (s.ops.length - s.seqStep) * 4000 + (4000 - if s.microOp = some .wait then 0 else s.seqI)

theorem remaining_congr {s t : State} (h : SamePlace s t) : t.remaining = s.remaining := by
  simp [State.remaining, ops_congr h, microOp_congr h, h.seqStep, h.seqI]

/-- SEQ.I stays below what a micro-operation counts for. -/
theorem index_lt {s : State} {u : MicroOp} (hu : s.microOp = some u) (hi : indexOk s.seqI u = true) :
    s.seqI < 4000 := by
  have hl := microOp_listed hu
  cases u with
  | stream m n =>
    have hn : n = memSize m := by simpa [opListed] using hl
    have : s.seqI < n := by simpa [indexOk] using hi
    have : memSize m ≤ 2756 := by cases m <;> decide
    omega
  | fill b n =>
    have hn : n = 2756 := by simpa [opListed, Config.bufBytes] using hl
    have : s.seqI < n := by simpa [indexOk] using hi
    omega
  | _ => simp [indexOk] at hi; omega

/-- The next micro-operation is nearer to the end. -/
theorem remaining_advance {s t : State} {u : MicroOp} (hu : s.microOp = some u) (hf : opFinishes u = false)
    (hi : indexOk s.seqI u = true) (ho : t.ops = s.ops) (hs : t.seqStep = s.seqStep + 1) (h0 : t.seqI = 0) :
    t.remaining < s.remaining := by
  obtain ⟨v, hv⟩ := microOp_next hu hf
  obtain ⟨hlt, -⟩ := List.getElem?_eq_some_iff.1 hv
  have h1 := index_lt hu hi
  have h2 : (if s.microOp = some .wait then 0 else s.seqI) < 4000 := by split <;> omega
  have h3 : (if t.microOp = some .wait then 0 else t.seqI) = 0 := by split <;> simp [h0]
  unfold State.remaining
  rw [ho, hs, h3]
  omega

/-- A later byte of the same stream or fill is nearer to the end. -/
theorem remaining_index {s t : State} {u : MicroOp} (hu : s.microOp = some u) (hw : u ≠ .wait)
    (hi : indexOk s.seqI u = true) (ho : t.ops = s.ops) (hm : t.microOp = s.microOp) (hs : t.seqStep = s.seqStep)
    (h1 : t.seqI = s.seqI + 1) : t.remaining < s.remaining := by
  have := index_lt hu hi
  unfold State.remaining
  rw [ho, hs, hm, hu, h1]
  simp only [Option.some.injEq, hw, if_false]
  omega

/-- What one clock of a running command without block reset does. -/
inductive Progress (c : ClockIn) (s t : State) : Prop where
  /-- nothing: its request is not answered, or its engine does not step -/
  | held (h : (if s.port.isSome then c.tDone else c.tick) = false) (place : SamePlace s t) (port : t.port = s.port)
      (waiting : t.waiting = s.waiting)
  /-- it issues a request; inside a WaitReady, the poll or the delay, with WAITING at 1 -/
  | raised (free : s.port = none) (tick : c.tick = true) (place : SamePlace s t) (port : t.port ≠ none)
      (waits : s.microOp = some .wait → t.waiting = true ∧
        t.port = some (if s.seqI = 0 then .pinRead .busy else .delay Config.pollMs))
  /-- it takes an answer inside a WaitReady that goes on -/
  | polled (out : s.port ≠ none) (done : c.tDone = true) (inside : s.microOp = some .wait) (stays : t.microOp = some .wait)
      (remaining : t.remaining = s.remaining) (port : t.port = none) (index : t.seqI = if s.seqI = 0 then 1 else 0)
      (waiting : t.waiting = s.waiting)
  /-- it comes nearer to its end -/
  | nearer (running : t.running = true) (port : t.port = none) (remaining : t.remaining < s.remaining)
  /-- it ends -/
  | ended (quiescent : Quiescent t)

theorem progress_congr {c : ClockIn} {s v t : State} (hp : SamePlace s v) (h1 : v.port = s.port)
    (h2 : v.waiting = s.waiting) (h : Progress c v t) : Progress c s t := by
  cases h with
  | held h a b d => exact .held (by rw [← h1]; exact h) (samePlace_trans hp a) (b.trans h1) (d.trans h2)
  | raised f k a b d => exact .raised (h1 ▸ f) k (samePlace_trans hp a) b (by rw [← microOp_congr hp, ← hp.seqI]; exact d)
  | polled o d i m r p x w =>
    exact .polled (h1 ▸ o) d (microOp_congr hp ▸ i) m (r.trans (remaining_congr hp)) p (by rw [← hp.seqI]; exact x) (w.trans h2)
  | nearer r p k => exact .nearer r p (by rw [← remaining_congr hp]; exact k)
  | ended q => exact .ended q

/-- An answer to a request that the running list issued where it stands. -/
theorem progress_complete {c : ClockIn} {s : State} {u : MicroOp} {r : Request} {i : Instr} (hu : s.microOp = some u)
    (hi : indexOk s.seqI u = true) (hp : s.port = some r) (ha : engineAct s = .ok (.run i)) (hd : c.tDone = true) :
    Progress c s (complete r c.tRsp s) := by
  have hr := running_of_microOp hu
  have po : s.port ≠ none := by rw [hp]; exact Option.some_ne_none r
  rcases complete_cases hu r c.tRsp with ⟨hf, hw, he⟩ | ⟨rfl, h0, hx, he⟩ | ⟨rfl, h0, hx, he⟩ | ⟨rfl, h0, he⟩ |
      ⟨n, hn, hlt, he⟩ | ⟨rfl, hx, he⟩ | ⟨hf, he⟩ <;> rw [he]
  · exact .nearer hr rfl (remaining_advance hu hf hi rfl rfl rfl)
  · exact .nearer hr rfl (remaining_advance hu rfl hi rfl rfl rfl)
  · have hm : ((s.answer r c.tRsp).setIndex 1).microOp = some .wait := hu
    exact .polled po hd hu hm (by rw [State.remaining, State.remaining, hm, hu]; rfl) rfl (by rw [if_pos h0]; rfl) rfl
  · have hm : ((s.answer r c.tRsp).setIndex 0).microOp = some .wait := hu
    exact .polled po hd hu hm (by rw [State.remaining, State.remaining, hm, hu]; rfl) rfl (by rw [if_neg h0]; rfl) rfl
  · refine .nearer hr rfl (remaining_index hu ?_ hi rfl rfl rfl rfl)
    rcases hn with ⟨m, rfl⟩ | ⟨b, rfl⟩ <;> exact nofun
  · exact .ended ⟨rfl, rfl⟩
  · exfalso
    rw [engineAct, hu] at ha
    rcases hf with hf | ⟨k, rfl⟩
    · cases u <;> cases hf; cases ha
    · cases ha

/-- An engine step with no request outstanding. -/
theorem progress_engineStep {c : ClockIn} {s t : State} {u : MicroOp} (hu : s.microOp = some u)
    (hi : indexOk s.seqI u = true) (hp : s.port = none) (hk : c.tick = true) (h : engineStep s = .next t) :
    Progress c s t := by
  rcases engineStep_cases hu hp with ⟨i, r, -, -, -, -, he⟩ | ⟨k, bytes, rfl, -, he⟩ | ⟨d, st, rfl, he⟩ |
      ⟨a, -, -, he⟩ | ⟨m, n, rfl, -, he⟩
  · refine .raised hp hk ?_ ?_ fun hm => ?_
    · rw [he] at h; cases h; exact samePlace_trans (samePlace_enterWait s) (samePlace_raise _ _)
    · rw [he] at h; cases h; exact Option.some_ne_none r
    · rw [engineStep_wait hm hp] at h; cases h; exact ⟨rfl, rfl⟩
  · rw [he] at h; cases h
    exact .nearer (running_of_microOp (s := s) hu) hp (remaining_advance hu rfl hi rfl rfl rfl)
  · rw [he] at h; cases h; exact .ended ⟨rfl, hp⟩
  · rw [he] at h; cases h
  · rw [he] at h; cases h

/-- One clock of a running command, from a state of the invariant and without block reset. -/
theorem clock_progress {c : ClockIn} {s t : State} (hi : s.Inv) (hr : s.running = true) (h0 : c.rst = false)
    (h : clock c s = .next t) : Progress c s t := by
  obtain ⟨v, hv, hc⟩ := clock_running_cases hr h0 h
  have pl := samePlace_hostTouch hv
  have hp : v.port = s.port := by rw [hv.eq]
  have hw : v.waiting = s.waiting := by rw [hv.eq]
  obtain ⟨u, hu, hx⟩ := hi.placed hr
  have hu' : v.microOp = some u := (microOp_congr pl).trans hu
  have hx' : indexOk v.seqI u = true := pl.seqI.symm ▸ hx
  rcases hc with ⟨hh, rfl⟩ | ⟨r, hs, hd, rfl⟩ | ⟨hs, hk, he⟩
  · exact .held hh pl hp hw
  · obtain ⟨i, ha, -⟩ := hi.issued r hs
    exact progress_congr pl hp hw (progress_complete hu' hx' (hp.trans hs) ((engineAct_congr pl).trans ha) hd)
  · exact progress_congr pl hp hw (progress_engineStep hu' hx' (hp.trans hs) hk he)

end Sys2Proof.Machine
end

