-- ==== Sys2Proof/Laws/Run.lean ====
section
/-! SUPPORT. Runs on a schedule of inputs: how they compose, and what the quiet clock and the answering clock of a running
command do. -/

namespace Sys2Proof.Machine

/-- The state an engine clock with no host access acts on: the next input taken, `h_rdata` cleared. -/
def State.quiet (rest : List ClockIn) (s : State) : State := { s with inputs := rest, hRdata := none }

theorem samePlace_quiet (rest : List ClockIn) (s : State) : SamePlace s (s.quiet rest) := by constructor <;> rfl

theorem microOp_quiet (rest : List ClockIn) (s : State) : (s.quiet rest).microOp = s.microOp :=
  microOp_congr (samePlace_quiet rest s)

theorem runFrom_zero (ins : List ClockIn) (s : State) : runFrom 0 ins s = .next { s with inputs := ins } := rfl

/-- One step, then the rest of the run. -/
theorem runFrom_succ {n : Nat} {ins : List ClockIn} {s t : State} (h : step { s with inputs := ins } = .next t) :
    runFrom (n + 1) ins s = runFrom n t.inputs t := by
  have h' : Sys2Proof.core.step { s with inputs := ins } = Host.Outcome.next t := h
  simp only [runFrom, Host.Core.run, h']
  rfl

/-- Two runs in a row are one. -/
theorem runFrom_add {m n : Nat} {ins : List ClockIn} {s t : State} (h : runFrom m ins s = .next t) :
    runFrom (m + n) ins s = runFrom n t.inputs t := by
  induction m generalizing ins s with
  | zero =>
    simp only [runFrom_zero, Host.Outcome.next.injEq] at h
    subst h
    rw [Nat.zero_add]
    rfl
  | succ m ih =>
    cases hs : step { s with inputs := ins } with
    | next u =>
      rw [runFrom_succ hs] at h
      rw [show m + 1 + n = (m + n) + 1 by omega, runFrom_succ hs]
      exact ih h
    | fault f =>
      have hs' : Sys2Proof.core.step { s with inputs := ins } = Host.Outcome.fault f := hs
      simp [runFrom, Host.Core.run, hs'] at h
    | refused q =>
      have hs' : Sys2Proof.core.step { s with inputs := ins } = Host.Outcome.refused q := hs
      simp [runFrom, Host.Core.run, hs'] at h

/-- A clock in which nobody touches the block while a command runs: the engine's part alone. -/
theorem step_quiet {c : ClockIn} {rest : List ClockIn} {s : State} (hr : s.running = true) (h0 : c.rst = false)
    (h1 : c.hWe = false) (h2 : c.hRe = false) :
    step { s with inputs := c :: rest } = engineClock c (s.quiet rest) := by
  have hr' : ({ s with inputs := c :: rest } : State).popInput.running = true := hr
  rw [step_eq]
  show clock c _ = _
  simp only [clock, hostClock, h0, h1, h2, Bool.false_eq_true, if_false, andThen, engineIf, hr', if_true]
  rfl

/-- With no request outstanding, a quiet clock of a running command is an engine step. -/
theorem step_tick {rest : List ClockIn} {s : State} (hr : s.running = true) (hp : s.port = none) :
    step { s with inputs := tickIn :: rest } = engineStep (s.quiet rest) := by
  rw [step_quiet hr rfl rfl rfl]
  have hp' : (s.quiet rest).port = none := hp
  simp [engineClock, hp', tickIn]

/-- With a request outstanding, the transport's answer completes it. -/
theorem step_answer {rest : List ClockIn} {s : State} {r : Request} {x : Byte} (hr : s.running = true)
    (hp : s.port = some r) : step { s with inputs := answerIn x :: rest } = .next (complete r x (s.quiet rest)) := by
  rw [step_quiet hr rfl rfl rfl]
  have hp' : (s.quiet rest).port = some r := hp
  simp [engineClock, hp', answerIn]

end Sys2Proof.Machine
end

