-- ==== Sys2Proof/Tests/Slice0.lean ====
section
/-! SUPPORT. The model's own tests. Every expected value is written from the spec: the encodings of 30_encoding.md, the
vectors of 95_test_vectors.md (named in the comments: A, H, I, G, D, C, S) and the rules cited. The witness theorems at
the end show, for each statement with hypotheses, a concrete state and operands that meet them. -/

namespace Sys2Proof.Tests

open Sys2Proof.Machine

/-! ### Helpers -/

/-- Read something off a next state. -/
def after {α : Type} (o : Out) (f : State → α) : Option α :=
  match o with
  | .next s => some (f s)
  | .fault _ => none
  | .refused _ => none

/-- The fault of an answer. -/
def faultOf : Out → Option Fault
  | .next _ => none
  | .fault f => some f
  | .refused _ => none

/-- A host write as the next clock's input, and one step. -/
def write (a : Addr) (v : Byte) (s : State) : Out := step { s with inputs := [writeIn a v] }

/-- A host read as the next clock's input, and one step; the byte on `h_rdata` after it. -/
def readByte (a : Addr) (s : State) : Option (Option Byte) := after (step { s with inputs := [readIn a] }) (·.hRdata)

/-- A state in a lifecycle state, with a table length and an older RESULT. -/
def idleIn (l : Lifecycle) (n : Byte) : State := { State.reset with lifecycle := l, lutLen := n, result := 0x02 }

/-- READY, at a step of a running command. -/
def standing (op : SeqOp) (n : Nat) : State := { idleIn .ready 30 with seqOp := op, seqStep := n }

/-- READY, at a step of a running command, with a request outstanding. -/
def waiting (op : SeqOp) (n : Nat) (r : Request) : State := { standing op n with port := some r }

/-- RESULT and STATUS after a byte is written to CMD. -/
def cmdEffect (v : Byte) (s : State) : Option (Byte × Byte) := after (write 0x0000 v s) fun t => (t.result, statusByte t)

/-- A response that reads the idle level, whichever it is. -/
def idleByte : Byte := if Config.busyIdleLevel then 0x01 else 0x00

/-- A response that reads the other level. -/
def busyByte : Byte := if Config.busyIdleLevel then 0x00 else 0x01

/-- The block memory with every byte written. -/
def filled (m : BlockMem) (v : Byte) (mem : Memory) : Memory := memWriteRun mem (memBase m) (List.replicate (memSize m) v)

/-! ### WellFormed: a term that each check refuses -/

theorem test_wf_accepts : (Instr.pinWrite .rst true).wellFormed = true ∧ (Instr.pinRead .busy).wellFormed = true ∧
    (Instr.sendCommand 0x92).wellFormed = true ∧ (Instr.display true).wellFormed = true := by decide

theorem test_wf_refuses_pin_write : (Instr.pinWrite .dc true).wellFormed = false ∧
    (Instr.pinWrite .busy false).wellFormed = false ∧ (Instr.pinWrite .cs true).wellFormed = false := by decide

theorem test_wf_refuses_pin_read : (Instr.pinRead .rst).wellFormed = false ∧ (Instr.pinRead .dc).wellFormed = false ∧
    (Instr.pinRead .cs).wellFormed = false := by decide

theorem test_wf_refuses_command_byte : (Instr.sendCommand 0x01).wellFormed = false ∧
    (Instr.sendCommand 0xA5).wellFormed = false := by decide

/-! ### Decoding: words written out bit by bit from R71, R81, R82 and R87 -/

/-- Host bytes: RSV(3) D(1) L(1) OP(3). -/
theorem test_decode_host : decodeHost 0b000_0_0_001 = .ok .init ∧ decodeHost 0b000_0_0_010 = .ok .clear ∧
    decodeHost 0b000_0_0_011 = .ok (.display false) ∧ decodeHost 0b000_0_1_011 = .ok (.display true) ∧
    decodeHost 0b000_0_0_100 = .ok .sleep ∧ decodeHost 0b000_0_0_101 = .ok (.getbuffer false) ∧
    decodeHost 0b000_1_0_101 = .ok (.getbuffer true) := ⟨rfl, rfl, rfl, rfl, rfl, rfl, rfl⟩

/-- A10 to A22: the reasons a host byte is illegal. -/
theorem test_decode_host_rejects : decodeHost 0b000_0_0_000 = .error .reservedOp ∧
    decodeHost 0b000_0_0_110 = .error .reservedOp ∧ decodeHost 0b000_0_0_111 = .error .reservedOp ∧
    decodeHost 0b000_0_1_001 = .error .layerWithoutDisplay ∧ decodeHost 0b000_1_0_001 = .error .destWithoutGetbuffer ∧
    decodeHost 0b000_1_1_011 = .error .destWithoutGetbuffer ∧ decodeHost 0b000_1_1_101 = .error .layerWithoutDisplay ∧
    decodeHost 0b001_0_0_101 = .error .reservedBits ∧ decodeHost 0xFF = .error .reservedBits :=
  ⟨rfl, rfl, rfl, rfl, rfl, rfl, rfl, rfl, rfl⟩

theorem test_decode_panel : decodePanel 0x06 = .ok .boosterSoftStart ∧ decodePanel 0x04 = .ok .powerOn ∧
    decodePanel 0x00 = .ok .panelSettings ∧ decodePanel 0x50 = .ok .vcomDataInterval ∧
    decodePanel 0x61 = .ok .resolution ∧ decodePanel 0x32 = .ok .lutWrite ∧ decodePanel 0x10 = .ok .blackDataStart ∧
    decodePanel 0x13 = .ok .redDataStart ∧ decodePanel 0x92 = .ok .dataStop ∧ decodePanel 0x12 = .ok .refresh ∧
    decodePanel 0x02 = .ok .powerOff ∧ decodePanel 0x07 = .ok .deepSleep ∧ decodePanel 0x01 = .error .unknownPanelByte :=
  ⟨rfl, rfl, rfl, rfl, rfl, rfl, rfl, rfl, rfl, rfl, rfl, rfl, rfl⟩

/-- Transport requests: t_kind(3), then t_arg(16) as pin(8) and level(8), milliseconds, or 0(8) and byte(8). -/
theorem test_decode_request : decodeRequest 0b000 0 = .ok .tInit ∧ decodeRequest 0b001 0 = .ok .tShutdown ∧
    decodeRequest 0b010 0b00000000_00000001 = .ok (.pinWrite .rst true) ∧
    decodeRequest 0b010 0b00000011_00000000 = .ok (.pinWrite .cs false) ∧
    decodeRequest 0b011 0b00000010_00000000 = .ok (.pinRead .busy) ∧
    decodeRequest 0b100 0b00000000_01100100 = .ok (.delay 100) ∧
    decodeRequest 0b101 0b00000000_10010010 = .ok (.sendCommand 0x92) ∧
    decodeRequest 0b110 0b00000000_10100101 = .ok (.sendData 0xA5) := ⟨rfl, rfl, rfl, rfl, rfl, rfl, rfl, rfl⟩

theorem test_decode_request_rejects : decodeRequest 0b111 0 = .error .reservedKind ∧
    decodeRequest 0b000 1 = .error .reservedArgBits ∧ decodeRequest 0b010 0x0002 = .error .reservedArgBits ∧
    decodeRequest 0b010 0x0400 = .error .unknownPin ∧ decodeRequest 0b101 0x0106 = .error .reservedArgBits :=
  ⟨rfl, rfl, rfl, rfl, rfl⟩

/-- The transport encodings of 95_test_vectors.md section 2.2. -/
theorem test_request_words : (requestKind (.pinRead .busy), requestArg (.pinRead .busy)) = (0b011, 0x0200) ∧
    (requestKind (.pinWrite .rst true), requestArg (.pinWrite .rst true)) = (0b010, 0x0001) ∧
    (requestKind (.delay 200), requestArg (.delay 200)) = (0b100, 0x00C8) ∧
    (requestKind (.sendCommand 0x00), requestArg (.sendCommand 0x00)) = (0b101, 0x0000) ∧
    (requestKind (.sendData 0xA5), requestArg (.sendData 0xA5)) = (0b110, 0x00A5) := by decide

theorem test_table_words : decodeTableWord 8 0x0B = some (.display true) ∧ decodeTableWord 8 0x32 = some .lutWrite ∧
    decodeTableWord 8 0xFF = none ∧ decodeTableWord 8 0x100 = none := ⟨rfl, rfl, rfl, rfl⟩

/-- The word placed for the next step runs there, a host command and a panel command. -/
theorem test_fetch_word : after (step (State.reset.withFetchWord 8 0x05)) (·.seqOp) = some .getbuffer ∧
    after (step (State.reset.withFetchWord 8 0x92)) (·.port) = some (some (.sendCommand 0x92)) := by decide

/-! ### Host commands: acceptance (section 2.1) -/

/-- A1, A2, A3, A4. -/
theorem test_init : cmdEffect 0x01 (idleIn .uninit 30) = some (0x02, 0x04) ∧
    cmdEffect 0x01 (idleIn .uninit 0) = some (0x01, 0x00) ∧ cmdEffect 0x01 (idleIn .ready 29) = some (0x01, 0x01) ∧
    cmdEffect 0x01 (idleIn .slept 31) = some (0x01, 0x02) := by decide

/-- A5, C3; in READY it runs. -/
theorem test_clear : cmdEffect 0x02 (idleIn .uninit 30) = some (0x03, 0x00) ∧
    cmdEffect 0x02 (idleIn .slept 30) = some (0x03, 0x02) ∧ cmdEffect 0x02 (idleIn .ready 0) = some (0x02, 0x05) := by
  decide

/-- A6, A23, D4; in READY it latches L. -/
theorem test_display : cmdEffect 0x03 (idleIn .slept 30) = some (0x03, 0x02) ∧
    cmdEffect 0x0B (idleIn .slept 0) = some (0x03, 0x02) ∧
    after (write 0x0000 0x0B (idleIn .ready 0)) (fun t => (t.seqOp, t.seqL, t.seqStep)) = some (.display, true, 1) := by
  decide

/-- A7, A8; in READY it runs. -/
theorem test_sleep : cmdEffect 0x04 (idleIn .uninit 30) = some (0x03, 0x00) ∧
    cmdEffect 0x04 (idleIn .slept 30) = some (0x03, 0x02) ∧ cmdEffect 0x04 (idleIn .ready 0) = some (0x02, 0x05) := by
  decide

/-- A9: GETBUFFER runs in UNINIT; D is latched. -/
theorem test_getbuffer : cmdEffect 0x05 (idleIn .uninit 0) = some (0x02, 0x04) ∧
    after (write 0x0000 0x15 (idleIn .slept 0)) (fun t => (t.seqOp, t.seqD)) = some (.getbuffer, true) := by decide

/-- A10 to A22. -/
theorem test_illegal_bytes : [0x00, 0x06, 0x07, 0x0A, 0x0C, 0x0D, 0x11, 0x13, 0x1B, 0x25, 0x83, 0xE1, 0xFF].all
      (fun v => cmdEffect v (idleIn .ready 30) == some (0x04, 0x01)) = true ∧
    cmdEffect 0x09 (idleIn .uninit 0) = some (0x04, 0x00) ∧ cmdEffect 0x1D (idleIn .uninit 0) = some (0x04, 0x00) := by
  decide

/-- A24 to A28: writes while a command runs. -/
theorem test_dropped_writes :
    after (write 0x0000 0x01 (waiting .clear 2 .tInit)) (fun t => (t.drop, t.seqOp, t.result)) = some (true, .clear, 0x02) ∧
    after (write 0x1000 0x00 (waiting .clear 2 .tInit)) (fun t => (t.drop, t.mem)) = some (true, []) ∧
    after (write 0x0003 29 (waiting .clear 2 .tInit)) (fun t => (t.drop, t.lutLen)) = some (true, 30) ∧
    after (write 0x0001 0xFF (waiting .clear 2 .tInit)) (·.drop) = some false ∧
    after (write 0x0008 0x12 (waiting .clear 2 .tInit)) (·.drop) = some false := by decide

/-- A29: the next CMD write clears DROP, whatever its byte. -/
theorem test_drop_cleared : after (write 0x0000 0x00 { idleIn .ready 30 with drop := true }) (·.drop) = some false := by
  decide

/-! ### The host interface (section 2.9) -/

/-- H1, H2. -/
theorem test_reads_zero : [0x0000, 0x0008, 0x00FF, 0x011E, 0x1AC4, 0x3AC4, 0xFFFF].all
    (fun a => readByte a (idleIn .ready 30) == some (some 0x00)) = true := by decide

/-- H3, H4. -/
theorem test_read_only : after (write 0x0002 0x55 (idleIn .ready 30)) (·.result) = some 0x02 ∧
    after (write 0x0001 0xFF (idleIn .ready 30)) statusByte = some 0x01 := by decide

/-- H5: 212 = 0x00D4. -/
theorem test_img_registers : (after (write 0x0004 0xD4 (idleIn .ready 30)) (fun t => (t.imgWLo, t.imgW))) =
    some (0xD4, 212) := by decide

/-- H6, H7, H8. -/
theorem test_memory_addresses : after (write 0x011D 0x9C State.reset) (·.memByte .lutMem 29) = some (some 0x9C) ∧
    after (write 0x1AC3 0x12 State.reset) (·.memByte .buf0 2755) = some (some 0x12) ∧
    after (write 0x2000 0x34 State.reset) (·.memByte .buf1 0) = some (some 0x34) := by decide

/-- A byte that nothing has written stops a read; GETBUFFER's destination reads freely while it runs (I4, I5). -/
theorem test_memory_reads : faultOf (step { State.reset with inputs := [readIn 0x1000] }) = some (.unwrittenByte 0x1000) ∧
    faultOf (hostRead 0x1000 (standing .getbuffer 1)) = none := by decide

/-- H10: block reset while INIT runs in READY. -/
theorem test_block_reset : after (step { waiting .init 3 (.delay 200) with inputs := [{ rst := true, hWe := true }] })
    (fun t => (statusByte t, t.result, t.port, t.log)) =
    some (0x00, 0x00, none, [{ req := .delay 200, rsp := none }]) := by decide

theorem test_reset_memory : memWf State.reset.mem = true ∧ statusByte State.reset = 0x00 := by decide

/-! ### Panel commands: the byte each lists, and its payload (R124 to R130, R164, R167, R193) -/

/-- What the engine's next step puts on the port at a step of a list. -/
def sent (op : SeqOp) (n : Nat) : Option (Option Request) :=
  after (step { standing op n with inputs := [tickIn] }) (·.port)

theorem test_booster_soft_start : sent .init 8 = some (some (.sendCommand 0x06)) ∧
    sent .init 9 = some (some (.sendData Config.boosterData0)) ∧
    sent .init 10 = some (some (.sendData Config.boosterData1)) ∧
    sent .init 11 = some (some (.sendData Config.boosterData2)) := ⟨rfl, rfl, rfl, rfl⟩

theorem test_power_on : sent .init 12 = some (some (.sendCommand 0x04)) ∧
    sent .init 13 = some (some (.pinRead .busy)) := by decide

theorem test_panel_settings : sent .init 14 = some (some (.sendCommand 0x00)) ∧
    sent .init 15 = some (some (.sendData Config.panelSettingData)) := ⟨rfl, rfl⟩

theorem test_vcom_data_interval : sent .init 16 = some (some (.sendCommand 0x50)) ∧
    sent .init 17 = some (some (.sendData Config.vcomIntervalData)) := ⟨rfl, rfl⟩

/-- Width 104, then 212 high, then 212 low. -/
theorem test_resolution : sent .init 18 = some (some (.sendCommand 0x61)) ∧
    sent .init 19 = some (some (.sendData 0x68)) ∧ sent .init 20 = some (some (.sendData 0x00)) ∧
    sent .init 21 = some (some (.sendData 0xD4)) := by decide

theorem test_lut_write : sent .init 22 = some (some (.sendCommand 0x32)) ∧
    faultOf (step (standing .init 23)) = some (.unwrittenByte 0x0100) ∧
    after (step { standing .init 23 with mem := [(0x011D, 0x9C)], seqI := 29 }) (·.port) =
      some (some (.sendData 0x9C)) := by decide

theorem test_black_data_start : sent .clear 1 = some (some (.sendCommand 0x10)) ∧
    sent .clear 2 = some (some (.sendData 0xFF)) ∧
    after (step { standing .display 2 with mem := [(0x1000, 0x7F)] }) (·.port) = some (some (.sendData 0x7F)) := by decide

theorem test_red_data_start : sent .clear 4 = some (some (.sendCommand 0x13)) ∧
    sent .clear 5 = some (some (.sendData 0xFF)) ∧
    after (step { standing .display 5 with mem := [(0x2000, 0x3C)], seqL := true }) (·.port) =
      some (some (.sendData 0x3C)) := by decide

theorem test_data_stop : sent .clear 3 = some (some (.sendCommand 0x92)) ∧
    sent .clear 6 = some (some (.sendCommand 0x92)) ∧ sent .display 3 = some (some (.sendCommand 0x92)) := by decide

/-- One layer goes on to the refresh, two go on to the red layer. -/
theorem test_refresh : sent .display 4 = some (some (.sendCommand 0x12)) ∧
    after (step { standing .display 4 with seqL := true }) (·.port) = some (some (.sendCommand 0x13)) ∧
    sent .clear 7 = some (some (.sendCommand 0x12)) := by decide

theorem test_power_off : sent .sleep 1 = some (some (.sendCommand 0x02)) ∧
    sent .sleep 2 = some (some (.pinRead .busy)) := by decide

theorem test_deep_sleep : sent .sleep 3 = some (some (.sendCommand 0x07)) ∧
    sent .sleep 4 = some (some (.sendData 0xA5)) := by decide

/-! ### Transport requests and their answers -/

/-- One step in which the transport answers. -/
def answered1 (s : State) (rsp : Byte) : Out := step { s with inputs := [answerIn rsp] }

/-- I4, I5: a nonzero status ends INIT with 0xFF and keeps STATE; status 0x00 goes on. -/
theorem test_t_init : after (answered1 (waiting .init 1 .tInit) 0xFF) (fun t => (t.result, statusByte t, t.port)) =
      some (0xFF, 0x01, none) ∧
    after (answered1 (waiting .init 1 .tInit) 0x00) (fun t => (t.seqStep, t.running)) = some (2, true) := by decide

/-- S1: SLEEP ends in SLEPT after the shutdown's answer, whatever it was. -/
theorem test_t_shutdown : sent .sleep 5 = some (some .tShutdown) ∧
    after (answered1 (waiting .sleep 5 .tShutdown) 0xFF) (·.seqStep) = some 6 ∧
    after (step (standing .sleep 6)) (fun t => (t.result, statusByte t)) = some (0x00, 0x02) := by decide

/-- The reset pulse's pins; any other pin stops. -/
theorem test_pin_write : sent .init 2 = some (some (.pinWrite .rst true)) ∧
    sent .init 4 = some (some (.pinWrite .rst false)) ∧
    faultOf (exec (.pinWrite .cs true) State.reset) = some (.neverIssued (.pinWrite .cs true)) := by decide

theorem test_delay : sent .init 3 = some (some (.delay 200)) ∧ sent .init 5 = some (some (.delay 10)) ∧
    sent .init 7 = some (some (.delay 200)) := by decide

/-- The poll's first request sets WAITING: STATUS is STATE, RUNNING and WAITING (section 2.3, I1). -/
theorem test_pin_read : after (step { standing .init 13 with lifecycle := .uninit }) statusByte = some 0x14 ∧
    faultOf (exec (.pinRead .cs) State.reset) = some (.neverIssued (.pinRead .cs)) := by decide

theorem test_send_command : after (exec (.sendCommand 0x12) State.reset) (·.tKind) = some (some 0b101) ∧
    faultOf (exec (.sendCommand 0x01) State.reset) = some (.neverIssued (.sendCommand 0x01)) := by decide

theorem test_send_data : after (exec (.sendData 0x00) State.reset) (fun t => (t.tKind, t.tArg)) =
    some (some 0b110, some 0x0000) := by decide

/-- A stream goes to its next index, and past the last to the next micro-operation. -/
theorem test_stream_index :
    after (answered1 (waiting .clear 2 (.sendData 0xFF)) 0x00) (fun t => (t.seqStep, t.seqI)) = some (2, 1) ∧
    after (answered1 { waiting .clear 2 (.sendData 0xFF) with seqI := 2755 } 0x00) (fun t => (t.seqStep, t.seqI)) =
      some (3, 0) := by decide

/-- A poll that reads idle ends the wait; another is followed by a 100 ms delay and a new poll (R110), and bits [7:1]
are no level (section 2.2). -/
theorem test_wait_idle : ∀ (s : State) (rsp : Byte), s.seqI = 0 → rsp.getLsbD 0 = Config.busyIdleLevel →
    (s.afterWait rsp).seqStep = s.seqStep + 1 ∧ (s.afterWait rsp).waiting = false := by
  intro s rsp hi hr
  rw [State.afterWait, if_pos hi, if_pos hr]
  exact ⟨rfl, rfl⟩

theorem test_wait_busy : ∀ (s : State) (rsp : Byte), s.seqI = 0 → rsp.getLsbD 0 ≠ Config.busyIdleLevel →
    (s.afterWait rsp).seqStep = s.seqStep ∧ (s.afterWait rsp).seqI = 1 := by
  intro s rsp hi hr
  rw [State.afterWait, if_pos hi, if_neg hr]
  exact ⟨rfl, rfl⟩

theorem test_wait_delay : sent .init 13 = some (some (.pinRead .busy)) ∧
    after (step { standing .init 13 with seqI := 1 }) (·.port) = some (some (.delay 100)) := by decide

/-! ### The converter (section 2.5) -/

/-- R53: `pix` of a single black pixel at the corner and at the end of a row. -/
theorem test_pix : pix [0x7F] 104 0 0 = false ∧ pix [0x7F] 104 1 0 = true ∧
    pix (List.replicate 12 0xFF ++ [0xFE]) 104 103 0 = false := by decide

/-- G1, G2, G3: one black pixel of a native image. -/
theorem test_native_pixel : (nativePixel [0x7F] prefill (0, 0))[0]? = some 0x7F ∧
    (nativePixel (List.replicate 12 0xFF ++ [0xFE]) prefill (103, 0))[12]? = some 0xFE ∧
    (nativePixel (List.replicate 13 0xFF ++ [0x7F]) prefill (0, 1))[13]? = some 0x7F := by decide +kernel

/-- G10, G9, G13: one black pixel of a transposed image. -/
theorem test_transposed_pixel : (transposedPixel (List.replicate 26 0xFF ++ [0xEF]) prefill (211, 0))[0]? = some 0x7F ∧
    (transposedPixel [0x7F] prefill (0, 0))[2743]? = some 0x7F ∧
    (transposedPixel (List.replicate 239 0xFF ++ [0xBF]) prefill (5, 9))[2679]? = some 0xBF := by decide +kernel

/-- G1, G9, G19 to G26: the geometry test, the high bytes included. -/
theorem test_geometry : geometryOf 0x0068 0x00D4 = .native ∧ geometryOf 0x00D4 0x0068 = .transposed ∧
    [geometryOf 0 0, geometryOf 0x0068 0x00D3, geometryOf 0x0068 0x00D5, geometryOf 0x0168 0x00D4,
      geometryOf 0x00D4 0x00D4, geometryOf 0x0068 0x0068, geometryOf 0x0034 0x01A8, geometryOf 0x6800 0xD400].all
      (· == .unsupported) = true := by decide

/-- R27: the HI register is the high byte: G26 is 26624 by 54272, and G22 is 360 by 212. -/
theorem test_image_size : ({ State.reset with imgWHi := 0x68, imgHHi := 0xD4 } : State).imgW = 26624 ∧
    ({ State.reset with imgWHi := 0x68, imgHHi := 0xD4 } : State).imgH = 54272 ∧
    ({ State.reset with imgWHi := 0x01, imgWLo := 0x68, imgHLo := 0xD4 } : State).imgW = 360 ∧
    ({ State.reset with imgWLo := 0x68, imgHLo := 0xD4 } : State).geometry = .native ∧
    ({ State.reset with imgWHi := 0x68, imgHHi := 0xD4 } : State).geometry = .unsupported := by decide

/-- G19: an unsupported geometry ends with 0x02; G1: a native image that nothing has written stops. -/
theorem test_getbuffer_end : after (step (standing .getbuffer 2)) (fun t => (t.result, statusByte t)) = some (0x02, 0x01) ∧
    faultOf (step { standing .getbuffer 1 with imgWLo := 0x68, imgHLo := 0xD4 }) = some (.unwrittenByte 0x3000) := by
  decide

/-! ### Host programs (R77, R242; the lines of program P4) -/

/-- A run after two clocks in which the host issues its accesses and the transport is silent. -/
def twoClocks (prog : List HostOp) (s : State) : HostOut := runProgram (fun _ => {}) 2 (HostRun.launch prog s)

/-- Read something off a run. -/
def afterRun {α : Type} (o : HostOut) (f : HostRun → α) : Option α :=
  match o with
  | .next r => some (f r)
  | .fault _ => none
  | .refused _ => none

/-- P4 lines 6 and 9: an illegal byte, then the read of RESULT; the run has issued and completed its last access. -/
theorem test_program_run : afterRun (twoClocks [.wr addrCmd 0x09, .rd addrResult] State.reset)
    (fun r => (r.todo, r.reads, r.observe.result, r.observe.status, r.observe.trace)) =
    some ([], [0x04], 0x04, 0x00, []) := by decide

/-- A poll is done at the first byte that satisfies it, and goes on while none does. -/
theorem test_program_poll : afterRun (twoClocks [.poll addrStatus 0x04 0x00] State.reset) (fun r => (r.todo, r.reads)) =
      some ([], [0x00]) ∧
    afterRun (twoClocks [.poll addrStatus 0x04 0x00] (waiting .init 3 (.delay 200))) (fun r => (r.todo, r.reads)) =
      some ([.poll addrStatus 0x04 0x00], [0x05, 0x05]) := by decide

/-! ### Witnesses: each statement's hypotheses are met together -/

theorem ok_polls : ({ busy := [(busyByte, 0x00), (busyByte, 0xFF)], idle := idleByte } : Polls).ok := by
  constructor
  · intro x hx
    simp only [List.mem_cons, List.not_mem_nil, or_false] at hx
    rcases hx with rfl | rfl <;> simp only [busyByte] <;> cases Config.busyIdleLevel <;> decide
  · simp only [idleByte]; cases Config.busyIdleLevel <;> decide

theorem ok_no_polls : ({ busy := [], idle := idleByte } : Polls).ok := by
  constructor
  · intro x hx; cases hx
  · simp only [idleByte]; cases Config.busyIdleLevel <;> decide

theorem filled_written (m : BlockMem) (v : Byte) (mem : Memory) (s : State) :
    ({ s with mem := filled m v mem } : State).written m := by
  intro i hi
  rw [State.memByte, filled, memRead_memWriteRun_at _ _ _ _ (by simpa using hi)]
  rfl

theorem filled_keeps (m k : BlockMem) (v : Byte) (s : State)
    (hk : memBase k + memSize k ≤ memBase m ∨ memBase m + memSize m ≤ memBase k) (h : s.written k) :
    ({ s with mem := filled m v s.mem } : State).written k := by
  intro i hi
  rw [State.memByte, filled, memRead_memWriteRun, if_neg (by simp only [List.length_replicate]; omega)]
  exact h i hi

/-- A state that stands at a micro-operation, with nothing outstanding and empty memories, meets the invariant. -/
theorem inv_standing {op : SeqOp} {n : Nat} {u : MicroOp} (h : (standing op n).microOp = some u)
    (hi : indexOk 0 u = true) : (standing op n).Inv where
  canonical := rfl
  coded := (by decide : (0x02 : Byte) ∈ resultCodes)
  placed := fun _ => ⟨u, h, hi⟩
  layers := fun _ h => by cases h
  dest := fun _ h => by cases h
  legal := fun _ => rfl
  lut := fun _ => rfl
  waitsInside := fun h => by cases h
  waitsShown := fun _ h => by rcases h with h | h <;> simp [standing, idleIn, State.reset] at h
  issued := fun r h => by cases h
  traced := fun e h => by cases h

theorem test_witness_encoding : (Instr.pinWrite .rst false).wellFormed = true ∧
    (Instr.sendCommand 0x07).wellFormed = true ∧ (Instr.delay 0xFFFF).wellFormed = true ∧
    decode (.request 0b010 0x0301) = .ok (.pinWrite .cs true) ∧ decode (.host 0x15) = .ok (.getbuffer true) ∧
    decode (.panel 0x00) = .ok .panelSettings := ⟨rfl, rfl, rfl, rfl, rfl, rfl⟩

theorem test_witness_legal_bytes : decodeHost 0x15 = .ok (.getbuffer true) ∧ (0x00 : Byte) ∉ legalBytes ∧
    (0xFF : Byte) ∉ legalBytes ∧ State.reset.running = false := ⟨rfl, by decide, by decide, rfl⟩

/-- Each clause of acceptance: running; illegal; outside READY; a wrong table length; started. -/
theorem test_witness_acceptance : (standing .clear 1).running = true ∧ (0x09 : Byte) ∉ legalBytes ∧
    (opOfBits (cmdOp 0x0B) = .display ∧ State.reset.lifecycle ≠ .ready) ∧
    (opOfBits (cmdOp 0x01) = .init ∧ State.reset.lutLen ≠ 30) ∧
    (opOfBits (cmdOp 0x15) = .getbuffer ∧ State.reset.running = false) := by decide

theorem test_witness_start : (idleIn .ready 30).running = false ∧ (idleIn .ready 30).lutLen = 30 ∧
    (idleIn .ready 30).lifecycle = .ready := by decide

theorem test_witness_refusals : State.reset.running = false ∧ State.reset.lifecycle ≠ .ready ∧
    (idleIn .slept 31).running = false ∧ (idleIn .slept 31).lifecycle ≠ .ready ∧ (idleIn .slept 31).lutLen ≠ 30 ∧
    (idleIn .ready 29).lutLen ≠ 30 := by decide

theorem test_witness_dropped : (standing .sleep 1).running = true ∧ writableAddr 0x0000 = true ∧
    writableAddr 0x3AC3 = true ∧ writableAddr 0x0002 = false ∧ writableAddr 0x3AC4 = false := by decide

theorem test_witness_read_back : State.reset.running = false ∧
    [0x0003, 0x0007, 0x0100, 0x011D, 0x1000, 0x1AC3, 0x2000, 0x2AC3, 0x3000, 0x3AC3].all writableAddr = true ∧
    [0x0001, 0x0002, 0x0008, 0x00FF, 0x011E, 0x0FFF, 0x1AC4, 0x1FFF, 0x2AC4, 0x2FFF, 0x3AC4, 0xFFFF].any writableAddr =
      false := by decide

theorem test_witness_reserved : [0x0008, 0x00FF, 0x011E, 0x0FFF, 0x1AC4, 0x1FFF, 0x2AC4, 0x2FFF, 0x3AC4, 0xFFFF].all
    reservedAddr = true ∧ [0x0007, 0x0100, 0x011D, 0x1000, 0x1AC3, 0x2AC3, 0x3AC3].any reservedAddr = false := by decide

/-- The boundaries of the address map. -/
theorem test_witness_address_map : target 0x0100 = .cell .lutMem 0 ∧ target 0x011D = .cell .lutMem 29 ∧
    target 0x1AC3 = .cell .buf0 2755 ∧ target 0x2000 = .cell .buf1 0 ∧ target 0x3AC3 = .cell .imgMem 2755 ∧
    target 0x3AC4 = .reserved ∧ target 0x0008 = .reserved := by decide

/-- The clauses of a read: the destination of a running GETBUFFER; a written byte; one never written. -/
theorem test_witness_reads : ((standing .getbuffer 1).seqOp = .getbuffer ∧
      BlockMem.buf0 = bufOf (standing .getbuffer 1).seqD) ∧ 2755 < memSize .buf1 ∧ 29 < memSize .lutMem ∧
    ({ State.reset with mem := [(0x2AC3, 0x34)] } : State).memByte .buf1 2755 = some 0x34 ∧
    State.reset.memByte .imgMem 0 = none := by decide

theorem test_witness_written_command :
    ({ State.reset with inputs := [writeIn 0x0000 0x05] } : State).nextInput = writeIn 0x0000 0x05 ∧
    (writeIn 0x0000 0x05).rst = false ∧ (writeIn 0x0000 0x05).hWe = true ∧ (writeIn 0x0000 0x05).hAddr = 0x0000 ∧
    decodeHost (writeIn 0x0000 0x05).hWdata = .ok (.getbuffer false) := ⟨rfl, rfl, rfl, rfl, rfl⟩

/-- Every kind of access in the coming clock, of an idle block and of one that runs: a write at the last writable address, both
strobes, a read there, and no access. -/
theorem test_witness_host_access :
    ∀ s ∈ [idleIn .uninit 30, waiting .init 3 (.delay 200)],
      ∀ c ∈ [writeIn 0x3AC3 0x5A, { writeIn 0x3AC3 0x5A with hRe := true }, readIn 0x0003, tickIn],
        ({ s with inputs := [c] } : State).nextInput = c ∧ c.rst = false ∧
          after (step { s with inputs := [c] }) (fun _ => true) = some true := by decide

/-- A step with a write to IMG_MEM's last byte, of an idle block and of one that runs (R243). -/
theorem test_step_writes_memory :
    after (step { idleIn .uninit 30 with inputs := [writeIn 0x3AC3 0x5A] }) (fun t => (t.mem, t.drop)) =
      some ([(0x3AC3, 0x5A)], false) ∧
    after (step { waiting .init 3 (.delay 200) with inputs := [writeIn 0x3AC3 0x5A] }) (fun t => (t.mem, t.drop)) =
      some ([], true) := by decide

/-- A step with a read shows the byte on h_rdata, of an idle block and of one that runs (R57, R243). -/
theorem test_step_reads :
    after (step { idleIn .uninit 30 with inputs := [readIn 0x0003] }) (fun t => t.hRdata) = some (some 30) ∧
    after (step { waiting .init 3 (.delay 200) with inputs := [readIn 0x0003] }) (fun t => t.hRdata) =
      some (some 30) := by decide

theorem test_witness_sequenced : (standing .clear 1).nextInput = tickIn ∧ tickIn.rst = false ∧ tickIn.hWe = false ∧
    tickIn.hRe = false ∧ tickIn.tick = true ∧ (standing .clear 1).running = true ∧ (standing .clear 1).port = none ∧
    engineAct (standing .clear 1) = .ok (.run .blackDataStart) := ⟨rfl, rfl, rfl, rfl, rfl, rfl, rfl, rfl⟩

theorem test_witness_free_port : (standing .init 2).port = none ∧ (0x06 : Byte) ∈ panelBytes ∧
    (0x01 : Byte) ∉ panelBytes ∧ Pin.dc ≠ .rst ∧ Pin.rst ≠ .busy := by decide

theorem test_witness_port_shows : [Request.tInit, .tShutdown, .pinWrite .rst true, .pinRead .busy, .delay 0xFFFF,
    .sendCommand 0xFF, .sendData 0x00].all (fun r => (waiting .init 1 r).port == some r) = true := by decide

/-- With and without an answer. -/
theorem test_witness_held : (waiting .init 3 (.delay 200)).running = true ∧
    (waiting .init 3 (.delay 200)).port = some (.delay 200) ∧ (waiting .init 3 (.delay 200)).nextInput.rst = false ∧
    (waiting .init 3 (.delay 200)).nextInput.tDone = false ∧ (answerIn 0x07).tDone = true ∧ (answerIn 0x07).rst = false ∧
    after (step (waiting .init 3 (.delay 200))) (fun _ => true) = some true ∧
    after (answered1 (waiting .init 3 (.delay 200)) 0x07) (fun _ => true) = some true := by decide

theorem test_witness_trace : (∃ t, step State.reset = .next t) ∧ ∃ t, answered1 (waiting .init 3 (.delay 200)) 0x07 = .next t :=
  ⟨⟨_, rfl⟩, ⟨_, rfl⟩⟩

/-- A state of the invariant whose step raises a pin write, a delay, a pin read and a command. -/
theorem test_witness_allowed :
    ((standing .init 2).Inv ∧ ∃ t, step (standing .init 2) = .next t ∧ t.port = some (.pinWrite .rst true)) ∧
    ((standing .init 3).Inv ∧ ∃ t, step (standing .init 3) = .next t ∧ t.port = some (.delay 200)) ∧
    ((standing .sleep 2).Inv ∧ ∃ t, step (standing .sleep 2) = .next t ∧ t.port = some (.pinRead .busy)) ∧
    ((standing .clear 1).Inv ∧ ∃ t, step (standing .clear 1) = .next t ∧ t.port = some (.sendCommand 0x10)) :=
  ⟨⟨inv_standing rfl rfl, _, rfl, rfl⟩, ⟨inv_standing rfl rfl, _, rfl, rfl⟩, ⟨inv_standing rfl rfl, _, rfl, rfl⟩,
    ⟨inv_standing rfl rfl, _, rfl, rfl⟩⟩

theorem test_witness_wait : (standing .sleep 2).microOp = some .wait ∧ (standing .sleep 2).seqI = 0 ∧
    (standing .sleep 2).port = none ∧
    ({ busy := [(busyByte, 0x00), (busyByte, 0xFF)], idle := idleByte } : Polls).ok ∧
    ({ busy := [], idle := idleByte } : Polls).ok := ⟨rfl, rfl, rfl, ok_polls, ok_no_polls⟩

/-- INIT at its LUT stream, with the table written. -/
def atStream : State := { standing .init 23 with mem := filled .lutMem 0x3C [] }

theorem test_witness_stream : atStream.microOp = some (.stream .lutMem 30) ∧ atStream.seqI = 0 ∧ atStream.port = none ∧
    0 < 30 ∧ (List.replicate 30 (0x00 : Byte)).length = 30 ∧ ∀ i < 30, (atStream.memByte .lutMem i).isSome = true :=
  ⟨rfl, rfl, rfl, by decide, rfl, filled_written .lutMem 0x3C [] (standing .init 23)⟩

theorem test_witness_fill : (standing .clear 2).microOp = some (.fill 0xFF 2756) ∧ (standing .clear 2).seqI = 0 ∧
    (standing .clear 2).port = none ∧ 0 < 2756 ∧ (List.replicate 2756 (0x00 : Byte)).length = 2756 :=
  ⟨rfl, rfl, rfl, by decide, List.length_replicate⟩

/-- READY, with LUT_MEM written. -/
def lutReady : State := { idleIn .ready 30 with mem := filled .lutMem 0x3C [] }

theorem test_witness_init_trace : (lutReady.running = false ∧ lutReady.port = none ∧ lutReady.waiting = false ∧
      lutReady.lutLen = 30 ∧ lutReady.written .lutMem ∧
      ({ busy := [(busyByte, 0x00), (busyByte, 0xFF)], idle := idleByte } : Polls).ok ∧
      (List.replicate 11 (0x00 : Byte)).length = 11 ∧ (List.replicate 39 (0x00 : Byte)).length = 39) ∧
    (lutReady.lutLen = 30 ∧ (0x01 : Byte) ≠ 0x00) ∧
    (State.reset.running = false ∧ State.reset.port = none ∧ State.reset.lutLen ≠ 30) :=
  ⟨⟨rfl, rfl, rfl, rfl, filled_written .lutMem 0x3C [] (idleIn .ready 30), ok_polls, rfl, rfl⟩, ⟨rfl, by decide⟩,
    ⟨rfl, rfl, by decide⟩⟩

/-- READY, with both PanelBuffers written. -/
def bufReady : State :=
  { idleIn .ready 30 with mem := filled .buf1 0xFF ({ idleIn .ready 30 with mem := filled .buf0 0x7F [] } : State).mem }

theorem test_witness_display_trace : bufReady.running = false ∧ bufReady.port = none ∧ bufReady.waiting = false ∧
    bufReady.lifecycle = .ready ∧ bufReady.written .buf0 ∧ bufReady.written .buf1 ∧
    ({ busy := [(busyByte, 0x00), (busyByte, 0xFF)], idle := idleByte } : Polls).ok ∧
    (List.replicate 5517 (0x00 : Byte)).length = (if true then 5517 else 2759) ∧
    (List.replicate 2759 (0x00 : Byte)).length = (if false then 5517 else 2759) :=
  ⟨rfl, rfl, rfl, rfl,
    filled_keeps .buf1 .buf0 0xFF { idleIn .ready 30 with mem := filled .buf0 0x7F [] } (.inl (by decide))
      (filled_written .buf0 0x7F [] (idleIn .ready 30)),
    filled_written .buf1 0xFF _ (idleIn .ready 30), ok_polls, List.length_replicate, List.length_replicate⟩

theorem test_witness_clear_and_sleep_trace : (idleIn .ready 30).running = false ∧ (idleIn .ready 30).port = none ∧
    (idleIn .ready 30).waiting = false ∧ (idleIn .ready 30).lifecycle = .ready ∧
    ({ busy := [(busyByte, 0x00), (busyByte, 0xFF)], idle := idleByte } : Polls).ok ∧
    (List.replicate 5517 (0x00 : Byte)).length = 5517 := ⟨rfl, rfl, rfl, rfl, ok_polls, List.length_replicate⟩

/-- The last LUT byte is outstanding. -/
def atLastByte : State := { waiting .init 23 (.sendData 0x3C) with seqI := 29 }

theorem test_witness_init_ends : atLastByte.seqOp = .init ∧ atLastByte.seqStep = 23 ∧ atLastByte.seqI = 29 ∧
    atLastByte.port = some (.sendData 0x3C) ∧ (waiting .init 1 .tInit).seqOp = .init ∧
    (waiting .init 1 .tInit).seqStep = 1 ∧ (waiting .init 1 .tInit).port = some .tInit ∧ (0xFF : Byte) ≠ 0x00 := by
  decide

/-- UNINIT, with the IMG registers set and IMG_MEM written. -/
def imageOf (w h : Byte) : State :=
  { State.reset with imgWLo := w, imgHLo := h, mem := filled .imgMem 0xA5 [] }

theorem test_witness_getbuffer :
    ((imageOf 104 212).running = false ∧ (imageOf 104 212).port = none ∧ (imageOf 104 212).imgW = 104 ∧
      (imageOf 104 212).imgH = 212 ∧ (imageOf 104 212).written .imgMem) ∧
    ((imageOf 212 104).running = false ∧ (imageOf 212 104).port = none ∧ (imageOf 212 104).imgW = 212 ∧
      (imageOf 212 104).imgH = 104 ∧ (imageOf 212 104).written .imgMem) ∧
    (State.reset.running = false ∧ State.reset.port = none ∧ ¬(State.reset.imgW = 104 ∧ State.reset.imgH = 212) ∧
      ¬(State.reset.imgW = 212 ∧ State.reset.imgH = 104)) :=
  ⟨⟨rfl, rfl, rfl, rfl, filled_written .imgMem 0xA5 [] { State.reset with imgWLo := 104, imgHLo := 212 }⟩,
    ⟨rfl, rfl, rfl, rfl, filled_written .imgMem 0xA5 [] { State.reset with imgWLo := 212, imgHLo := 104 }⟩,
    ⟨rfl, rfl, by decide, by decide⟩⟩

/-- The three ways STATE changes: block reset, the end of INIT, the end of SLEEP. -/
theorem test_witness_state_written :
    (∃ t, step { idleIn .ready 30 with inputs := [{ rst := true }] } = .next t ∧ t.lifecycle ≠ .ready) ∧
    (∃ t, step { standing .init 24 with lifecycle := .slept } = .next t ∧ t.lifecycle ≠ .slept) ∧
    (∃ t, step (standing .sleep 6) = .next t ∧ t.lifecycle ≠ .ready) ∧
    ((standing .sleep 6).microOp = some (.finish 0x00 (some .slept)) ∧ (standing .sleep 6).port = none) :=
  ⟨⟨_, rfl, by decide⟩, ⟨_, rfl, by decide⟩, ⟨_, rfl, by decide⟩, rfl, rfl⟩

/-- A step of a running command that goes on, and one that ends it. -/
theorem test_witness_running : ((standing .clear 1).running = true ∧ (standing .clear 1).nextInput.rst = false ∧
      ∃ t, step (standing .clear 1) = .next t ∧ t.running = true) ∧
    ((standing .clear 9).running = true ∧ ∃ t, step (standing .clear 9) = .next t ∧ t.running = false) :=
  ⟨⟨rfl, rfl, _, rfl, rfl⟩, ⟨rfl, _, rfl, rfl⟩⟩

/-- A host write and a host read beside a running command. -/
theorem test_witness_host_beside : (standing .clear 1).running = true ∧ (writeIn 0x1000 0x00).rst = false ∧
    (readIn 0x0001).rst = false ∧ (∃ t, clock (writeIn 0x1000 0x00) (standing .clear 1) = .next t) ∧
    ∃ t, clock (readIn 0x0001) (standing .clear 1) = .next t := ⟨rfl, rfl, rfl, ⟨_, rfl⟩, ⟨_, rfl⟩⟩

/-- A clock without an answer, and one in which the engine does not step. -/
theorem test_witness_held_clock : (waiting .init 3 (.delay 200)).running = true ∧ tickIn.rst = false ∧
    (if (waiting .init 3 (.delay 200)).port.isSome then tickIn.tDone else tickIn.tick) = false ∧
    (∃ t, clock tickIn (waiting .init 3 (.delay 200)) = .next t) ∧
    (if (standing .init 3).port.isSome then ({ tick := false } : ClockIn).tDone else ({ tick := false } : ClockIn).tick) =
      false ∧
    ∃ t, clock { tick := false } (standing .init 3) = .next t := ⟨rfl, rfl, rfl, ⟨_, rfl⟩, rfl, ⟨_, rfl⟩⟩

/-- A conversion leaves the bytes outside its destination alone: an address inside it and one outside. -/
theorem test_witness_operands : (standing .getbuffer 1).running = true ∧ (standing .getbuffer 1).nextInput.rst = false ∧
    (standing .getbuffer 1).seqOp = .getbuffer ∧ inMem (bufOf (standing .getbuffer 1).seqD) 0x2000 = false ∧
    inMem (bufOf (standing .getbuffer 1).seqD) 0x1AC3 = true := by decide

theorem test_witness_end_clock : (standing .init 24).microOp = some (.finish 0x00 (some .ready)) ∧
    (standing .init 24).port = none ∧ writableAddr (0x0000 : Addr).toNat = true ∧
    writableAddr (0x3AC3 : Addr).toNat = true ∧ ({ rst := true, hWe := true } : ClockIn).rst = true ∧
    ({ State.reset with inputs := [{ rst := true }] } : State).nextInput.rst = true := by decide

/-- The invariant at a state whose step stops on a byte never written, and at one whose step goes on. -/
theorem test_witness_invariant : ((standing .init 23).Inv ∧ step (standing .init 23) = .fault (.unwrittenByte 0x0100)) ∧
    ((standing .sleep 6).Inv ∧ ∃ t, step (standing .sleep 6) = .next t) :=
  ⟨⟨inv_standing rfl rfl, rfl⟩, ⟨inv_standing rfl rfl, _, rfl⟩⟩

/-- The three ends of a command and their codes. -/
theorem test_witness_ends :
    ((waiting .init 1 .tInit).running = true ∧
      ∃ t, answered1 (waiting .init 1 .tInit) 0x01 = .next t ∧ t.running = false ∧ t.result = 0xFF) ∧
    ((standing .getbuffer 2).running = true ∧ (standing .getbuffer 2).nextInput.rst = false ∧
      ∃ t, step (standing .getbuffer 2) = .next t ∧ t.running = false ∧ t.result = 0x02) ∧
    ∃ t, step { standing .getbuffer 2 with imgWLo := 0x68, imgHLo := 0xD4 } = .next t ∧ t.running = false ∧
      t.result = 0x00 := ⟨⟨rfl, _, rfl, rfl, rfl⟩, ⟨rfl, rfl, _, rfl, rfl, rfl⟩, _, rfl, rfl, rfl⟩

/-- A conversion whose image lacks its last byte only. -/
def imageShort : State :=
  { standing .getbuffer 1 with
    imgWLo := 0x68, imgHLo := 0xD4, mem := memWriteRun [] (memBase .imgMem) (List.replicate 2755 0xFF) }

/-- The stops of the engine: a stream at its first byte and at its last, and a conversion at the first byte and at the last. -/
theorem test_witness_engine_stops :
    ((standing .init 23).microOp = some (.stream .lutMem 30) ∧ (standing .init 23).port = none ∧
      (standing .init 23).memByte .lutMem 0 = none) ∧
    ({ standing .clear 2 with seqOp := .display, seqI := 2755 } : State).memByte .buf0 2755 = none ∧
    (imageShort.microOp = some (.convert false) ∧ imageShort.port = none ∧ imageShort.geometry ≠ .unsupported ∧
      2755 < 2756 ∧ imageShort.memByte .imgMem 2755 = none ∧ ∀ j < 2755, imageShort.memByte .imgMem j ≠ none) := by
  refine ⟨⟨rfl, rfl, rfl⟩, rfl, rfl, rfl, by decide, by decide, ?_, fun j hj => ?_⟩
  · rw [State.memByte, imageShort, memRead_memWriteRun, if_neg (by rw [List.length_replicate]; omega)]
    rfl
  · rw [State.memByte, imageShort, memRead_memWriteRun_at _ _ _ _ (by rw [List.length_replicate]; exact hj)]
    exact Option.some_ne_none _

/-- A clock of each form of a program, and one in which the host issues nothing. -/
theorem test_witness_forms : (∃ t, clock (Beat.join {} (writeIn 0x0003 30)) State.reset = .next t) ∧
    (∃ t, clock (Beat.join {} (readIn 0x0001)) State.reset = .next t) ∧
    (∃ t, clock (Beat.join { go := false } tickIn) State.reset = .next t) ∧ ({} : Beat).go = true ∧
    (HostRun.launch [.wr 0x0003 30] State.reset).todo = [.wr 0x0003 30] ∧
    (HostRun.launch [.poll 0x0001 0x04 0x00] State.reset).todo = [.poll 0x0001 0x04 0x00] :=
  ⟨⟨_, rfl⟩, ⟨_, rfl⟩, ⟨_, rfl⟩, rfl, rfl, rfl⟩

theorem test_witness_program_run : (∃ u, twoClocks [.wr 0x0003 30, .rd 0x0003] State.reset = .next u ∧ u.ended) ∧
    ∃ t, runEnv ((HostRun.launch [.wr 0x0003 30] State.reset).env fun _ => {}) 1 State.reset = .next t :=
  ⟨⟨_, rfl, rfl, rfl, rfl⟩, _, rfl⟩

/-- A run that has ended with a byte written in BUF1. -/
theorem test_witness_run_ends :
    (HostRun.launch [] { State.reset with mem := [(0x2AC3, 0x34)] }).ended ∧ 2755 < memSize .buf1 ∧
    memRead (HostRun.launch [] { State.reset with mem := [(0x2AC3, 0x34)] }).observe.mem (memBase .buf1 + 2755) =
      some 0x34 := ⟨⟨rfl, rfl, rfl⟩, by decide, rfl⟩

/-- A request that nobody answers. -/
theorem unanswered_run (n : Nat) :
    runEnv (fun _ => tickIn) n (waiting .init 3 (.delay 200)) = .next (waiting .init 3 (.delay 200)) := by
  induction n with
  | zero => rfl
  | succ n ih => rw [runEnv_succ ih]; rfl

theorem test_witness_stuck : (waiting .init 3 (.delay 200)).running = true ∧
    (waiting .init 3 (.delay 200)).port = some (.delay 200) ∧ tickIn.rst = false ∧ tickIn.tDone = false ∧
    NeverStops (fun _ => tickIn) (waiting .init 3 (.delay 200)) ∧
    Stuck (fun _ => tickIn) (waiting .init 3 (.delay 200)) :=
  ⟨rfl, rfl, rfl, rfl, fun n => ⟨_, unanswered_run n⟩, 0, _, fun m _ => ⟨rfl, _, unanswered_run m, rfl, rfl⟩⟩

/-- One clock of SLEEP's WaitReady that answers a busy level if a request is outstanding: the request of the index is
issued, or the other index is next. -/
theorem busy_clock {t : State} (h1 : t.seqOp = .sleep) (h2 : t.seqStep = 2) :
    ∃ u, clock (answerIn busyByte) t = .next u ∧ u.seqOp = .sleep ∧ u.seqStep = 2 ∧
      (t.port = none → u.waiting = true ∧ u.seqI = t.seqI ∧
        u.port = some (if t.seqI = 0 then .pinRead .busy else .delay Config.pollMs)) ∧
      (t.port ≠ none → u.waiting = t.waiting ∧ u.seqI = (if t.seqI = 0 then 1 else 0) ∧ u.port = none) := by
  have hr : t.running = true := by rw [running_iff, h1]; decide
  have hm : t.microOp = some .wait := by simp [State.microOp, State.ops, h1, h2]; rfl
  have hb : busyByte.getLsbD 0 ≠ Config.busyIdleLevel := by simp only [busyByte]; cases Config.busyIdleLevel <;> decide
  have hc : clock (answerIn busyByte) t = engineClock (answerIn busyByte) (t.quiet t.inputs) :=
    step_quiet (c := answerIn busyByte) (rest := t.inputs) hr rfl rfl rfl
  have hmq : (t.quiet t.inputs).microOp = some .wait := (microOp_quiet _ _).trans hm
  rw [hc]
  unfold engineClock
  cases hp : t.port with
  | none =>
    exact ⟨_, (by simp only [State.quiet, hp]; rfl : _ = engineStep (t.quiet t.inputs)).trans (engineStep_wait hmq hp),
      h1, h2, fun _ => ⟨rfl, rfl, rfl⟩, fun h => absurd rfl h⟩
  | some r =>
    exact ⟨_, (by simp only [State.quiet, hp]; rfl : _ = Host.Outcome.next (complete r busyByte (t.quiet t.inputs))).trans
      (congrArg _ (complete_busy hmq (fun _ => hb) r)), h1, h2, nofun, fun _ => ⟨rfl, rfl, rfl⟩⟩

/-- The run of SLEEP from its WaitReady, every clock answering busy: poll, answer, delay, answer, and so on. -/
theorem busy_run (n : Nat) : ∃ t, runEnv (fun _ => answerIn busyByte) n (standing .sleep 2) = .next t ∧
    t.seqOp = .sleep ∧ t.seqStep = 2 ∧ (1 ≤ n → t.waiting = true) ∧ t.seqI = (if n % 4 < 2 then 0 else 1) ∧
    t.port = if n % 2 = 0 then none else some (if t.seqI = 0 then .pinRead .busy else .delay Config.pollMs) := by
  induction n with
  | zero => exact ⟨_, rfl, rfl, rfl, nofun, rfl, rfl⟩
  | succ n ih =>
    obtain ⟨t, ht, h1, h2, h3, h4, h5⟩ := ih
    obtain ⟨u, hu, k1, k2, kn, ks⟩ := busy_clock h1 h2
    refine ⟨u, (runEnv_succ ht).trans hu, k1, k2, ?_⟩
    by_cases he : n % 2 = 0
    · obtain ⟨a, b, c⟩ := kn (by rw [h5, if_pos he])
      exact ⟨fun _ => a, by rw [b, h4]; exact if_congr (by omega) rfl rfl, by rw [if_neg (by omega), c, b]⟩
    · obtain ⟨a, b, c⟩ := ks (by rw [h5, if_neg he]; exact Option.some_ne_none _)
      refine ⟨fun _ => a.trans (h3 (by omega)), ?_, by rw [if_pos (by omega), c]⟩
      rw [b, h4]
      by_cases hh : n % 4 < 2
      · rw [if_pos hh, if_pos rfl, if_neg (by omega)]
      · rw [if_neg hh, if_neg (by decide), if_pos (by omega)]

theorem test_witness_hang : (standing .sleep 2).microOp = some .wait ∧ (standing .sleep 2).seqI = 0 ∧
    (standing .sleep 2).port = none ∧ (answerIn busyByte).rst = false ∧
    (answerIn busyByte).tRsp.getLsbD 0 ≠ Config.busyIdleLevel ∧ WeaklyFair (fun _ => answerIn busyByte) ∧
    (∀ n : Nat, ∃ m, n ≤ m ∧ (answerIn busyByte).tDone = true) ∧
    NeverStops (fun _ => answerIn busyByte) (standing .sleep 2) ∧
    Hang (fun _ => answerIn busyByte) (standing .sleep 2) := by
  refine ⟨rfl, rfl, rfl, rfl, ?_, fun n => ⟨n, le_refl n, rfl⟩, fun n => ⟨n, le_refl n, rfl⟩,
    fun n => (busy_run n).imp fun _ h => h.1, 1, fun m hm => ?_, fun m _ => ?_⟩
  · simp only [answerIn, busyByte]; cases Config.busyIdleLevel <;> decide
  · obtain ⟨t, ht, h1, -, h3, -⟩ := busy_run m
    exact ⟨t, ht, by rw [running_iff, h1]; decide, h3 hm⟩
  · obtain ⟨t, ht, -, -, -, h4, h5⟩ := busy_run (4 * m + 1)
    rw [if_pos (by omega)] at h4
    rw [if_neg (by omega), h4] at h5
    exact ⟨4 * m + 1, t, by omega, ht, h5, rfl⟩

/-- Where every clock answers without block reset, every request is answered in its own clock. -/
theorem transportAnswers_always {c : ClockIn} (h0 : c.rst = false) (hd : c.tDone = true) (s : State) :
    TransportAnswers (fun _ => c) s := fun n t r ht hp =>
  ⟨n, le_refl n, h0, hd, fun k h1 h2 => by rw [show k = n by omega]; exact ⟨t, ht, hp⟩, fun k h1 h2 => by omega⟩

/-- CLEAR's WaitReady with its poll outstanding, and its END. -/
def polling : State := { waiting .clear 8 (.pinRead .busy) with waiting := true }

/-- CLEAR after the idle answer, at its END. -/
def polled : State := { standing .clear 9 with log := [{ req := .pinRead .busy, rsp := some idleByte }] }

theorem idle_clock : clock (answerIn idleByte) polling = .next polled := by
  have hi : idleByte.getLsbD 0 = Config.busyIdleLevel := by simp only [idleByte]; cases Config.busyIdleLevel <;> decide
  have hs : clock (answerIn idleByte) polling = engineClock (answerIn idleByte) polling := rfl
  have e : engineClock (answerIn idleByte) polling = .next (complete (.pinRead .busy) idleByte polling) := rfl
  rw [hs, e, complete_idle rfl rfl hi]
  rfl

/-- The run of CLEAR from its WaitReady, every clock answering idle: the poll, the answer, END, and then nothing more. -/
theorem idle_run (n : Nat) : runEnv (fun _ => answerIn idleByte) (n + 3) (standing .clear 8) =
    .next (polled.finish 0x00 none) := by
  induction n with
  | zero =>
    have h1 : runEnv (fun _ => answerIn idleByte) 1 (standing .clear 8) = .next polling := rfl
    rw [runEnv_succ ((runEnv_succ h1).trans idle_clock)]
    rfl
  | succ n ih => rw [runEnv_succ ih]; rfl

theorem test_witness_commands_finish : (standing .clear 8).Inv ∧ (standing .clear 8).running = true ∧
    TransportAnswers (fun _ => answerIn idleByte) (standing .clear 8) ∧
    BusyEventuallyIdle (fun _ => answerIn idleByte) (standing .clear 8) ∧
    WeaklyFair (fun _ => answerIn idleByte) ∧ NeverStops (fun _ => answerIn idleByte) (standing .clear 8) := by
  have h1 : runEnv (fun _ => answerIn idleByte) 1 (standing .clear 8) = .next polling := rfl
  have h2 : runEnv (fun _ => answerIn idleByte) 2 (standing .clear 8) = .next polled :=
    (runEnv_succ h1).trans idle_clock
  have hi : idleByte.getLsbD 0 = Config.busyIdleLevel := by simp only [idleByte]; cases Config.busyIdleLevel <;> decide
  refine ⟨inv_standing rfl rfl, rfl, transportAnswers_always rfl rfl _, fun n t ht hw => ?_, fun n => ⟨n, le_refl n, rfl⟩,
    fun n => ?_⟩
  · match n with
    | 0 => cases ht; cases hw
    | 1 => exact ⟨1, _, le_refl 1, h1, rfl, rfl, rfl, hi⟩
    | 2 => rw [h2] at ht; cases ht; cases hw
    | n + 3 => rw [idle_run] at ht; cases ht; cases hw
  · match n with
    | 0 => exact ⟨_, rfl⟩
    | 1 => exact ⟨_, h1⟩
    | 2 => exact ⟨_, h2⟩
    | n + 3 => exact ⟨_, idle_run n⟩

/-- The invariant with a command running in weakly fair environments that never stop it: one in which the command ends, one
in which it hangs, and one in which it is stuck (the stuck run's state is test_witness_stuck's, a step earlier). -/
theorem test_witness_ends_hangs_or_is_stuck :
    ((standing .clear 8).Inv ∧ (standing .clear 8).running = true ∧ WeaklyFair (fun _ => answerIn idleByte) ∧
      NeverStops (fun _ => answerIn idleByte) (standing .clear 8) ∧
      ∃ n t, runEnv (fun _ => answerIn idleByte) n (standing .clear 8) = .next t ∧ Quiescent t) ∧
    ((standing .sleep 2).Inv ∧ (standing .sleep 2).running = true ∧ WeaklyFair (fun _ => answerIn busyByte) ∧
      NeverStops (fun _ => answerIn busyByte) (standing .sleep 2) ∧
      Hang (fun _ => answerIn busyByte) (standing .sleep 2)) ∧
    ((standing .init 3).Inv ∧ (standing .init 3).running = true ∧ WeaklyFair (fun _ => tickIn) ∧
      NeverStops (fun _ => tickIn) (standing .init 3) ∧ Stuck (fun _ => tickIn) (standing .init 3)) := by
  obtain ⟨i1, r1, -, -, f1, n1⟩ := test_witness_commands_finish
  obtain ⟨-, -, -, -, -, f2, -, n2, h2⟩ := test_witness_hang
  have run : ∀ n, runEnv (fun _ => tickIn) (n + 1) (standing .init 3) = .next (waiting .init 3 (.delay 200)) := by
    intro n
    induction n with
    | zero => rfl
    | succ n ih => rw [runEnv_succ ih]; rfl
  refine ⟨⟨i1, r1, f1, n1, 3, _, idle_run 0, rfl, rfl⟩, ⟨inv_standing rfl rfl, rfl, f2, n2, h2⟩, inv_standing rfl rfl, rfl,
    fun n => ⟨n, le_refl n, rfl⟩, fun n => ?_, 1, .delay 200, fun m hm => ?_⟩
  · cases n with
    | zero => exact ⟨_, rfl⟩
    | succ n => exact ⟨_, run n⟩
  · obtain ⟨n, rfl⟩ : ∃ n, m = n + 1 := ⟨m - 1, by omega⟩
    exact ⟨rfl, _, run n, rfl, rfl⟩

/-- A launch state that is the end of an earlier run. -/
theorem test_witness_launch : LaunchState State.reset ∧
    LaunchState (HostRun.launch [] State.reset).block :=
  ⟨.resetClean, .earlierEnd (beats := fun _ => {}) (prog := []) (n := 0) .resetClean ⟨rfl, rfl, rfl, rfl⟩⟩

end Sys2Proof.Tests
end

section
/-! The host's access in a step: `step` taken apart into the input it takes, the host's part and the engine's (O60). -/

namespace Sys2Proof.Machine

/-! ### The host's part of a clock, by its strobes -/

theorem hostClock_write_alone {c : ClockIn} (hw : c.hWe = true) (hr : c.hRe = false) (s : State) :
    hostClock c s = hostWrite c.hAddr c.hWdata (s.setRdata none) := by
  simp [hostClock, readBeside, hw, hr]

theorem hostClock_write_and_read {c : ClockIn} (hw : c.hWe = true) (hr : c.hRe = true) (s : State) :
    hostClock c s = hostWrite c.hAddr c.hWdata (s.setRdata none).drawRdata := by
  simp [hostClock, readBeside, hw, hr]

theorem hostClock_read_alone {c : ClockIn} (hw : c.hWe = false) (hr : c.hRe = true) (s : State) :
    hostClock c s = hostRead c.hAddr (s.setRdata none) := by
  simp [hostClock, hw, hr]

theorem hostClock_no_access {c : ClockIn} (hw : c.hWe = false) (hr : c.hRe = false) (s : State) :
    hostClock c s = .next (s.setRdata none) := by
  simp [hostClock, hw, hr]

/-! ### The step -/

/-- A step without block reset takes the clock's input, makes the host's part, and then the engine's where a command was
running before it (R90, R243). -/
theorem step_no_reset {s : State} {c : ClockIn} (hc : s.nextInput = c) (h0 : c.rst = false) :
    step s = andThen (hostClock c s.popInput) (engineIf s.running c) := by
  subst hc
  simp [step_eq, clock, h0, State.running]

theorem andThen_next {o : Out} {f : State → Out} {t : State} (h : andThen o f = .next t) :
    ∃ v, o = .next v ∧ f v = .next t := by
  cases o with
  | next v => exact ⟨v, rfl, h⟩
  | fault _ => cases h
  | refused _ => cases h

/-- The engine's part of a clock leaves what the host sees, also where it does not act. -/
theorem engineIf_hostSide {was : Bool} {c : ClockIn} {v t : State} (h : engineIf was c v = .next t) :
    t.hRdata = v.hRdata ∧ t.drop = v.drop ∧ t.draws = v.draws := by
  cases was with
  | true => exact engineClock_hostSide h
  | false => cases h; exact ⟨rfl, rfl, rfl⟩

/-! ### The byte a read gives -/

/-- What a read finds rests neither on the pending inputs nor on `h_rdata`. -/
theorem readTarget_popInput_setRdata (s : State) (v : Option Byte) (g : Target) :
    readTarget (s.popInput.setRdata v) g = readTarget s g := by
  cases g <;> rfl

/-- A read after the clock's input is taken and `h_rdata` cleared gives the byte that a read before it gives. -/
theorem hostRead_popInput_setRdata {a : Addr} {s u : State} {v : Option Byte}
    (h : hostRead a (s.popInput.setRdata v) = .next u) : ∃ r, hostRead a s = .next r ∧ u.hRdata = r.hRdata := by
  unfold hostRead at h ⊢
  rw [readTarget_popInput_setRdata] at h
  cases hb : readTarget s (target a) <;> rw [hb] at h <;> cases h <;> exact ⟨_, rfl, rfl⟩

/-- After a step with a read alone `h_rdata` is what a read of the state before it gives (R57, R90). -/
theorem step_read_hRdata {s t : State} {c : ClockIn} (hc : s.nextInput = c) (h0 : c.rst = false) (hw : c.hWe = false)
    (hr : c.hRe = true) (h : step s = .next t) : ∃ r, hostRead c.hAddr s = .next r ∧ t.hRdata = r.hRdata := by
  rw [step_no_reset hc h0, hostClock_read_alone hw hr] at h
  obtain ⟨u, hu, he⟩ := andThen_next h
  obtain ⟨r, hs, hd⟩ := hostRead_popInput_setRdata hu
  exact ⟨r, hs, (engineIf_hostSide he).1.trans hd⟩

/-- Settles O60: the step is the host's part, by its strobes, and then the engine's, which leaves the host's side. -/
theorem stepMakesTheHostAccess : Obligations.StepMakesTheHostAccess := by
  intro s c hc h0 u engine
  have key : step s = andThen (hostClock c s.popInput) engine := step_no_reset hc h0
  refine ⟨fun hw hr => ?_, fun hw hr => ?_, fun hw hr => ?_, fun hw hr => ?_, fun v t h => ?_, fun hw hr t h => ?_⟩
  · rw [key, hostClock_write_alone hw hr]; rfl
  · rw [key, hostClock_write_and_read hw hr]; rfl
  · rw [key, hostClock_read_alone hw hr]; rfl
  · rw [key, hostClock_no_access hw hr]; rfl
  · exact engineIf_hostSide h
  · exact step_read_hRdata hc h0 hw hr h

end Sys2Proof.Machine
end

section
/-! The registers of 10_state.md: the STATUS byte (O14), the image size (O36) and the state that reset leaves (O48). -/

namespace Sys2Proof.Machine

/-! ### The STATUS byte (R23) -/

/-- A byte put together as STATUS is gives each field back (R23): a table of 32 cases. -/
theorem status_fields_apart : ∀ (waiting drop running : Bool) (code : BitVec 2),
    let b : Byte := 0#3 ++ (BitVec.ofBool waiting ++ (BitVec.ofBool drop ++ (BitVec.ofBool running ++ code)))
    b.extractLsb' 0 2 = code ∧ b.getLsbD 2 = running ∧ b.getLsbD 3 = drop ∧ b.getLsbD 4 = waiting ∧
      b.extractLsb' 5 3 = 0#3 := by
  decide

/-- Settles O14, field by field; bit 2 is RUNNING, which is 1 exactly when SEQ.OP is not IDLE (R31). -/
theorem statusByteFields : Obligations.StatusByteFields := by
  intro s
  obtain ⟨hstate, hrun, hdrop, hwait, hzero⟩ :=
    status_fields_apart s.waiting s.drop s.running (lifecycleCode s.lifecycle)
  have hcode : lifecycleCode s.lifecycle =
      (match s.lifecycle with | .uninit => 0b00#2 | .ready => 0b01#2 | .slept => 0b10#2) := by
    cases s.lifecycle <;> rfl
  have hop : (statusByte s).getLsbD 2 = true ↔ s.seqOp ≠ .idle := by
    rw [← running_iff, ← hrun]
    rfl
  exact ⟨hstate.trans hcode, hop, hdrop, hwait, hzero⟩

/-! ### Values of two bytes (R27, R55) -/

/-- The value of a high byte above a low byte. -/
theorem toNat_hi_append_lo (hi lo : Byte) : (hi ++ lo).toNat = 256 * hi.toNat + lo.toNat := by
  rw [BitVec.toNat_append, ← Nat.shiftLeft_add_eq_or_of_lt lo.isLt, Nat.shiftLeft_eq, Nat.mul_comm]

/-- Settles O36: IMG_W and IMG_H are both a high byte above a low byte. -/
theorem imageSizeIsHighThenLowByte : Obligations.ImageSizeIsHighThenLowByte := fun s =>
  ⟨toNat_hi_append_lo s.imgWHi s.imgWLo, toNat_hi_append_lo s.imgHHi s.imgHLo⟩

/-! ### The reset state (R35) -/

/-- Settles O48: each clause is a field of the reset state, and its memories list no byte (I4). -/
theorem resetState : Obligations.ResetState :=
  ⟨reset_lifecycle, rfl, reset_drop, reset_waiting, reset_result, reset_lutLen, reset_imgWLo, reset_imgWHi,
    reset_imgHLo, reset_imgHHi, fun _ _ => memRead_nil _, reset_seqOp, rfl, reset_port⟩

end Sys2Proof.Machine
end

section
/-! A step with a CMD write (O15). -/

namespace Sys2Proof.Machine

/-- A host write at CMD whose byte decodes is the decoded instruction's meaning (R22, R215). -/
theorem hostWrite_cmd {v : Byte} {i : Instr} (h : decodeHost v = .ok i) (s : State) : hostWrite 0x0000 v s = exec i s := by
  have ht : target 0x0000 = .cmd := by decide
  rw [hostWrite, ht, writeTarget, writeCmd, h]

/-- Settles O15: the host's part of the step is the CMD write, and that is the decoded instruction's meaning. -/
theorem stepRunsTheWrittenCommand : Obligations.StepRunsTheWrittenCommand := by
  intro s c i hc h0 hw ha hd
  have host : hostClock c s.popInput = exec i (readBeside c.hRe (s.popInput.setRdata none)) := by
    rw [hostClock, if_pos hw, ha, hostWrite_cmd hd]
  rw [step_no_reset hc h0, host]

end Sys2Proof.Machine
end

section
/-! The invariant: reset meets it (O50) and every step keeps it (O51). One lemma per kind of transition: block reset, the
host's touch, a host write while no command runs, the transport's answer, an engine step. -/

namespace Sys2Proof.Machine

/-! ### States that meet the invariant -/

/-- The clauses of the invariant that speak of the memories, RESULT, the latched fields, the legality of the running
command and the trace, and not of where the sequencer stands inside its list. -/
structure State.Grounded (s : State) : Prop where
  canonical : memWf s.mem = true
  coded : s.result ∈ resultCodes
  layers : s.running = true → s.seqL = true → s.seqOp = .display
  dest : s.running = true → s.seqD = true → s.seqOp = .getbuffer
  legal : s.seqOp = .clear ∨ s.seqOp = .display ∨ s.seqOp = .sleep → s.lifecycle = .ready
  lut : s.seqOp = .init → s.lutLen = 30
  traced : ∀ e ∈ s.log, requestAllowed e.req = true

theorem State.Inv.grounded {s : State} (h : s.Inv) : s.Grounded := { h with }

/-- Where no command runs the sequencer stands nowhere. -/
theorem microOp_idle {s : State} (h : s.seqOp = .idle) : s.microOp = none := by
  cases hm : s.microOp with
  | none => rfl
  | some u => exact absurd h ((running_iff s).1 (running_of_microOp hm))

/-- Index 0 is in the range of every micro-operation of the lists: no stream and no fill is empty. -/
theorem indexOk_zero {u : MicroOp} (h : opListed u = true) : indexOk 0 u = true := by
  cases u with
  | stream m n =>
    obtain rfl : n = memSize m := by simpa [opListed] using h
    cases m <;> decide
  | fill b n =>
    obtain rfl : n = Config.bufBytes := by simpa [opListed] using h
    rfl
  | _ => rfl

/-- While no command runs, no request is outstanding and WAITING is 0, the invariant asks for the memories' form, RESULT's
code and the trace's requests only. -/
theorem inv_of_idle {s : State} (hop : s.seqOp = .idle) (hp : s.port = none) (hw : s.waiting = false)
    (hm : memWf s.mem = true) (hc : s.result ∈ resultCodes) (hl : ∀ e ∈ s.log, requestAllowed e.req = true) :
    s.Inv where
  canonical := hm
  coded := hc
  traced := hl
  placed hr := absurd hop ((running_iff s).1 hr)
  layers hr := absurd hop ((running_iff s).1 hr)
  dest hr := absurd hop ((running_iff s).1 hr)
  legal := by simp [hop]
  lut := by simp [hop]
  waitsInside := by simp [hw]
  waitsShown := by simp [microOp_idle hop]
  issued := by simp [hp]

/-- At the first index of a micro-operation, with no request outstanding and WAITING 0, the grounded clauses are enough. -/
theorem inv_of_entering {s : State} {u : MicroOp} (h : s.Grounded) (hu : s.microOp = some u) (hi : s.seqI = 0)
    (hp : s.port = none) (hw : s.waiting = false) : s.Inv where
  __ := h
  placed _ := ⟨u, hu, hi ▸ indexOk_zero (microOp_listed hu)⟩
  waitsInside := by simp [hw]
  waitsShown := by simp [hp, hi]
  issued := by simp [hp]

/-! ### What the invariant says where the sequencer stands -/

/-- WAITING is 0 outside WaitReady. -/
theorem State.Inv.not_waiting {s : State} (h : s.Inv) (hm : s.microOp ≠ some .wait) : s.waiting = false :=
  Bool.eq_false_iff.2 fun hw => hm (h.waitsInside hw)

/-- An outstanding request is one the block may issue, and the sequencer stands at the micro-operation that issued it, which
is neither a conversion nor END. -/
theorem State.Inv.outstanding {s : State} {r : Request} (h : s.Inv) (hp : s.port = some r) :
    ∃ u, s.microOp = some u ∧ opFinishes u = false ∧ (∀ k, u ≠ .convert k) ∧ requestAllowed r = true := by
  obtain ⟨i, ha, hr⟩ := h.issued r hp
  cases hu : s.microOp with
  | none => simp [engineAct, hu] at ha
  | some u =>
    have ha : actOf s u = .ok (.run i) := by simpa [engineAct, hu] using ha
    rcases actOf_cases (s := s) (microOp_listed hu) with ⟨j, q, hj, hq, -, hal, hf⟩ | ⟨k, -, hk⟩ | ⟨c, st, -, hk⟩ |
        ⟨m, n, -, -, hk⟩
    · obtain rfl : j = i := by simpa [hj] using ha
      obtain rfl : q = r := by simpa [hq] using hr
      exact ⟨u, rfl, hf, fun k hk => (by subst hk; cases hj), hal⟩
    all_goals simp [hk] at ha

/-- No request is outstanding while no command runs (R33). -/
theorem State.Inv.port_idle {s : State} (h : s.Inv) (hr : s.running = false) : s.port = none := by
  cases hp : s.port with
  | none => rfl
  | some r =>
    obtain ⟨u, hu, -⟩ := h.outstanding hp
    simp [running_of_microOp hu] at hr

theorem State.Inv.not_waiting_idle {s : State} (h : s.Inv) (hr : s.running = false) : s.waiting = false :=
  h.not_waiting (by simp [microOp_idle ((not_running_iff s).1 hr)])

/-! ### Reset -/

/-- Settles O50: at reset no command runs, the memories and the trace are empty, and RESULT is 0x00. -/
theorem resetMeetsInvariant : Obligations.ResetMeetsInvariant :=
  inv_of_idle reset_seqOp reset_port reset_waiting memWf_nil (by decide) (by simp)

/-- Block reset keeps the invariant: the request it abandons is one the block may issue. -/
theorem inv_blockReset {s : State} (h : s.Inv) : s.blockReset.Inv := by
  refine inv_of_idle rfl rfl rfl memWf_nil (show codeOk ∈ resultCodes by decide) fun e he => ?_
  rw [blockReset_log, abandonedLog] at he
  split at he
  · exact h.traced e he
  · next r hp =>
    obtain ⟨-, -, -, -, hal⟩ := h.outstanding hp
    rcases List.mem_cons.1 he with rfl | he
    · exact hal
    · exact h.traced e he

/-! ### The host's part of a clock -/

theorem inv_popInput {s : State} (h : s.Inv) : s.popInput.Inv := { h with }

/-- The invariant does not speak of DROP, `h_rdata` and the model's counter. -/
theorem inv_hostTouch {s t : State} (ht : HostTouch s t) (h : s.Inv) : t.Inv := by
  rw [ht.eq]
  exact { h with }

/-- The list of a command begins with a micro-operation. -/
theorem microOp_start {op : SeqOp} (hop : op ≠ .idle) (l d : Bool) (s : State) :
    ∃ u, (s.start op l d).microOp = some u := by
  cases op with
  | idle => exact absurd rfl hop
  | init => exact ⟨_, rfl⟩
  | clear => exact ⟨_, rfl⟩
  | display => exact ⟨_, rfl⟩
  | sleep => exact ⟨_, rfl⟩
  | getbuffer => exact ⟨_, rfl⟩

/-- A host write while no command runs keeps the invariant. -/
theorem inv_idleWrite {s t : State} (h : s.Inv) (hr : s.running = false) (hw : IdleWrite s t) : t.Inv := by
  have hop := (not_running_iff s).1 hr
  have hp := h.port_idle hr
  have hwait := h.not_waiting_idle hr
  cases hw with
  | ignored => exact h
  | lutLen v => exact inv_of_idle hop hp hwait h.canonical h.coded h.traced
  | imgWLo v => exact inv_of_idle hop hp hwait h.canonical h.coded h.traced
  | imgWHi v => exact inv_of_idle hop hp hwait h.canonical h.coded h.traced
  | imgHLo v => exact inv_of_idle hop hp hwait h.canonical h.coded h.traced
  | imgHHi v => exact inv_of_idle hop hp hwait h.canonical h.coded h.traced
  | cell m i v hi =>
    exact inv_of_idle hop hp hwait (memWf_memWrite h.canonical (isStored_base m hi)) h.coded h.traced
  | rejected c hc => exact inv_of_idle hop hp hwait h.canonical hc h.traced
  | started op l d hne hl hd hlut hst =>
    obtain ⟨u, hu⟩ := microOp_start hne l d s
    have hg : (s.start op l d).Grounded :=
      { h with layers := fun _ => hl, dest := fun _ => hd, legal := hst, lut := hlut }
    exact inv_of_entering hg hu rfl hp hwait

/-! ### The transport's answer -/

/-- An answer keeps the grounded clauses where its request is one the block may issue. -/
theorem grounded_answer {s : State} {r : Request} (h : s.Grounded) (hal : requestAllowed r = true) (x : Byte) :
    (s.answer r x).Grounded :=
  { h with traced := List.forall_mem_cons.2 ⟨hal, h.traced⟩ }

/-- After an answer the sequencer may go on in its micro-operation, at any index in range: inside a WaitReady WAITING
stays 1. -/
theorem inv_answer_setIndex {s : State} {u : MicroOp} {r : Request} {j : Nat} (h : s.Inv) (hp : s.port = some r)
    (hal : requestAllowed r = true) (hu : s.microOp = some u) (hj : indexOk j u = true) (x : Byte) :
    ((s.answer r x).setIndex j).Inv where
  __ := grounded_answer h.grounded hal x
  placed _ := ⟨u, hu, hj⟩
  waitsInside := h.waitsInside
  waitsShown hm _ := h.waitsShown hm (.inl (by simp [hp]))
  issued := nofun

/-- The transport's answer keeps the invariant. -/
theorem inv_complete {s : State} {r : Request} (h : s.Inv) (hp : s.port = some r) (x : Byte) : (complete r x s).Inv := by
  obtain ⟨u, hu, hf, hk, hal⟩ := h.outstanding hp
  have hg := grounded_answer h.grounded hal x
  obtain ⟨v, hv⟩ := microOp_next hu hf
  rcases complete_cases hu r x with ⟨-, hw, he⟩ | ⟨rfl, -, -, he⟩ | ⟨rfl, -, -, he⟩ | ⟨rfl, -, he⟩ | ⟨n, hn, hlt, he⟩ |
      ⟨rfl, -, he⟩ | ⟨hc, he⟩ <;> rw [he]
  · exact inv_of_entering (u := v) { hg with } hv rfl rfl (h.not_waiting (by simpa [hu] using hw))
  · exact inv_of_entering (u := v) { hg with } hv rfl rfl rfl
  · exact inv_answer_setIndex h hp hal hu rfl x
  · exact inv_answer_setIndex h hp hal hu rfl x
  · refine inv_answer_setIndex h hp hal hu ?_ x
    rcases hn with ⟨m, rfl⟩ | ⟨b, rfl⟩ <;> exact decide_eq_true hlt
  · exact inv_of_idle rfl rfl (h.not_waiting (by simp [hu])) hg.canonical (show codeTransportInit ∈ resultCodes by decide)
      hg.traced
  · rcases hc with hc | ⟨k, hc⟩
    · simp [hf] at hc
    · exact absurd hc (hk k)

/-! ### An engine step -/

/-- Raising the request that the sequencer's place issues keeps the invariant: WAITING is set inside a WaitReady (R110). -/
theorem inv_raise {s : State} {i : Instr} {r : Request} (h : s.Inv) (ha : engineAct s = .ok (.run i))
    (hi : requestOf i = some r) : (s.enterWait.raise r).Inv := by
  rw [enterWait_eq]
  exact
    { h with
      waitsInside := fun hw => by
        rcases Bool.or_eq_true_iff.1 hw with hw | hw
        · exact h.waitsInside hw
        · exact of_decide_eq_true hw
      waitsShown := fun hm _ => Bool.or_eq_true_iff.2 (.inr (decide_eq_true hm))
      issued := fun q hq => ⟨i, ha, by rw [hi]; exact hq⟩ }

/-- Writing a whole PanelBuffer keeps the memories' canonical form. -/
theorem memWf_writeBuf {s : State} {k : Bool} {bytes : List Byte} (h : memWf s.mem = true) (hl : bytes.length = 2756) :
    memWf (s.writeBuf k bytes).mem = true := by
  have hsize : memSize (bufOf k) = 2756 := by cases k <;> rfl
  exact memWf_memWriteRun h fun i hi => isStored_base _ (by omega)

/-- An engine step keeps the invariant. -/
theorem inv_engineStep {s t : State} (h : s.Inv) (hr : s.running = true) (hp : s.port = none)
    (he : engineStep s = .next t) : t.Inv := by
  obtain ⟨u, hu, -⟩ := h.placed hr
  rcases engineStep_cases hu hp with ⟨i, r, ha, hi, -, -, hs⟩ | ⟨k, bytes, rfl, hl, hs⟩ | ⟨c, st, rfl, hs⟩ |
      ⟨a, -, -, hs⟩ | ⟨m, n, -, -, hs⟩ <;> rw [hs] at he <;> cases he
  · exact inv_raise h ha hi
  · obtain ⟨v, hv⟩ := microOp_next hu rfl
    have hg : (s.writeBuf k bytes).advance.Grounded := { h with canonical := memWf_writeBuf h.canonical hl }
    exact inv_of_entering hg (u := v) hv rfl hp (h.not_waiting (by simp [hu]))
  · have hc : c ∈ resultCodes := by simpa [opListed] using microOp_listed hu
    exact inv_of_idle rfl hp (h.not_waiting (by simp [hu])) h.canonical hc h.traced

/-! ### A clock -/

/-- One clock keeps the invariant, whatever its inputs are. -/
theorem inv_clock {c : ClockIn} {s t : State} (h : s.Inv) (ht : clock c s = .next t) : t.Inv := by
  rcases clock_cases ht with ⟨-, rfl⟩ | ⟨-, hr, hh⟩ | ⟨h0, hr, -⟩
  · exact inv_blockReset h
  · obtain ⟨v, hv, hw⟩ := hostClock_idle hr hh
    exact inv_idleWrite (inv_hostTouch hv h) ((hostTouch_running hv).trans hr) hw
  · obtain ⟨v, hv, hc⟩ := clock_running_cases hr h0 ht
    have hi := inv_hostTouch hv h
    have hp : v.port = s.port := by rw [hv.eq]
    rcases hc with ⟨-, rfl⟩ | ⟨r, hs, -, rfl⟩ | ⟨hs, -, he⟩
    · exact hi
    · exact inv_complete hi (hp.trans hs) _
    · exact inv_engineStep hi ((hostTouch_running hv).trans hr) (hp.trans hs) he

/-- Settles O51: a step is a clock on the state with its input taken, and a clock keeps the invariant. -/
theorem stepKeepsInvariant : Obligations.StepKeepsInvariant := fun s _ h ht =>
  inv_clock (inv_popInput h) ((step_eq s).symm.trans ht)

end Sys2Proof.Machine
end

section
/-! Who writes STATE and RESULT: the END of a command, INIT's failed T_INIT and block reset (O40, O41). -/

namespace Sys2Proof.Machine

/-! ### The ENDs of the lists -/

theorem ends_initOps : initOps.filter opFinishes = [.finish codeOk (some .ready)] := rfl

theorem ends_clearOps : clearOps.filter opFinishes = [.finish codeOk none] := rfl

theorem ends_displayOps (l : Bool) : (displayOps l).filter opFinishes = [.finish codeOk none] := by cases l <;> rfl

theorem ends_sleepOps : sleepOps.filter opFinishes = [.finish codeOk (some .slept)] := rfl

theorem ends_getbufferOps (d : Bool) (code : Byte) : (getbufferOps d code).filter opFinishes = [.finish code none] := rfl

/-- The END of a list: INIT's and SLEEP's give a state, GETBUFFER's gives the geometry's code, the others 0x00 (R120, R140,
R160, R164, R167). -/
theorem finish_cases {s : State} {code : Byte} {st : Option Lifecycle} (h : s.microOp = some (.finish code st)) :
    (s.seqOp = .init ∧ code = codeOk ∧ st = some .ready) ∨ (s.seqOp = .sleep ∧ code = codeOk ∧ st = some .slept) ∨
    (s.seqOp = .getbuffer ∧ code = s.geometryCode ∧ st = none) ∨
    (s.seqOp ≠ .getbuffer ∧ code = codeOk ∧ st = none) := by
  have hm : MicroOp.finish code st ∈ s.ops.filter opFinishes := List.mem_filter.2 ⟨microOp_mem h, rfl⟩
  cases ho : s.seqOp with
  | idle => simp [State.ops, ho] at hm
  | init => exact .inl ⟨rfl, by simpa [State.ops, ho, ends_initOps] using hm⟩
  | clear => exact .inr (.inr (.inr ⟨nofun, by simpa [State.ops, ho, ends_clearOps] using hm⟩))
  | display => exact .inr (.inr (.inr ⟨nofun, by simpa [State.ops, ho, ends_displayOps] using hm⟩))
  | sleep => exact .inr (.inl ⟨rfl, by simpa [State.ops, ho, ends_sleepOps] using hm⟩)
  | getbuffer => exact .inr (.inr (.inl ⟨rfl, by simpa [State.ops, ho, ends_getbufferOps] using hm⟩))

/-- An END that gives a state is INIT's or SLEEP's, and its code is 0x00 (R24). -/
theorem finish_state_cases {s : State} {code : Byte} {x : Lifecycle} (h : s.microOp = some (.finish code (some x))) :
    code = codeOk ∧ (s.seqOp = .init ∧ x = .ready ∨ s.seqOp = .sleep ∧ x = .slept) := by
  rcases finish_cases h with ⟨ho, hc, hx⟩ | ⟨ho, hc, hx⟩ | ⟨-, -, hx⟩ | ⟨-, -, hx⟩
  · exact ⟨hc, .inl ⟨ho, Option.some.inj hx⟩⟩
  · exact ⟨hc, .inr ⟨ho, Option.some.inj hx⟩⟩
  all_goals cases hx

/-- The code of an END: 0x02 at a GETBUFFER of unsupported geometry, else 0x00 (R148, R211). -/
theorem finish_code_cases {s : State} {code : Byte} {st : Option Lifecycle} (h : s.microOp = some (.finish code st)) :
    (s.seqOp = .getbuffer ∧ s.geometry = .unsupported ∧ code = codeGeometry ∧ st = none) ∨
    ((s.seqOp = .getbuffer → s.geometry ≠ .unsupported) ∧ code = codeOk) := by
  rcases finish_cases h with ⟨ho, hc, -⟩ | ⟨ho, hc, -⟩ | ⟨ho, hc, hst⟩ | ⟨ho, hc, -⟩
  · exact .inr ⟨by simp [ho], hc⟩
  · exact .inr ⟨by simp [ho], hc⟩
  · cases hg : s.geometry <;> simp only [State.geometryCode, hg] at hc
    · exact .inr ⟨fun _ => nofun, hc⟩
    · exact .inr ⟨fun _ => nofun, hc⟩
    · exact .inl ⟨ho, rfl, hc, hst⟩
  · exact .inr ⟨fun hb => absurd hb ho, hc⟩

theorem tinit_not_mem_clearOps : .tinit ∉ clearOps := by decide

theorem tinit_not_mem_displayOps (l : Bool) : .tinit ∉ displayOps l := by cases l <;> decide

theorem tinit_not_mem_sleepOps : .tinit ∉ sleepOps := by decide

/-- T_INIT stands in INIT's list only. -/
theorem seqOp_of_tinit {s : State} (h : s.microOp = some .tinit) : s.seqOp = .init := by
  have hm := microOp_mem h
  cases ho : s.seqOp with
  | idle => simp [State.ops, ho] at hm
  | init => rfl
  | clear => simp [State.ops, ho, tinit_not_mem_clearOps] at hm
  | display => simp [State.ops, ho, tinit_not_mem_displayOps] at hm
  | sleep => simp [State.ops, ho, tinit_not_mem_sleepOps] at hm
  | getbuffer => simp [State.ops, ho, getbufferOps] at hm

/-! ### What a clock of a running command writes -/

/-- At END, with no request outstanding, an engine step ends the command. -/
theorem engineStep_finish {s : State} {code : Byte} {st : Option Lifecycle} (h : s.microOp = some (.finish code st)) :
    engineStep s = .next (s.finish code st) := by
  simp [engineStep, engineAct, h, actOf]

/-- What one clock of a running command without block reset does to RUNNING, RESULT and STATE. -/
inductive EndWrite (c : ClockIn) (s t : State) : Prop where
  /-- the command goes on -/
  | goesOn (running : t.running = true) (result : t.result = s.result) (lifecycle : t.lifecycle = s.lifecycle)
  /-- INIT ends, its T_INIT answered with a nonzero status (R123) -/
  | failed (inside : s.microOp = some .tinit) (out : s.port ≠ none) (done : c.tDone = true) (status : c.tRsp ≠ 0x00)
      (running : t.running = false) (result : t.result = codeTransportInit) (lifecycle : t.lifecycle = s.lifecycle)
  /-- the command ends at END -/
  | ended (code : Byte) (st : Option Lifecycle) (inside : s.microOp = some (.finish code st)) (free : s.port = none)
      (running : t.running = false) (result : t.result = code) (lifecycle : t.lifecycle = st.getD s.lifecycle)

theorem endWrite_complete {c : ClockIn} {s : State} {r : Request} (hr : s.running = true) (hp : s.port = some r)
    (hd : c.tDone = true) : EndWrite c s (complete r c.tRsp s) := by
  cases hu : s.microOp with
  | none =>
    have he : complete r c.tRsp s = s.answer r c.tRsp := by simp [complete, hu]
    rw [he]
    exact .goesOn hr rfl rfl
  | some u =>
    rcases complete_cases hu r c.tRsp with ⟨-, -, he⟩ | ⟨-, -, -, he⟩ | ⟨-, -, -, he⟩ | ⟨-, -, he⟩ | ⟨n, -, -, he⟩ |
        ⟨rfl, hx, he⟩ | ⟨-, he⟩ <;> rw [he]
    case inr.inr.inr.inr.inr.inl => exact .failed hu (by simp [hp]) hd hx rfl rfl rfl
    all_goals exact .goesOn hr rfl rfl

theorem endWrite_engineStep {c : ClockIn} {s t : State} (hr : s.running = true) (hp : s.port = none)
    (h : engineStep s = .next t) : EndWrite c s t := by
  cases hu : s.microOp with
  | none => simp [engineStep, engineAct, hu] at h
  | some u =>
    rcases engineStep_cases hu hp with ⟨i, r, -, -, -, -, hs⟩ | ⟨k, bytes, -, -, hs⟩ | ⟨code, st, rfl, hs⟩ |
        ⟨a, -, -, hs⟩ | ⟨m, n, -, -, hs⟩ <;> rw [hs] at h <;> cases h
    · rw [enterWait_eq]
      exact .goesOn hr rfl rfl
    · exact .goesOn hr rfl rfl
    · exact .ended code st hu hp rfl rfl rfl

/-- The host's touch in a clock does not bear on what the clock writes at a command's end. -/
theorem endWrite_hostTouch {c : ClockIn} {s v t : State} (hv : HostTouch s v) (h : EndWrite c v t) : EndWrite c s t := by
  have hm := microOp_congr (samePlace_hostTouch hv)
  have hp : v.port = s.port := by rw [hv.eq]
  have hres : v.result = s.result := by rw [hv.eq]
  have hlife : v.lifecycle = s.lifecycle := by rw [hv.eq]
  cases h with
  | goesOn r x l => exact .goesOn r (x.trans hres) (l.trans hlife)
  | failed i o d z r x l => exact .failed (hm ▸ i) (hp ▸ o) d z r x (l.trans hlife)
  | ended code st i f r x l => exact .ended code st (hm ▸ i) (hp ▸ f) r x (hlife ▸ l)

/-- What one clock of a running command does at its end. -/
theorem clock_endWrite {c : ClockIn} {s t : State} (hr : s.running = true) (h0 : c.rst = false)
    (h : clock c s = .next t) : EndWrite c s t := by
  obtain ⟨v, hv, hc⟩ := clock_running_cases hr h0 h
  have hr' : v.running = true := (hostTouch_running hv).trans hr
  have hp : v.port = s.port := by rw [hv.eq]
  refine endWrite_hostTouch hv ?_
  rcases hc with ⟨-, rfl⟩ | ⟨r, hs, hd, rfl⟩ | ⟨hs, -, he⟩
  · exact .goesOn hr' rfl rfl
  · exact endWrite_complete hr' (hp.trans hs) hd
  · exact endWrite_engineStep hr' (hp.trans hs) he

/-- What one step of a running command does at its end. -/
theorem step_endWrite {s t : State} (hr : s.running = true) (h0 : s.nextInput.rst = false) (h : step s = .next t) :
    EndWrite s.nextInput s t := by
  have hm : s.popInput.microOp = s.microOp := microOp_congr (samePlace_popInput s)
  cases clock_endWrite (s := s.popInput) hr h0 h with
  | goesOn r x l => exact .goesOn r x l
  | failed i o d z r x l => exact .failed (hm ▸ i) o d z r x l
  | ended code st i f r x l => exact .ended code st (hm ▸ i) f r x l

/-- A host write while no command runs leaves STATE. -/
theorem idleWrite_lifecycle {s t : State} (h : IdleWrite s t) : t.lifecycle = s.lifecycle := by
  cases h <;> rfl

/-- A step without block reset in which no command runs leaves STATE. -/
theorem step_idle_lifecycle {s t : State} (hr : s.running = false) (h0 : s.nextInput.rst = false)
    (h : step s = .next t) : t.lifecycle = s.lifecycle := by
  rcases clock_cases h with ⟨h1, -⟩ | ⟨-, -, hh⟩ | ⟨-, h1, -⟩
  · simp [h0] at h1
  · obtain ⟨v, hv, hw⟩ := hostClock_idle (s := s.popInput) hr hh
    have hl : v.lifecycle = s.lifecycle := by rw [hv.eq]; rfl
    exact (idleWrite_lifecycle hw).trans hl
  · simp [hr] at h1

/-- A step that changes STATE is block reset, or it ends a command at an END that gives the state (R24). -/
theorem step_lifecycle_changed {s t : State} (h : step s = .next t) (hne : t.lifecycle ≠ s.lifecycle) :
    (s.nextInput.rst = true ∧ t.lifecycle = .uninit) ∨
    (s.nextInput.rst = false ∧ t.running = false ∧
      ∃ code x, s.microOp = some (.finish code (some x)) ∧ t.result = code ∧ t.lifecycle = x) := by
  cases h0 : s.nextInput.rst with
  | true =>
    rw [step_eq, clock_reset h0] at h
    cases h
    exact .inl ⟨rfl, rfl⟩
  | false =>
    cases hr : s.running with
    | false => exact absurd (step_idle_lifecycle hr h0 h) hne
    | true =>
      cases step_endWrite hr h0 h with
      | goesOn _ _ l => exact absurd l hne
      | failed _ _ _ _ _ _ l => exact absurd l hne
      | ended code st i _ r x l =>
        cases st with
        | none => exact absurd l hne
        | some y => exact .inr ⟨rfl, r, code, y, i, x, l⟩

/-- Settles O40: a step that changes STATE is block reset or an END with a state, which is INIT's or SLEEP's; and the engine
step at an END writes the state it gives. -/
theorem onlyInitAndSleepWriteState : Obligations.OnlyInitAndSleepWriteState := by
  refine ⟨fun s t h hne => ?_, fun s code st rest hm hp => ?_⟩
  · rcases step_lifecycle_changed h hne with hreset | ⟨h0, hr, code, x, hm, hres, hlife⟩
    · exact .inl hreset
    · obtain ⟨rfl, ⟨ho, rfl⟩ | ⟨ho, rfl⟩⟩ := finish_state_cases hm
      · exact .inr (.inl ⟨h0, ho, hm, hlife, hres, hr⟩)
      · exact .inr (.inr ⟨h0, ho, hm, hlife, hres, hr⟩)
  · have hs : step { s with inputs := tickIn :: rest } = .next ((s.quiet rest).finish code (some st)) := by
      rw [step_tick (running_of_microOp hm) hp, engineStep_finish ((microOp_quiet rest s).trans hm)]
    exact ⟨_, (runFrom_succ (n := 0) hs).trans (runFrom_zero _ _), rfl, rfl⟩

/-- Settles O41: a clock of a running command goes on, fails at T_INIT's answer, or ends at END with the code of its list. -/
theorem resultIsWrittenAtTheEnd : Obligations.ResultIsWrittenAtTheEnd := by
  intro s t h hr h0
  cases step_endWrite hr h0 h with
  | goesOn running result lifecycle => exact ⟨fun _ => ⟨result, lifecycle⟩, fun hn => by simp [running] at hn⟩
  | failed inside out done status running result _ =>
    exact ⟨fun hn => by simp [running] at hn,
      fun _ => .inl ⟨seqOp_of_tinit inside, inside, out, done, status, result⟩⟩
  | ended code st inside free running result _ =>
    refine ⟨fun hn => by simp [running] at hn, fun _ => .inr ?_⟩
    rcases finish_code_cases inside with ⟨ho, hg, rfl, rfl⟩ | ⟨hg, rfl⟩
    · exact .inl ⟨ho, hg, inside, free, result⟩
    · exact .inr ⟨⟨st, inside⟩, free, hg, result⟩

end Sys2Proof.Machine
end

section
/-! The host address map (O12): what the target of an address is, and which addresses are writable and which reserved. -/

namespace Sys2Proof.Machine

/-! ### Block memories and registers among the addresses -/

/-- The addresses of the block memories by the numbers of the map are the stored ones (R50). -/
theorem memoryAddr_eq_isStored (n : Nat) : memoryAddr n = isStored n := by
  rw [Bool.eq_iff_iff]
  simp only [memoryAddr, isStored, Bool.or_eq_true, Bool.and_eq_true, decide_eq_true_eq, inMem_iff, memBase, memSize,
    Config.lutBytes, Config.bufBytes]
  omega

/-- The block memories do not overlap. -/
theorem inMem_unique {m k : BlockMem} {n : Nat} (hm : inMem m n = true) (hk : inMem k n = true) : k = m := by
  rw [inMem_iff] at hm hk
  cases m <;> cases k <;> try rfl
  all_goals
    simp only [memBase, memSize, Config.lutBytes, Config.bufBytes] at hm hk
    omega

/-- An address of a block memory reaches that memory. -/
theorem target_of_inMem {m : BlockMem} {a : Addr} (h : inMem m a.toNat = true) : target a = cellAt m a.toNat := by
  have apart : ∀ k, k ≠ m → inMem k a.toNat = false := fun k hk => Bool.eq_false_iff.2 fun hin => hk (inMem_unique h hin)
  cases m with
  | lutMem => simp [target, h]
  | buf0 => simp [target, h, apart .lutMem nofun]
  | buf1 => simp [target, h, apart .lutMem nofun, apart .buf0 nofun]
  | imgMem => simp [target, h, apart .lutMem nofun, apart .buf0 nofun, apart .buf1 nofun]

/-- Outside the block memories an address reaches a register or is reserved. -/
theorem target_of_not_stored {a : Addr} (h : isStored a.toNat = false) : target a = registerAt a.toNat := by
  simp only [isStored, Bool.or_eq_false_iff] at h
  obtain ⟨⟨⟨hlut, hbuf0⟩, hbuf1⟩, himg⟩ := h
  simp [target, hlut, hbuf0, hbuf1, himg]

theorem exists_inMem {n : Nat} (h : isStored n = true) : ∃ m, inMem m n = true := by
  simp only [isStored, Bool.or_eq_true] at h
  obtain ((h | h) | h) | h := h <;> exact ⟨_, h⟩

/-- Byte `i` of a block memory stands at the memory's base plus `i`. -/
theorem target_base_add (m : BlockMem) {i : Nat} (h : i < memSize m) :
    target (BitVec.ofNat 16 (memBase m + i)) = .cell m i := by
  have hn : (BitVec.ofNat 16 (memBase m + i)).toNat = memBase m + i := by
    rw [BitVec.toNat_ofNat]
    cases m <;> simp only [memBase, memSize, Config.lutBytes, Config.bufBytes] at h ⊢ <;> omega
  have hin : inMem m (memBase m + i) = true := inMem_iff.2 ⟨by omega, by omega⟩
  rw [target_of_inMem (m := m) (by rw [hn]; exact hin), hn, cellAt, Nat.add_sub_cancel_left]

/-- The registers end at 0x0007. -/
theorem registerAt_reserved {n : Nat} (h : 8 ≤ n) : registerAt n = .reserved := by
  obtain ⟨k, rfl⟩ := Nat.exists_eq_add_of_le' h
  rfl

theorem target_reserved {a : Addr} (h : reservedAddr a.toNat = true) : target a = .reserved := by
  simp only [reservedAddr, Bool.and_eq_true, decide_eq_true_eq, Bool.not_eq_true'] at h
  obtain ⟨hge, hmem⟩ := h
  rw [memoryAddr_eq_isStored] at hmem
  rw [target_of_not_stored hmem, registerAt_reserved hge]

/-- Settles O12: the registers by computation, the memories' bytes and the reserved addresses by their lemmas. -/
theorem addressMap : Obligations.AddressMap :=
  ⟨by decide, by decide, by decide, by decide, by decide, by decide, by decide, by decide,
    fun _ h => target_base_add .lutMem h, fun _ h => target_base_add .buf0 h, fun _ h => target_base_add .buf1 h,
    fun _ h => target_base_add .imgMem h, fun _ h => target_reserved h⟩

/-! ### The address of a target -/

/-- The one address at which a target stands; the reserved addresses share theirs. -/
def Target.address : Target → Option Nat
  | .cmd => some 0x0000
  | .status => some 0x0001
  | .result => some 0x0002
  | .lutLen => some 0x0003
  | .imgWLo => some 0x0004
  | .imgWHi => some 0x0005
  | .imgHLo => some 0x0006
  | .imgHHi => some 0x0007
  | .cell m i => some (memBase m + i)
  | .reserved => none

theorem address_registerAt {n : Nat} (h : registerAt n ≠ .reserved) : (registerAt n).address = some n := by
  by_cases hn : n < 8
  · interval_cases n <;> rfl
  · exact absurd (registerAt_reserved (by omega)) h

theorem address_target {a : Addr} (h : target a ≠ .reserved) : (target a).address = some a.toNat := by
  cases hs : isStored a.toNat with
  | true =>
    obtain ⟨m, hm⟩ := exists_inMem hs
    rw [target_of_inMem hm, cellAt, Target.address, Nat.add_sub_cancel' (inMem_iff.1 hm).1]
  | false =>
    rw [target_of_not_stored hs] at h ⊢
    exact address_registerAt h

/-- A target that is not reserved stands at no other address. -/
theorem address_target_ne {a b : Addr} (ha : target a ≠ .reserved) (hne : b ≠ a) :
    (target b).address ≠ (target a).address := by
  rw [address_target ha]
  by_cases hb : target b = .reserved
  · rw [hb]
    exact nofun
  · rw [address_target hb]
    exact fun h => hne (BitVec.eq_of_toNat_eq (Option.some.inj h))

/-! ### The targets a host write can change -/

/-- What the host can write: CMD, LUT_LEN, the IMG registers and the block memories (R56). -/
def Target.writable : Target → Bool
  | .cmd => true
  | .status => false
  | .result => false
  | .lutLen => true
  | .imgWLo => true
  | .imgWHi => true
  | .imgHLo => true
  | .imgHHi => true
  | .cell _ _ => true
  | .reserved => false

/-- Of the registers all but STATUS and RESULT are writable. -/
theorem writable_registerAt (n : Nat) :
    (registerAt n).writable = (n == 0x0000 || (decide (0x0003 ≤ n) && decide (n ≤ 0x0007))) := by
  by_cases h : n < 8
  · interval_cases n <;> rfl
  · rw [registerAt_reserved (by omega), beq_false_of_ne (by omega), decide_eq_false (p := n ≤ 0x0007) (by omega),
      Bool.and_false]
    rfl

/-- The writable addresses are those whose target is writable. -/
theorem writableAddr_eq (a : Addr) : writableAddr a.toNat = (target a).writable := by
  rw [writableAddr, memoryAddr_eq_isStored]
  cases h : isStored a.toNat with
  | true =>
    obtain ⟨m, hm⟩ := exists_inMem h
    rw [target_of_inMem hm, Bool.or_true]
    rfl
  | false => rw [target_of_not_stored h, writable_registerAt, Bool.or_false]

end Sys2Proof.Machine
end

section
/-! Host reads: which byte of the map a read gives (O13), and what reserved and read-only addresses do (O11). -/

namespace Sys2Proof.Machine

/-- A read of a target that holds a byte puts it on `h_rdata` and changes nothing else. -/
theorem hostRead_value {a : Addr} {g : Target} {s : State} {b : Byte} (ht : target a = g)
    (hb : readTarget s g = .value b) : hostRead a s = .next { s with hRdata := some b } := by
  rw [hostRead, ht, hb]
  rfl

theorem converting_iff (s : State) (m : BlockMem) : s.converting m = true ↔ s.seqOp = .getbuffer ∧ m = bufOf s.seqD := by
  simp [State.converting]

/-- A read of a memory byte: a free byte inside GETBUFFER's destination (I5), else the byte written there, if any (I4). -/
theorem hostRead_cell {a : Addr} {m : BlockMem} {i : Nat} (ht : target a = .cell m i) (s : State) :
    hostRead a s =
      if s.seqOp = .getbuffer ∧ m = bufOf s.seqD then
        .next { s with hRdata := some (Config.freeByte s.draws), draws := s.draws + 1 }
      else
        match s.memByte m i with
        | some b => .next { s with hRdata := some b }
        | none => .fault (.unwrittenByte (memBase m + i)) := by
  rw [hostRead, ht, readTarget, readCell]
  by_cases h : s.seqOp = .getbuffer ∧ m = bufOf s.seqD
  · rw [if_pos ((converting_iff s m).2 h), if_pos h]
    rfl
  · rw [if_neg (mt (converting_iff s m).1 h), if_neg h]
    cases s.memByte m i <;> rfl

/-- Settles O13: each register by its target, each memory byte by the rule for cells. -/
theorem readsReturnTheCurrentByte : Obligations.ReadsReturnTheCurrentByte := by
  obtain ⟨-, status, result, lutLen, imgWLo, imgWHi, imgHLo, imgHHi, -⟩ := addressMap
  intro s
  exact ⟨hostRead_value status rfl, hostRead_value result rfl, hostRead_value lutLen rfl, hostRead_value imgWLo rfl,
    hostRead_value imgWHi rfl, hostRead_value imgHLo rfl, hostRead_value imgHHi rfl,
    fun m i hi => hostRead_cell (target_base_add m hi) s⟩

/-- A write to STATUS, RESULT or a reserved address is ignored in every state (R51). -/
theorem writeTarget_not_writable {g : Target} (h : g.writable = false) (v : Byte) (s : State) :
    writeTarget v s g = .next s := by
  cases g with
  | status => rfl
  | result => rfl
  | reserved => rfl
  | _ => cases h

/-- Settles O11: CMD and reserved targets read 0x00, and STATUS, RESULT and reserved targets are not writable. -/
theorem reservedAndReadOnlyAddresses : Obligations.ReservedAndReadOnlyAddresses := by
  obtain ⟨cmd, status, result, -⟩ := addressMap
  constructor
  · rintro a s (rfl | h)
    · exact hostRead_value cmd rfl
    · exact hostRead_value (target_reserved h) rfl
  · intro a v s h
    refine writeTarget_not_writable ?_ v s
    rcases h with rfl | rfl | h
    · rw [status]; rfl
    · rw [result]; rfl
    · rw [target_reserved h]; rfl

end Sys2Proof.Machine
end

section
/-! Host writes: dropped while a command runs (O9), and read back while none does (O10). -/

namespace Sys2Proof.Machine

/-! ### While a command runs -/

theorem writeOrDrop_running {s : State} (hr : s.running = true) (w : State) : writeOrDrop w s = .next s.dropWrite :=
  if_pos hr

/-- While a command runs, a write to a writable target is dropped (R56). -/
theorem writeTarget_running {g : Target} {s : State} (hw : g.writable = true) (hr : s.running = true) (v : Byte) :
    writeTarget v s g = .next s.dropWrite := by
  cases g with
  | cmd => exact writeCmd_running hr
  | status => cases hw
  | result => cases hw
  | reserved => cases hw
  | _ => exact writeOrDrop_running hr _

/-- Settles O9: a writable target's write is dropped, any other is ignored. -/
theorem writesWhileRunningAreDropped : Obligations.WritesWhileRunningAreDropped := by
  intro a v s hr
  rw [writableAddr_eq]
  cases hw : (target a).writable with
  | true => exact writeTarget_running hw hr v
  | false => exact writeTarget_not_writable hw v s

/-! ### While no command runs -/

/-- The state after the byte `v` is written to a register or memory byte. CMD, which starts commands, and the targets that
are not writable hold no such byte. -/
def State.store (v : Byte) (s : State) : Target → State
  | .cmd => s
  | .status => s
  | .result => s
  | .lutLen => { s with lutLen := v }
  | .imgWLo => { s with imgWLo := v }
  | .imgWHi => { s with imgWHi := v }
  | .imgHLo => { s with imgHLo := v }
  | .imgHHi => { s with imgHHi := v }
  | .cell m i => s.setMem (memWrite s.mem (memBase m + i) v)
  | .reserved => s

theorem writeOrDrop_idle {s : State} (hr : s.running = false) (w : State) : writeOrDrop w s = .next w :=
  if_neg (by simp [hr])

/-- While no command runs, a write to a writable target other than CMD stores the byte. -/
theorem writeTarget_idle {g : Target} {s : State} (hw : g.writable = true) (hc : g ≠ .cmd) (hr : s.running = false)
    (v : Byte) : writeTarget v s g = .next (s.store v g) := by
  cases g with
  | cmd => exact absurd rfl hc
  | status => cases hw
  | result => cases hw
  | reserved => cases hw
  | _ => exact writeOrDrop_idle hr _

/-- A stored byte is read back. -/
theorem readTarget_store_same {g : Target} {s : State} (hw : g.writable = true) (hc : g ≠ .cmd) (hr : s.running = false)
    (v : Byte) : readTarget (s.store v g) g = .value v := by
  cases g with
  | cmd => exact absurd rfl hc
  | status => cases hw
  | result => cases hw
  | reserved => cases hw
  | cell m i =>
    have hn : (s.setMem (memWrite s.mem (memBase m + i) v)).converting m = false := by
      simp [State.converting, (not_running_iff s).1 hr]
    simp [readTarget, readCell, State.store, hn, State.memByte, memRead_memWrite_same]
  | _ => rfl

/-- A store changes no other target: cells of different addresses are different bytes, whatever their memories are. -/
theorem readTarget_store_other {g k : Target} (h : k.address ≠ g.address) (v : Byte) (s : State) :
    readTarget (s.store v g) k = readTarget s k := by
  cases g with
  | cell m i =>
    cases k with
    | cell n j =>
      have hne : memBase n + j ≠ memBase m + i := fun he => h (congrArg some he)
      have hb : memRead (memWrite s.mem (memBase m + i) v) (memBase n + j) = memRead s.mem (memBase n + j) :=
        memRead_memWrite_other s.mem v hne
      simp only [readTarget, readCell, State.memByte, State.store, setMem_mem, hb]
      rfl
    | _ => rfl
  | _ =>
    cases k <;> try rfl
    all_goals exact absurd rfl h

/-- A store touches the memories, LUT_LEN and the IMG registers alone. -/
theorem store_frame (v : Byte) (s : State) (g : Target) :
    s.store v g = { s with mem := (s.store v g).mem, lutLen := (s.store v g).lutLen, imgWLo := (s.store v g).imgWLo,
                           imgWHi := (s.store v g).imgWHi, imgHLo := (s.store v g).imgHLo,
                           imgHHi := (s.store v g).imgHHi } := by
  cases g <;> rfl

/-- Settles O10: the write stores the byte at its target, and targets of different addresses differ. -/
theorem writtenByteIsReadBack : Obligations.WrittenByteIsReadBack := by
  intro a v s hr ha hne
  have hw : (target a).writable = true := (writableAddr_eq a).symm.trans ha
  have hres : target a ≠ .reserved := fun h => by rw [h] at hw; cases hw
  have hcmd : target a ≠ .cmd := by
    obtain ⟨cmd, -⟩ := addressMap
    exact fun h => address_target_ne hres (Ne.symm hne) (congrArg Target.address (cmd.trans h.symm))
  refine ⟨s.store v (target a), writeTarget_idle hw hcmd hr v, readTarget_store_same hw hcmd hr v, fun b hb => ?_,
    store_frame v s _⟩
  exact readTarget_store_other (address_target_ne hres hb) v s

end Sys2Proof.Machine
end

section
/-! The trace over a step (O22): only an answered or abandoned request enters it. -/

namespace Sys2Proof.Machine

/-- The trace from one state to the next is the same, or it has one entry more, for the request that was outstanding, and
no request is outstanding then. -/
def TraceStep (s t : State) : Prop :=
  t.log = s.log ∨ ∃ e : Event, s.port = some e.req ∧ t.log = e :: s.log ∧ t.port = none

/-- An answer puts its request and response on the trace and leaves no request outstanding; beside that it moves the
sequencer, leaves a WaitReady, or ends a command. -/
theorem complete_frame (r : Request) (x : Byte) (s : State) :
    complete r x s =
      { s with port := none, log := ⟨r, some x⟩ :: s.log, waiting := (complete r x s).waiting,
               result := (complete r x s).result, seqOp := (complete r x s).seqOp, seqStep := (complete r x s).seqStep,
               seqI := (complete r x s).seqI } := by
  cases hu : s.microOp with
  | none =>
    have he : complete r x s = s.answer r x := by simp [complete, hu]
    rw [he]
    rfl
  | some u =>
    rcases complete_cases hu r x with ⟨-, -, he⟩ | ⟨-, -, -, he⟩ | ⟨-, -, -, he⟩ | ⟨-, -, he⟩ | ⟨n, -, -, he⟩ |
        ⟨-, -, he⟩ | ⟨-, he⟩ <;> rw [he] <;> rfl

theorem complete_log (r : Request) (x : Byte) (s : State) : (complete r x s).log = ⟨r, some x⟩ :: s.log := by
  rw [complete_frame]

theorem complete_port (r : Request) (x : Byte) (s : State) : (complete r x s).port = none := by
  rw [complete_frame]

/-- An engine step that answers a next state is taken at a micro-operation of the running list. -/
theorem microOp_of_engineStep {s t : State} (h : engineStep s = .next t) : ∃ u, s.microOp = some u := by
  cases hu : s.microOp with
  | none => simp [engineStep, engineAct, hu] at h
  | some u => exact ⟨u, rfl⟩

/-- An engine step with no request outstanding leaves the trace. -/
theorem engineStep_log {s t : State} (hp : s.port = none) (h : engineStep s = .next t) : t.log = s.log := by
  obtain ⟨u, hu⟩ := microOp_of_engineStep h
  rcases engineStep_cases hu hp with ⟨i, r, -, -, -, -, hs⟩ | ⟨k, bytes, -, -, hs⟩ | ⟨code, st, -, hs⟩ |
      ⟨a, -, -, hs⟩ | ⟨m, n, -, -, hs⟩ <;> rw [hs] at h <;> cases h
  · exact enterWait_log s
  · rfl
  · rfl

/-- Block reset puts the request it abandons on the trace (R231). -/
theorem traceStep_blockReset (s : State) : TraceStep s s.blockReset := by
  rw [TraceStep, blockReset_log, abandonedLog]
  cases hp : s.port with
  | none => exact .inl rfl
  | some r => exact .inr ⟨⟨r, none⟩, rfl, rfl, rfl⟩

/-- A host write while no command runs leaves the trace. -/
theorem idleWrite_log {s t : State} (h : IdleWrite s t) : t.log = s.log := by cases h <;> rfl

theorem traceStep_clock {c : ClockIn} {s t : State} (h : clock c s = .next t) : TraceStep s t := by
  rcases clock_cases h with ⟨-, rfl⟩ | ⟨-, hr, hh⟩ | ⟨h0, hr, -⟩
  · exact traceStep_blockReset s
  · obtain ⟨v, hv, hw⟩ := hostClock_idle hr hh
    have hlog : v.log = s.log := by rw [hv.eq]
    exact .inl ((idleWrite_log hw).trans hlog)
  · obtain ⟨v, hv, hc⟩ := clock_running_cases hr h0 h
    have hlog : v.log = s.log := by rw [hv.eq]
    have hport : v.port = s.port := by rw [hv.eq]
    rcases hc with ⟨-, rfl⟩ | ⟨r, hs, -, rfl⟩ | ⟨hs, -, he⟩
    · exact .inl hlog
    · exact .inr ⟨⟨r, some c.tRsp⟩, hs, hlog ▸ complete_log r c.tRsp v, complete_port r c.tRsp v⟩
    · exact .inl ((engineStep_log (hport.trans hs) he).trans hlog)

/-- Settles O22: a step is a clock on the state with its input taken, which has the same trace and port. -/
theorem traceGrowsByTheOutstandingRequest : Obligations.TraceGrowsByTheOutstandingRequest := fun s _ h =>
  traceStep_clock (s := s.popInput) ((step_eq s).symm.trans h)

end Sys2Proof.Machine
end

section
/-! The operands of a running command over a step (O44): only GETBUFFER's destination is written. -/

namespace Sys2Proof.Machine

/-- LUT_LEN, the IMG registers and every memory byte outside the destination of a running GETBUFFER are the same in both
states. -/
structure SameOperands (s t : State) : Prop where
  lutLen : t.lutLen = s.lutLen
  imgWLo : t.imgWLo = s.imgWLo
  imgWHi : t.imgWHi = s.imgWHi
  imgHLo : t.imgHLo = s.imgHLo
  imgHHi : t.imgHHi = s.imgHHi
  mem : ∀ a, (s.seqOp = .getbuffer → inMem (bufOf s.seqD) a = false) → memRead t.mem a = memRead s.mem a

/-- A step on the state that the host has touched keeps the operands of the state before it. -/
theorem sameOperands_hostTouch {s v t : State} (hv : HostTouch s v) (h : SameOperands v t) : SameOperands s t := by
  rw [hv.eq] at h
  exact { h with }

/-- The transport's answer keeps all operands. -/
theorem sameOperands_complete (r : Request) (x : Byte) (s : State) : SameOperands s (complete r x s) := by
  rw [complete_frame]
  exact ⟨rfl, rfl, rfl, rfl, rfl, fun _ _ => rfl⟩

/-- The micro-operation is a conversion. -/
def opConverts : MicroOp → Bool
  | .convert _ => true
  | _ => false

theorem no_convert_initOps : initOps.filter opConverts = [] := rfl

theorem no_convert_clearOps : clearOps.filter opConverts = [] := rfl

theorem no_convert_displayOps (l : Bool) : (displayOps l).filter opConverts = [] := by cases l <;> rfl

theorem no_convert_sleepOps : sleepOps.filter opConverts = [] := rfl

theorem converts_getbufferOps (d : Bool) (code : Byte) : (getbufferOps d code).filter opConverts = [.convert d] := rfl

/-- A conversion stands in GETBUFFER's list only, and its destination is the latched one (R140). -/
theorem convert_inside_getbuffer {s : State} {k : Bool} (h : s.microOp = some (.convert k)) :
    s.seqOp = .getbuffer ∧ k = s.seqD := by
  have hm : MicroOp.convert k ∈ s.ops.filter opConverts := List.mem_filter.2 ⟨microOp_mem h, rfl⟩
  cases ho : s.seqOp with
  | idle => simp [State.ops, ho] at hm
  | init => simp [State.ops, ho, no_convert_initOps] at hm
  | clear => simp [State.ops, ho, no_convert_clearOps] at hm
  | display => simp [State.ops, ho, no_convert_displayOps] at hm
  | sleep => simp [State.ops, ho, no_convert_sleepOps] at hm
  | getbuffer => exact ⟨rfl, by simpa [State.ops, ho, converts_getbufferOps] using hm⟩

/-- Writing a whole PanelBuffer leaves every byte outside it. -/
theorem memRead_writeBuf_outside {k : Bool} {bytes : List Byte} {a : Nat} (hl : bytes.length = 2756)
    (ha : inMem (bufOf k) a = false) (s : State) : memRead (s.writeBuf k bytes).mem a = memRead s.mem a := by
  have hsize : memSize (bufOf k) = 2756 := by cases k <;> rfl
  have hout : ¬(memBase (bufOf k) ≤ a ∧ a < memBase (bufOf k) + bytes.length) := by
    rw [hl, ← hsize, ← inMem_iff, ha]
    exact nofun
  rw [writeBuf_mem, memRead_memWriteRun, if_neg hout]

/-- An engine step keeps the operands: of the micro-operations only CONVERT writes a block memory. -/
theorem sameOperands_engineStep {s t : State} (hp : s.port = none) (h : engineStep s = .next t) : SameOperands s t := by
  obtain ⟨u, hu⟩ := microOp_of_engineStep h
  rcases engineStep_cases hu hp with ⟨i, r, -, -, -, -, hs⟩ | ⟨k, bytes, rfl, hl, hs⟩ | ⟨code, st, -, hs⟩ |
      ⟨a, -, -, hs⟩ | ⟨m, n, -, -, hs⟩ <;> rw [hs] at h <;> cases h
  · rw [enterWait_eq]
    exact ⟨rfl, rfl, rfl, rfl, rfl, fun _ _ => rfl⟩
  · obtain ⟨ho, rfl⟩ := convert_inside_getbuffer hu
    exact ⟨rfl, rfl, rfl, rfl, rfl, fun a ha => memRead_writeBuf_outside hl (ha ho) s⟩
  · exact ⟨rfl, rfl, rfl, rfl, rfl, fun _ _ => rfl⟩

/-- A clock of a running command without block reset keeps the operands. -/
theorem sameOperands_clock {c : ClockIn} {s t : State} (hr : s.running = true) (h0 : c.rst = false)
    (h : clock c s = .next t) : SameOperands s t := by
  obtain ⟨v, hv, hc⟩ := clock_running_cases hr h0 h
  have hport : v.port = s.port := by rw [hv.eq]
  refine sameOperands_hostTouch hv ?_
  rcases hc with ⟨-, rfl⟩ | ⟨r, -, -, rfl⟩ | ⟨hs, -, he⟩
  · exact ⟨rfl, rfl, rfl, rfl, rfl, fun _ _ => rfl⟩
  · exact sameOperands_complete r c.tRsp v
  · exact sameOperands_engineStep (hport.trans hs) he

/-- Settles O44: a step is a clock on the state with its input taken, which has the same operands. -/
theorem runningCommandKeepsItsOperands : Obligations.RunningCommandKeepsItsOperands := by
  intro s t h hr h0
  obtain ⟨hlut, hwLo, hwHi, hhLo, hhHi, hmem⟩ := sameOperands_clock (s := s.popInput) hr h0 ((step_eq s).symm.trans h)
  exact ⟨hlut, hwLo, hwHi, hhLo, hhHi, hmem⟩

end Sys2Proof.Machine
end

section
/-! Streams (O25): one request and its answer, and then a micro-operation that sends one data byte per index. -/

namespace Sys2Proof.Machine

/-! ### One request answered at once -/

theorem enterWait_quiet (rest : List ClockIn) (s : State) : (s.quiet rest).enterWait = s.enterWait.quiet rest := by
  rw [enterWait_eq, enterWait_eq, microOp_quiet]
  rfl

/-- Where the sequencer stands at a micro-operation that issues a request, two clocks raise it and take its answer. -/
theorem runFrom_request {s : State} {u : MicroOp} {i : Instr} {r : Request} (hu : s.microOp = some u) (hp : s.port = none)
    (ha : actOf s u = .ok (.run i)) (hi : requestOf i = some r) (hw : i.wellFormed = true) (x : Byte)
    (rest : List ClockIn) :
    runFrom 2 (tickIn :: answerIn x :: rest) s = .next (complete r x ((s.enterWait.raise r).quiet rest)) := by
  have hr : s.running = true := running_of_microOp hu
  have hq : engineAct (s.quiet (answerIn x :: rest)) = .ok (.run i) := by
    rw [engineAct_congr (samePlace_quiet _ s), engineAct, hu]
    exact ha
  have hraise : step { s with inputs := tickIn :: answerIn x :: rest } =
      .next ((s.enterWait.raise r).quiet (answerIn x :: rest)) := by
    rw [step_tick hr hp, engineStep, hq]
    simp only [enterWait_quiet]
    exact exec_request hi hw ((enterWait_port s).trans hp)
  have hanswer : step ((s.enterWait.raise r).quiet (answerIn x :: rest)) =
      .next (complete r x ((s.enterWait.raise r).quiet rest)) :=
    step_answer (s := (s.enterWait.raise r).quiet rest) (by rw [enterWait_eq]; exact hr) rfl
  calc runFrom 2 (tickIn :: answerIn x :: rest) s
      = runFrom 1 (answerIn x :: rest) ((s.enterWait.raise r).quiet (answerIn x :: rest)) := runFrom_succ hraise
    _ = .next (complete r x ((s.enterWait.raise r).quiet rest)) := runFrom_succ (n := 0) hanswer

/-! ### One data byte per index -/

/-- From `s` on, the micro-operation `u` sends the byte `data i` at each index `i` below `n`, and nothing else. -/
structure SendsBytes (s : State) (u : MicroOp) (n : Nat) (data : Nat → Byte) : Prop where
  acts : ∀ i < n, actOf (s.setIndex i) u = .ok (.run (.sendData (data i)))
  answers : ∀ (x : Byte) (t : State), afterAnswer u x t = t.nextIndex n
  noWait : u ≠ .wait

/-- The state after the byte at SEQ.I is sent and answered. -/
def State.sent (b x : Byte) (rest : List ClockIn) (s : State) : State :=
  { s with hRdata := none, inputs := rest, log := ⟨.sendData b, some x⟩ :: s.log }

theorem sent_seqI (b x : Byte) (rest : List ClockIn) (s : State) : (s.sent b x rest).seqI = s.seqI := rfl

/-- A byte sent changes nothing that the bytes after it depend on. -/
theorem sendsBytes_sent {s : State} {u : MicroOp} {n : Nat} {data : Nat → Byte} (h : SendsBytes s u n data) (b x : Byte)
    (rest : List ClockIn) (j : Nat) : SendsBytes ((s.sent b x rest).setIndex j) u n data :=
  { h with acts := fun i hi => (actOf_congr (by constructor <;> rfl) u).trans (h.acts i hi) }

theorem nextIndex_inside {s : State} {n : Nat} (h : s.seqI + 1 < n) : s.nextIndex n = s.setIndex (s.seqI + 1) := if_pos h

theorem nextIndex_last {s : State} {n : Nat} (h : n ≤ s.seqI + 1) : s.nextIndex n = s.advance := if_neg (Nat.not_lt.2 h)

/-- Two clocks send the byte at SEQ.I and go on to the next index. -/
theorem runFrom_byte {s : State} {u : MicroOp} {n : Nat} {data : Nat → Byte} (h : SendsBytes s u n data)
    (hu : s.microOp = some u) (hp : s.port = none) (hi : s.seqI < n) (x : Byte) (rest : List ClockIn) :
    runFrom 2 (tickIn :: answerIn x :: rest) s = .next ((s.sent (data s.seqI) x rest).nextIndex n) := by
  have hnw : s.enterWait = s := if_neg (by rw [hu]; exact fun he => h.noWait (Option.some.inj he))
  have hm : ((s.raise (.sendData (data s.seqI))).quiet rest).microOp = some u := (microOp_quiet rest _).trans hu
  have hsent : (((s.raise (.sendData (data s.seqI))).quiet rest).answer (.sendData (data s.seqI)) x) =
      s.sent (data s.seqI) x rest := by
    simp [State.answer, State.quiet, State.raise, State.sent, hp]
  rw [runFrom_request hu hp (h.acts s.seqI hi) rfl rfl x rest, hnw, complete, hm]
  simp only [h.answers, hsent]

/-- Clocks that answer each request at once send the bytes from SEQ.I up to `n` in index order. -/
theorem runFrom_bytes {u : MicroOp} {n : Nat} {data : Nat → Byte} (rest : List ClockIn) (x : Byte) (xs : List Byte)
    {s : State} (h : SendsBytes s u n data) (hu : s.microOp = some u) (hp : s.port = none)
    (hn : s.seqI + xs.length + 1 = n) :
    runFrom (2 * (xs.length + 1)) (answersIn (x :: xs) ++ rest) s = .next
      { s with seqStep := s.seqStep + 1, seqI := 0, hRdata := none, inputs := rest,
               log := (answered ((List.range' s.seqI (xs.length + 1)).map fun i => .sendData (data i)) (x :: xs)).reverse ++
                 s.log } := by
  induction xs generalizing s x with
  | nil =>
    refine (runFrom_byte h hu hp (Nat.lt_of_succ_le (Nat.le_of_eq hn)) x rest).trans ?_
    rw [nextIndex_last (s := s.sent (data s.seqI) x rest) (Nat.le_of_eq hn.symm)]
    rfl
  | cons y ys ih =>
    rw [List.length_cons] at hn ⊢
    have hbyte := runFrom_byte h hu hp (by omega) x (answersIn (y :: ys) ++ rest)
    have hlt : (s.sent (data s.seqI) x (answersIn (y :: ys) ++ rest)).seqI + 1 < n := by
      rw [sent_seqI]
      omega
    rw [nextIndex_inside hlt] at hbyte
    rw [Nat.mul_succ, Nat.add_comm]
    refine (runFrom_add hbyte).trans ((ih y (sendsBytes_sent h _ _ _ _) hu hp ?_).trans ?_)
    · rw [setIndex_seqI, sent_seqI]
      omega
    · simp [State.sent, State.setIndex, answered, List.range'_succ]

theorem memByte_setIndex (i : Nat) (s : State) (m : BlockMem) (j : Nat) : (s.setIndex i).memByte m j = s.memByte m j := rfl

/-- A stream of written bytes sends its memory's bytes. -/
theorem sendsBytes_stream {s : State} {m : BlockMem} {n : Nat} (h : ∀ i < n, (s.memByte m i).isSome = true) :
    SendsBytes s (.stream m n) n fun i => (s.memByte m i).getD 0 where
  acts i hi := by
    obtain ⟨b, hb⟩ := Option.isSome_iff_exists.1 (h i hi)
    simp [actOf, memByte_setIndex, hb]
  answers _ _ := rfl
  noWait := nofun

/-- Settles O25: a stream sends one byte per index, from index 0 on. -/
theorem streamSendsInIndexOrder : Obligations.StreamSendsInIndexOrder := by
  intro s m n rsps rest hu hi hp hn hlen hw
  cases rsps with
  | nil => subst hlen; cases hn
  | cons x xs =>
    obtain rfl : xs.length + 1 = n := hlen
    rw [runFrom_bytes rest x xs (sendsBytes_stream hw) hu hp (by omega), hi, ← List.range_eq_range']
    rfl

end Sys2Proof.Machine
end

section
/-! The encodings (O1, O2, O3): the fields of a code put it together, a code taken apart gives its fields, and the decoders
follow. -/

namespace Sys2Proof

/-! ### Fields of a byte and of an argument -/

/-- A single bit as a word of width 1. -/
theorem extractLsb'_one {w : Nat} (x : BitVec w) (k : Nat) : x.extractLsb' k 1 = BitVec.ofBool (x.getLsbD k) := by
  ext i hi
  obtain rfl : i = 0 := by omega
  simp

/-- A command byte with `RSV = 0` is put together from its fields (R71). -/
theorem cmdByte_fields {v : Byte} (h : cmdRsv v = 0) : cmdByte (cmdOp v) (cmdL v) (cmdD v) = v := by
  have hl : BitVec.ofBool (cmdL v) = v.extractLsb' 3 1 := (extractLsb'_one v 3).symm
  have hd : BitVec.ofBool (cmdD v) = v.extractLsb' 4 1 := (extractLsb'_one v 4).symm
  have hr : 0#3 = v.extractLsb' 5 3 := h.symm
  rw [cmdByte, hl, hd, hr, cmdOp, BitVec.extractLsb'_append_extractLsb'_eq_extractLsb' (by rfl),
    BitVec.extractLsb'_append_extractLsb'_eq_extractLsb' (by rfl),
    BitVec.extractLsb'_append_extractLsb'_eq_extractLsb' (by rfl)]
  exact BitVec.extractLsb'_eq_self

theorem argHi_append (hi lo : Byte) : argHi (hi ++ lo) = hi := BitVec.extractLsb'_append_eq_left

theorem argLo_append (hi lo : Byte) : argLo (hi ++ lo) = lo := BitVec.extractLsb'_append_eq_right

/-- An argument is its high byte above its low byte (R82). -/
theorem argHi_append_argLo (a : Arg) : argHi a ++ argLo a = a := BitVec.extractLsb'_append_extractLsb'

/-- A low byte whose upper seven bits are 0 is the level in bit 0 (R82). -/
theorem argLo_eq_level {a : Arg} (h : (argLo a).extractLsb' 1 7 = 0) : 0#7 ++ BitVec.ofBool (a.getLsbD 0) = argLo a := by
  have hb : BitVec.ofBool (a.getLsbD 0) = (argLo a).extractLsb' 0 1 := by simp [extractLsb'_one, argLo]
  have hz : 0#7 = (argLo a).extractLsb' 1 7 := h.symm
  rw [hb, hz]
  exact BitVec.extractLsb'_append_extractLsb'

/-- An argument whose high byte is 0 is its low byte (R82). -/
theorem zero_append_argLo {a : Arg} (h : argHi a = 0) : (0#8 ++ argLo a : Arg) = a := by
  have hz : 0#8 = argHi a := h.symm
  rw [hz]
  exact argHi_append_argLo a

/-! ### Pins -/

theorem pinId_of_pinOfId {b : Byte} {p : Pin} (h : pinOfId b = .ok p) : pinId p = b := by
  unfold pinOfId at h
  split_ifs at h with hb hb hb hb <;> cases h <;> exact hb.symm

/-- A pin decoded from the high byte of an argument gives that byte. -/
theorem pinId_of_map_ok {b : Byte} {f : Pin → Instr} {i : Instr} (h : (pinOfId b).map f = .ok i) :
    ∃ p, pinId p = b ∧ f p = i := by
  cases hp : pinOfId b with
  | error e => rw [hp] at h; cases h
  | ok p => rw [hp] at h; cases h; exact ⟨p, pinId_of_pinOfId hp, rfl⟩

/-! ### Decoding a code -/

theorem decodeRequest_pinWrite (p : Pin) (l : Bool) :
    decodeRequest 0b010 (pinId p ++ (0#7 ++ BitVec.ofBool l)) = .ok (.pinWrite p l) := by
  cases p <;> cases l <;> rfl

theorem decodeRequest_pinRead (p : Pin) : decodeRequest 0b011 (pinId p ++ 0#8) = .ok (.pinRead p) := by
  cases p <;> rfl

theorem decodeRequest_sendCommand (b : Byte) : decodeRequest 0b101 (0#8 ++ b) = .ok (.sendCommand b) := by
  simp [decodeRequest, argHi_append, argLo_append]

theorem decodeRequest_sendData (b : Byte) : decodeRequest 0b110 (0#8 ++ b) = .ok (.sendData b) := by
  simp [decodeRequest, argHi_append, argLo_append]

/-- Every instruction's code decodes to it, also where the block never issues the instruction. -/
theorem decode_encode (i : Instr) : decode (encode i) = .ok i := by
  cases i with
  | display l => cases l <;> rfl
  | getbuffer d => cases d <;> rfl
  | pinWrite p l => exact decodeRequest_pinWrite p l
  | pinRead p => exact decodeRequest_pinRead p
  | sendCommand b => exact decodeRequest_sendCommand b
  | sendData b => exact decodeRequest_sendData b
  | _ => rfl

/-- Settles O1: every instruction's code decodes to it, the well-formed ones' among them. -/
theorem encodedInstructionDecodes : Obligations.EncodedInstructionDecodes := fun i _ => decode_encode i

/-! ### Encoding what was decoded -/

/-- The one OP that is neither reserved nor one of the four before it is GETBUFFER's (R72). -/
theorem op_eq_getbuffer : ∀ op : BitVec 3, ¬(op = 0b000 ∨ op = 0b110 ∨ op = 0b111) → op ≠ 0b001 → op ≠ 0b010 →
    op ≠ 0b011 → op ≠ 0b100 → op = 0b101 := by
  decide

/-- What decodes as a command byte has `RSV = 0`, and its code is put together from the byte's fields (R72 to R75). -/
theorem decodeHost_fields {v : Byte} {i : Instr} (h : decodeHost v = .ok i) :
    cmdRsv v = 0 ∧ encode i = .host (cmdByte (cmdOp v) (cmdL v) (cmdD v)) := by
  unfold decodeHost at h
  split_ifs at h with hr ho hl hd h1 h2 h3 h4
  all_goals
    have noLayer : cmdOp v ≠ 0b011 → cmdL v = false := by simpa using fun hop hlayer => hl ⟨hlayer, hop⟩
    have noDest : cmdOp v ≠ 0b101 → cmdD v = false := by simpa using fun hop hdest => hd ⟨hdest, hop⟩
    cases h
    refine ⟨not_not.1 hr, ?_⟩
  · rw [noLayer (by simp [h1]), noDest (by simp [h1]), h1]; rfl
  · rw [noLayer (by simp [h2]), noDest (by simp [h2]), h2]; rfl
  · rw [noDest (by simp [h3]), h3]; rfl
  · rw [noLayer (by simp [h4]), noDest (by simp [h4]), h4]; rfl
  · have h5 := op_eq_getbuffer _ ho h1 h2 h3 h4
    rw [noLayer h3, h5]; rfl

theorem encode_of_decodeHost {v : Byte} {i : Instr} (h : decodeHost v = .ok i) : encode i = .host v := by
  obtain ⟨hr, he⟩ := decodeHost_fields h
  rw [he, cmdByte_fields hr]

theorem decodePanel_of_not_mem {b : Byte} (h : b ∉ panelBytes) : decodePanel b = .error .unknownPanelByte := by
  simp only [panelBytes, List.mem_cons, List.not_mem_nil, or_false, not_or] at h
  simp only [decodePanel, h, if_false]

theorem encode_of_decodePanel {b : Byte} {i : Instr} (h : decodePanel b = .ok i) : encode i = .panel b := by
  by_cases hb : b ∈ panelBytes
  · simp only [panelBytes, List.mem_cons, List.not_mem_nil, or_false] at hb
    rcases hb with rfl | rfl | rfl | rfl | rfl | rfl | rfl | rfl | rfl | rfl | rfl | rfl <;> cases h <;> rfl
  · rw [decodePanel_of_not_mem hb] at h
    cases h

/-- The argument of a PIN_WRITE is the pin's identifier above seven zeros and the level (R82). -/
theorem requestArg_pinWrite {p : Pin} {a : Arg} (hp : pinId p = argHi a) (h : (argLo a).extractLsb' 1 7 = 0) :
    requestArg (.pinWrite p (a.getLsbD 0)) = a := by
  rw [requestArg, hp, argLo_eq_level h, argHi_append_argLo]

theorem requestArg_pinRead {p : Pin} {a : Arg} (hp : pinId p = argHi a) (h : argLo a = 0) :
    requestArg (.pinRead p) = a := by
  have hz : 0#8 = argLo a := h.symm
  rw [requestArg, hp, hz, argHi_append_argLo]

theorem encode_of_decodeRequest {k : BitVec 3} {a : Arg} {i : Instr} (h : decodeRequest k a = .ok i) :
    encode i = .request k a := by
  unfold decodeRequest at h
  split_ifs at h with h0 ha h1 ha h2 ha h3 ha h4 h5 ha h6 ha
  · cases h; rw [h0, ha]; rfl
  · cases h; rw [h1, ha]; rfl
  · obtain ⟨p, hp, rfl⟩ := pinId_of_map_ok h
    rw [h2]
    exact congrArg (Code.request 0b010) (requestArg_pinWrite hp ha)
  · obtain ⟨p, hp, rfl⟩ := pinId_of_map_ok h
    rw [h3]
    exact congrArg (Code.request 0b011) (requestArg_pinRead hp ha)
  · cases h; rw [h4]; rfl
  · cases h; rw [h5]
    exact congrArg (Code.request 0b101) (zero_append_argLo ha)
  · cases h; rw [h6]
    exact congrArg (Code.request 0b110) (zero_append_argLo ha)

/-- Settles O2, place by place. -/
theorem decodedCodeIsTheEncoding : Obligations.DecodedCodeIsTheEncoding := fun c _ h =>
  match c with
  | .host _ => encode_of_decodeHost h
  | .panel _ => encode_of_decodePanel h
  | .request _ _ => encode_of_decodeRequest h

/-! ### Codes from the spec -/

/-- Settles O3, by running the decoders. -/
theorem specCodesDecode : Obligations.SpecCodesDecode :=
  ⟨rfl, rfl, rfl, rfl, rfl, rfl, rfl, rfl, rfl, rfl, rfl, rfl⟩

end Sys2Proof
end

section
/-! The legal command bytes (O4). -/

namespace Sys2Proof.Machine

/-- The legal bytes are exactly those that decode (R75). -/
theorem mem_legalBytes_iff {v : Byte} : v ∈ legalBytes ↔ ∃ i, decodeHost v = .ok i := by
  constructor
  · intro h
    simp only [legalBytes, List.mem_cons, List.not_mem_nil, or_false] at h
    rcases h with rfl | rfl | rfl | rfl | rfl | rfl | rfl <;> exact ⟨_, rfl⟩
  · rintro ⟨i, h⟩
    have he := encode_of_decodeHost h
    cases i with
    | display l => cases he; cases l <;> decide
    | getbuffer d => cases he; cases d <;> decide
    | _ => cases he <;> decide

/-- A byte is refused exactly where its OP is reserved, its RSV is not 0, or its L or D is 1 with another command (R75). -/
theorem decodeHost_error_iff {v : Byte} : (∃ e, decodeHost v = .error e) ↔
    (cmdOp v = 0b000 ∨ cmdOp v = 0b110 ∨ cmdOp v = 0b111) ∨ cmdRsv v ≠ 0 ∨ (cmdL v = true ∧ cmdOp v ≠ 0b011) ∨
      (cmdD v = true ∧ cmdOp v ≠ 0b101) := by
  unfold decodeHost
  split_ifs with hr ho hl hd
  · exact iff_of_true ⟨_, rfl⟩ (.inr (.inl hr))
  · exact iff_of_true ⟨_, rfl⟩ (.inl ho)
  · exact iff_of_true ⟨_, rfl⟩ (.inr (.inr (.inl hl)))
  · exact iff_of_true ⟨_, rfl⟩ (.inr (.inr (.inr hd)))
  all_goals exact iff_of_false nofun (not_or.2 ⟨ho, not_or.2 ⟨hr, not_or.2 ⟨hl, hd⟩⟩⟩)

theorem not_mem_legalBytes_iff {v : Byte} : v ∉ legalBytes ↔ ∃ e, decodeHost v = .error e := by
  rw [mem_legalBytes_iff]
  cases decodeHost v <;> simp

/-- The numbers of the legal bytes below 256 are those of the seven in the table. -/
theorem filter_legal_perm :
    ((List.range 256).filter fun n => legalBytes.contains (BitVec.ofNat 8 n)).Perm (legalBytes.map BitVec.toNat) := by
  refine (List.perm_ext_iff_of_nodup (List.nodup_range.filter _) (by decide)).2 fun n => ?_
  simp only [List.mem_filter, List.mem_range, List.contains_iff_mem, List.mem_map]
  constructor
  · rintro ⟨hn, hv⟩
    exact ⟨_, hv, (BitVec.toNat_ofNat n 8).trans (Nat.mod_eq_of_lt hn)⟩
  · rintro ⟨v, hv, rfl⟩
    exact ⟨v.isLt, by rwa [BitVec.ofNat_toNat, BitVec.setWidth_eq]⟩

/-- 256 bytes without the seven legal ones are 249 (R75). -/
theorem length_filter_illegal :
    ((List.range 256).filter fun n => !legalBytes.contains (BitVec.ofNat 8 n)).length = 249 := by
  have hlegal : ((List.range 256).filter fun n => legalBytes.contains (BitVec.ofNat 8 n)).length = 7 :=
    filter_legal_perm.length_eq
  have hall := List.length_eq_length_filter_add (l := List.range 256) fun n => legalBytes.contains (BitVec.ofNat 8 n)
  rw [List.length_range, hlegal] at hall
  omega

/-- A refused byte written to CMD while no command runs clears DROP and sets RESULT to 0x04 (R213, R215). -/
theorem hostWrite_illegal {v : Byte} {s : State} (hv : v ∉ legalBytes) (hr : s.running = false) :
    hostWrite 0x0000 v s = .next (s.reject codeIllegal) := by
  obtain ⟨e, he⟩ := not_mem_legalBytes_iff.1 hv
  have ht : target 0x0000 = .cmd := by decide
  rw [hostWrite, ht, writeTarget, writeCmd, he]
  exact if_neg (by simp [hr])

/-- Settles O4: the legal bytes are those that decode, and the others are those with a refused field. -/
theorem sevenCommandBytesAreLegal : Obligations.SevenCommandBytesAreLegal :=
  ⟨⟨rfl, rfl, rfl, rfl, rfl, rfl, rfl⟩, fun _ i h => mem_legalBytes_iff.2 ⟨i, h⟩,
    fun _ => not_mem_legalBytes_iff.trans decodeHost_error_iff, length_filter_illegal, fun _ _ => hostWrite_illegal⟩

end Sys2Proof.Machine
end

section
/-! The requests on the transport port (O17, O19, O20, O23). -/

namespace Sys2Proof.Machine

/-! ### Raised, or never issued -/

/-- Settles O17: each panel command is an instruction that issues its byte. -/
theorem panelCommandsIssueTheirByte : Obligations.PanelCommandsIssueTheirByte := by
  intro s hp
  and_intros <;> exact exec_request rfl rfl hp

/-- An instruction that issues no request is a host command, and well-formed. -/
theorem wellFormed_of_no_request {i : Instr} (h : requestOf i = none) : i.wellFormed = true := by
  cases i <;> simp [requestOf, Instr.wellFormed] at h ⊢

/-- An instruction the block cannot issue stops by name (I14). -/
theorem exec_not_wellFormed {i : Instr} (h : i.wellFormed = false) (s : State) : exec i s = .fault (.neverIssued i) := by
  rcases exec_cases i s with ⟨hn, -⟩ | ⟨r, -, hw, -⟩ | ⟨-, he⟩
  · simp [wellFormed_of_no_request hn] at h
  · simp [hw] at h
  · exact he

/-- Settles O20: these are the instructions that are not well-formed. -/
theorem neverIssuedRequestsStop : Obligations.NeverIssuedRequestsStop := fun s =>
  ⟨fun _ _ hp => exec_not_wellFormed (i := .pinWrite _ _) (beq_false_of_ne hp) s,
    fun _ hp => exec_not_wellFormed (i := .pinRead _) (beq_false_of_ne hp) s,
    fun _ hb => exec_not_wellFormed (by simpa [Instr.wellFormed] using hb) s⟩

/-! ### What the port shows -/

theorem port_shows {s : State} {r : Request} (h : s.port = some r) :
    s.tKind = some (requestKind r) ∧ s.tArg = some (requestArg r) := by
  simp [State.tKind, State.tArg, h]

/-- Settles O19: the port shows the request's kind and argument. -/
theorem portShowsKindAndArgument : Obligations.PortShowsKindAndArgument := by
  intro s
  have byteArg : ∀ b : Byte, 0#8 ++ b = b.zeroExtend 16 := fun b => (BitVec.setWidth_eq_append (by decide)).symm
  refine ⟨port_shows, port_shows, fun l h => ?_, port_shows, fun _ => port_shows, fun b h => ?_, fun b h => ?_⟩
  · cases l <;> exact port_shows h
  · rw [← byteArg]; exact port_shows h
  · rw [← byteArg]; exact port_shows h

/-! ### What stands on the port after a step -/

/-- No request has the kind 0b111 (R84). -/
theorem requestKind_ne_reserved (r : Request) : requestKind r ≠ 0b111 := by cases r <;> simp [requestKind]

/-- Settles O23: the step keeps the invariant, in which an outstanding request is one the block may issue. -/
theorem onlyAllowedRequestsAreIssued : Obligations.OnlyAllowedRequestsAreIssued := by
  intro s t r hs h hp
  obtain ⟨-, -, -, -, allowed⟩ := (stepKeepsInvariant s t hs h).outstanding hp
  refine ⟨?_, fun p l he => ?_, fun p he => ?_, fun b he => ?_, fun n he => ?_⟩
  · rw [(port_shows hp).1]
    exact fun he => requestKind_ne_reserved r (Option.some.inj he)
  all_goals simpa [he, requestAllowed, or_assoc] using allowed

end Sys2Proof.Machine
end

section
/-! Host programs: the pseudo-instructions (O52) and the forms in a run (O53). -/

namespace Sys2Proof.Machine

/-! ### Expansions -/

/-- The low byte of a size, masked out or extracted. -/
theorem lowByte_eq (x : BitVec 16) : (x &&& 0xFF).setWidth 8 = x.extractLsb' 0 8 := by
  rw [BitVec.setWidth_and, ← BitVec.setWidth_eq_extractLsb' (by decide)]
  exact BitVec.and_allOnes

theorem highByte_eq (x : BitVec 16) : (x >>> 8).setWidth 8 = x.extractLsb' 8 8 :=
  BitVec.setWidth_ushiftRight_eq_extractLsb

/-- Settles O52: the halves of a size are its bytes, and a fill is one write per index. -/
theorem pseudoInstructionsExpand : Obligations.PseudoInstructionsExpand := by
  refine ⟨fun _ => rfl, rfl, fun _ => rfl, rfl, fun wd ht => ?_, fun m n b => ⟨?_, fun i hi => ?_⟩⟩
  · rw [lowByte_eq, highByte_eq, lowByte_eq, highByte_eq]
    rfl
  · simp [expand]
  · simp [expand, addrOf, hi]

/-! ### One clock of a run -/

/-- A clock in which the host issues its next access is the block's clock with that access; then the form is done, or it
stands where it was. -/
theorem hostRun_clock_issued {b : Beat} {r : HostRun} {op : HostOp} {rest : List HostOp} {t : State} (hg : b.go = true)
    (hr : r.todo = op :: rest) (h : clock (b.join op.input) r.block = .next t) :
    r.clock b = .next { block := t, todo := if op.done (t.hRdata.getD 0) then rest else r.todo,
                        reads := r.reads ++ t.hRdata.toList } := by
  have hissues : r.issues b = some op := by simp [HostRun.issues, hg, hr]
  have hinput : r.input b = b.join op.input := by rw [HostRun.input, hissues]
  rw [hostRun_clock_next (hinput ▸ h), HostRun.take, hissues, hr]
  rfl

/-- A clock in which the host issues nothing changes the block alone. -/
theorem hostRun_clock_silent {b : Beat} {r : HostRun} {t : State} (hn : b.go = false ∨ r.todo = [])
    (h : clock (b.join tickIn) r.block = .next t) : r.clock b = .next { r with block := t } := by
  have hissues : r.issues b = none := by rcases hn with hn | hn <;> simp [HostRun.issues, hn]
  have hinput : r.input b = b.join tickIn := by rw [HostRun.input, hissues]
  rw [hostRun_clock_next (hinput ▸ h), HostRun.take, hissues]

/-- Settles O53: after a read alone `h_rdata` holds a byte, after a write alone none, and the form takes what stands there. -/
theorem hostFormsCompleteInOneClock : Obligations.HostFormsCompleteInOneClock := by
  intro b r t
  refine ⟨fun hg a v rest hr h => ?_, fun hg a rest hr h => ?_, fun hg a mask want rest hr h => ?_, hostRun_clock_silent⟩
  · have hnone : t.hRdata = none := clock_hRdata_none rfl rfl h
    rw [hostRun_clock_issued (op := .wr a v) hg hr h, hnone]
    simp [HostOp.done]
  · obtain ⟨x, hx⟩ := clock_hRdata_some rfl rfl rfl h
    refine ⟨x, hx, ?_⟩
    rw [hostRun_clock_issued (op := .rd a) hg hr h, hx]
    simp [HostOp.done]
  · obtain ⟨x, hx⟩ := clock_hRdata_some rfl rfl rfl h
    refine ⟨x, hx, ?_⟩
    rw [hostRun_clock_issued (op := .poll a mask want) hg hr h, hx]
    simp [HostOp.done]

end Sys2Proof.Machine
end

section
/-! The requests of a running command: raised by the instruction the sequencer stands at (O16, O18), held until the transport
answers (O21, O43), and out for ever where it never answers (O56). -/

namespace Sys2Proof.Machine

/-! ### Raised -/

/-- With no request outstanding and the engine free to step, its part of a clock is an engine step. -/
theorem engineClock_tick {c : ClockIn} {s : State} (hp : s.port = none) (hk : c.tick = true) :
    engineClock c s = engineStep s := by
  simp [engineClock, hp, hk]

/-- Settles O16: the host's part of the step clears `h_rdata` alone, and the engine stands where it stood. -/
theorem stepRunsTheSequencedInstruction : Obligations.StepRunsTheSequencedInstruction := by
  intro s c i hc h0 hw hr hk hrun hp ha
  have place : SamePlace s (s.popInput.setRdata none) :=
    samePlace_trans (samePlace_popInput s) (samePlace_setRdata none _)
  calc step s
      = engineClock c (s.popInput.setRdata none) := by
        rw [step_no_reset hc h0, hostClock_no_access hw hr, hrun]; rfl
    _ = engineStep (s.popInput.setRdata none) := engineClock_tick (s := s.popInput.setRdata none) hp hk
    _ = exec i (s.popInput.setRdata none).enterWait := by rw [engineStep, engineAct_congr place, ha]

/-- Settles O18: each is a well-formed instruction that issues its request. -/
theorem transportRequestsAreRaised : Obligations.TransportRequestsAreRaised := fun _ hp =>
  ⟨exec_request rfl rfl hp, exec_request rfl rfl hp, fun _ => exec_request rfl rfl hp, exec_request rfl rfl hp,
    fun _ => exec_request rfl rfl hp,
    fun b hb => exec_request (i := .sendCommand b) rfl (by simpa [Instr.wellFormed] using hb) hp,
    fun _ => exec_request rfl rfl hp⟩

/-! ### Held -/

/-- A clock of a running command whose request is not answered, or whose engine does not step, is the host's touch alone. -/
theorem clock_held {c : ClockIn} {s t : State} (hr : s.running = true) (h0 : c.rst = false)
    (hh : (if s.port.isSome then c.tDone else c.tick) = false) (h : clock c s = .next t) : HostTouch s t := by
  obtain ⟨v, hv, ⟨-, rfl⟩ | ⟨r, hp, hd, -⟩ | ⟨hp, hk, -⟩⟩ := clock_running_cases hr h0 h
  · exact hv
  · simp [hp, hd] at hh
  · simp [hp, hk] at hh

/-- Settles O43: such a clock is the host's touch alone. -/
theorem heldClocksChangeNothing : Obligations.HeldClocksChangeNothing := fun _ _ _ hr h0 hh h =>
  (clock_held hr h0 hh h).eq

/-- The transport's answer in a clock of a running command puts the request and the response on the trace and leaves no request
outstanding (R12, R101). -/
theorem clock_answered {c : ClockIn} {s t : State} {r : Request} (hr : s.running = true) (h0 : c.rst = false)
    (hp : s.port = some r) (hd : c.tDone = true) (h : clock c s = .next t) :
    t.port = none ∧ t.log = ⟨r, some c.tRsp⟩ :: s.log := by
  obtain ⟨v, hv, ⟨hh, -⟩ | ⟨q, hq, -, rfl⟩ | ⟨hn, -, -⟩⟩ := clock_running_cases hr h0 h
  · simp [hp, hd] at hh
  · obtain rfl : r = q := Option.some.inj (hp.symm.trans hq)
    have hlog : v.log = s.log := by rw [hv.eq]
    exact ⟨complete_port r c.tRsp v, hlog ▸ complete_log r c.tRsp v⟩
  · simp [hp] at hn

/-- Settles O21: a step is a clock on the state with its input taken, answered or held. -/
theorem requestIsHeldUntilAnswered : Obligations.RequestIsHeldUntilAnswered := by
  intro s t r hr hp h0 h
  have hc : clock s.nextInput s.popInput = .next t := (step_eq s).symm.trans h
  split
  · next hd => exact clock_answered (s := s.popInput) hr h0 hp hd hc
  · next hd =>
    have hv : HostTouch s.popInput t := clock_held (s := s.popInput) hr h0 (by simpa [hp] using hd) hc
    rw [hv.eq]
    exact ⟨hp, rfl, hr, rfl, rfl, rfl⟩

/-! ### Never answered -/

/-- Without an answer and without block reset a request is outstanding in every clock, and its command runs. -/
theorem runEnv_unanswered {env : Nat → ClockIn} {s : State} {r : Request} (hr : s.running = true) (hp : s.port = some r)
    (hq : ∀ n, (env n).rst = false ∧ (env n).tDone = false) (hs : NeverStops env s) (n : Nat) :
    ∃ t, runEnv env n s = .next t ∧ t.running = true ∧ t.port = some r := by
  induction n with
  | zero => exact ⟨s, rfl, hr, hp⟩
  | succ n ih =>
    obtain ⟨t, ht, hrun, hport⟩ := ih
    obtain ⟨u, hc, hu⟩ := neverStops_next hs ht
    have hv : HostTouch t u := clock_held hrun (hq n).1 (by simpa [hport] using (hq n).2) hc
    exact ⟨u, hu, (hostTouch_running hv).trans hrun, by rw [hv.eq]; exact hport⟩

/-- Settles O56: the request is outstanding from the first clock on. -/
theorem unansweredRequestIsStuck : Obligations.UnansweredRequestIsStuck := fun _ _ r hr hp hq hs =>
  ⟨runEnv_unanswered hr hp hq hs, 0, r, fun m _ => ⟨(hq m).2, runEnv_unanswered hr hp hq hs m⟩⟩

end Sys2Proof.Machine
end

section
/-! Fills (O26): a micro-operation that sends the same data byte at each index. -/

namespace Sys2Proof.Machine

/-- A fill sends its byte at every index, whatever the memories hold. -/
theorem sendsBytes_fill (s : State) (b : Byte) (n : Nat) : SendsBytes s (.fill b n) n fun _ => b where
  acts _ _ := rfl
  answers _ _ := rfl
  noWait := nofun

/-- Settles O26: a fill sends one byte per index, from index 0 on. -/
theorem fillSendsEqualBytes : Obligations.FillSendsEqualBytes := by
  intro s b n rsps rest hu hi hp hn hlen
  cases rsps with
  | nil => subst hlen; cases hn
  | cons x xs =>
    obtain rfl : xs.length + 1 = n := hlen
    rw [runFrom_bytes rest x xs (sendsBytes_fill s b _) hu hp (by omega), List.map_const', List.length_range']

end Sys2Proof.Machine
end

section
/-! Host accesses beside a running command (O42): the engine neither reads nor writes what a host access can touch. -/

namespace Sys2Proof.Machine

/-- The state with the host's side set: DROP, `h_rdata` and the model's counter. -/
def State.hostSide (d : Bool) (v : Option Byte) (n : Nat) (s : State) : State :=
  { s with drop := d, hRdata := v, draws := n }

theorem samePlace_hostSide (d : Bool) (v : Option Byte) (n : Nat) (s : State) : SamePlace s (s.hostSide d v n) := by
  constructor <;> rfl

/-- What a host access leaves of a running command's state is that state with a host's side. -/
theorem hostTouch_eq_hostSide {s t : State} (h : HostTouch s t) : t = s.hostSide t.drop t.hRdata t.draws := h.eq

/-- The operation gives the same next state whatever the host's side holds, but for the host's side itself, and stops for the
same reason. -/
def HostBlind (f : State → Out) (s : State) : Prop :=
  ∀ d v n, f (s.hostSide d v n) = andThen (f s) fun t => .next (t.hostSide d v n)

/-- An instruction that issues a request, run where none is outstanding. -/
theorem hostBlind_exec {i : Instr} {r : Request} {s : State} (hi : requestOf i = some r) (hp : s.port = none) :
    HostBlind (exec i) s := by
  intro d v n
  cases hw : i.wellFormed with
  | true => rw [exec_request hi hw hp, exec_request (s := s.hostSide d v n) hi hw hp]; rfl
  | false => rw [exec_not_wellFormed hw, exec_not_wellFormed hw]; rfl

theorem converted_hostSide (k : Bool) (bytes : List Byte) (d : Bool) (v : Option Byte) (n : Nat) (s : State) :
    ((s.hostSide d v n).writeBuf k bytes).advance = (s.writeBuf k bytes).advance.hostSide d v n := rfl

theorem hostBlind_convertStep (k : Bool) (s : State) : HostBlind (convertStep k) s := by
  intro d v n
  have hg : (s.hostSide d v n).geometry = s.geometry := rfl
  have hi : (s.hostSide d v n).image = s.image := rfl
  simp only [convertStep, hg, hi, converted_hostSide]
  cases s.geometry with
  | native => cases s.image with
    | error a => rfl
    | ok img => simp only [andThen]
  | transposed => cases s.image with
    | error a => rfl
    | ok img => simp only [andThen]
  | unsupported => simp only [andThen]

/-- The engine runs no host command: its instructions issue requests. -/
theorem requestOf_of_engineAct {s : State} {i : Instr} (h : engineAct s = .ok (.run i)) : ∃ r, requestOf i = some r := by
  cases hu : s.microOp with
  | none => simp [engineAct, hu] at h
  | some u =>
    rw [engineAct, hu] at h
    rcases actOf_cases (s := s) (microOp_listed hu) with ⟨j, r, hj, hr, -⟩ | ⟨k, -, hk⟩ | ⟨c, st, -, hk⟩ |
        ⟨m, n, -, -, hk⟩
    · obtain rfl : j = i := by simpa [hj] using h
      exact ⟨r, hr⟩
    all_goals simp [hk] at h

theorem enterWait_hostSide (d : Bool) (v : Option Byte) (n : Nat) (s : State) :
    (s.hostSide d v n).enterWait = s.enterWait.hostSide d v n := by
  rw [enterWait_eq, enterWait_eq, microOp_congr (samePlace_hostSide d v n s)]
  rfl

theorem hostBlind_engineStep {s : State} (hp : s.port = none) : HostBlind engineStep s := by
  intro d v n
  unfold engineStep
  rw [engineAct_congr (samePlace_hostSide d v n s)]
  cases ha : engineAct s with
  | error f => rfl
  | ok a =>
    cases a with
    | run i =>
      obtain ⟨r, hr⟩ := requestOf_of_engineAct ha
      have hp' : s.enterWait.port = none := (enterWait_port s).trans hp
      simp only [enterWait_hostSide]
      exact hostBlind_exec hr hp' d v n
    | convert k => exact hostBlind_convertStep k s d v n
    | finish code st => rfl

theorem nextIndex_hostSide (m : Nat) (d : Bool) (v : Option Byte) (n : Nat) (s : State) :
    (s.hostSide d v n).nextIndex m = (s.nextIndex m).hostSide d v n := by
  simp only [State.nextIndex, apply_ite (State.hostSide d v n)]
  rfl

theorem afterWait_hostSide (x : Byte) (d : Bool) (v : Option Byte) (n : Nat) (s : State) :
    (s.hostSide d v n).afterWait x = (s.afterWait x).hostSide d v n := by
  simp only [State.afterWait, apply_ite (State.hostSide d v n)]
  rfl

theorem afterAnswer_hostSide (u : MicroOp) (x : Byte) (d : Bool) (v : Option Byte) (n : Nat) (s : State) :
    afterAnswer u x (s.hostSide d v n) = (afterAnswer u x s).hostSide d v n := by
  cases u with
  | tinit =>
    simp only [afterAnswer, apply_ite (State.hostSide d v n)]
    rfl
  | stream m k => exact nextIndex_hostSide k d v n s
  | fill b k => exact nextIndex_hostSide k d v n s
  | wait => exact afterWait_hostSide x d v n s
  | _ => rfl

/-- The transport's answer does the same whatever the host's side holds. -/
theorem complete_of_hostSide (r : Request) (x : Byte) (d : Bool) (v : Option Byte) (n : Nat) (s : State) :
    complete r x (s.hostSide d v n) = (complete r x s).hostSide d v n := by
  unfold complete
  rw [microOp_congr (samePlace_hostSide d v n s)]
  cases s.microOp with
  | none => rfl
  | some u => exact afterAnswer_hostSide u x d v n (s.answer r x)

theorem hostBlind_engineClock (c : ClockIn) (s : State) : HostBlind (engineClock c) s := by
  intro d v n
  cases hp : s.port with
  | some r =>
    have hp' : (s.hostSide d v n).port = some r := hp
    simp only [engineClock, hp, hp', complete_of_hostSide]
    cases c.tDone <;> rfl
  | none =>
    have hp' : (s.hostSide d v n).port = none := hp
    cases hk : c.tick with
    | true => rw [engineClock_tick hp hk, engineClock_tick hp' hk, hostBlind_engineStep hp]
    | false => simp [engineClock, hp, hp', hk, andThen]

/-- A clock of a running command with the host's strobes taken away is the engine's part, with `h_rdata` cleared. -/
theorem clock_no_strobes {c : ClockIn} {s : State} (hr : s.running = true) (h0 : c.rst = false) :
    clock { c with hWe := false, hRe := false } s = engineClock c (s.setRdata none) := by
  have h0' : ¬c.rst = true := Bool.eq_false_iff.1 h0
  rw [clock, if_neg h0', hostClock_no_access rfl rfl, hr]
  rfl

/-- Settles O42: the host's part leaves a host's side, and the engine does not see it. -/
theorem hostCannotDisturbACommand : Obligations.HostCannotDisturbACommand := by
  intro c s t hr h0 h
  rcases clock_cases h with ⟨h1, -⟩ | ⟨-, h1, -⟩ | ⟨-, -, v, hv, he⟩
  · simp [h0] at h1
  · simp [hr] at h1
  · have hv : v = (s.setRdata none).hostSide v.drop v.hRdata v.draws := (hostClock_touch hr hv).eq
    rw [hv, hostBlind_engineClock] at he
    obtain ⟨u, hu, ht⟩ := andThen_next he
    cases ht
    exact ⟨u, (clock_no_strobes hr h0).trans hu, rfl⟩

end Sys2Proof.Machine
end

section
/-! WaitReady (O24): polls and delays answered at once, up to the poll that reads idle. -/

namespace Sys2Proof.Machine

/-! ### One request of a WaitReady -/

/-- The request a WaitReady issues at an index: the poll at 0, the delay elsewhere (R110). -/
def waitRequest (i : Nat) : Request := if i = 0 then .pinRead .busy else .delay Config.pollMs

theorem waitRequest_zero : waitRequest 0 = .pinRead .busy := rfl

/-- The state after an answered request of a WaitReady, but for the index. -/
def State.waited (r : Request) (x : Byte) (rest : List ClockIn) (s : State) : State :=
  { s with waiting := true, hRdata := none, inputs := rest, log := ⟨r, some x⟩ :: s.log }

/-- The state in which a WaitReady's request is out, with WAITING at 1. -/
def State.waitRaised (rest : List ClockIn) (s : State) : State :=
  ((s.quiet rest).setWaiting true).raise (waitRequest s.seqI)

theorem microOp_waitRaised (rest : List ClockIn) (s : State) : (s.waitRaised rest).microOp = s.microOp :=
  microOp_quiet rest s

theorem answer_waitRaised {s : State} (hp : s.port = none) (r : Request) (x : Byte) (rest : List ClockIn) :
    (s.waitRaised rest).answer r x = s.waited r x rest := by
  simp [State.answer, State.waitRaised, State.quiet, State.setWaiting, State.raise, State.waited, hp]

theorem step_wait {s : State} (hm : s.microOp = some .wait) (hp : s.port = none) (rest : List ClockIn) :
    step { s with inputs := tickIn :: rest } = .next (s.waitRaised rest) := by
  rw [step_tick (running_of_microOp hm) hp]
  exact engineStep_wait ((microOp_quiet rest s).trans hm) hp

/-- Two clocks of a WaitReady raise its request and take the answer. -/
theorem runFrom_wait {s : State} (hm : s.microOp = some .wait) (hp : s.port = none) (x : Byte) (rest : List ClockIn) :
    runFrom 2 (tickIn :: answerIn x :: rest) s = .next (complete (waitRequest s.seqI) x (s.waitRaised rest)) := by
  have hr : s.running = true := running_of_microOp hm
  calc runFrom 2 (tickIn :: answerIn x :: rest) s
      = runFrom 1 (answerIn x :: rest) (s.waitRaised (answerIn x :: rest)) := runFrom_succ (step_wait hm hp _)
    _ = .next (complete (waitRequest s.seqI) x (s.waitRaised rest)) :=
        runFrom_succ (n := 0) (step_answer (s := s.waitRaised rest) hr rfl)

/-- A poll that reads idle ends the WaitReady. -/
theorem runFrom_idle {s : State} {x : Byte} (hm : s.microOp = some .wait) (hi : s.seqI = 0) (hp : s.port = none)
    (hx : x.getLsbD 0 = Config.busyIdleLevel) (rest : List ClockIn) :
    runFrom 2 (tickIn :: answerIn x :: rest) s =
      .next ((s.waited (.pinRead .busy) x rest).setWaiting false).advance := by
  rw [runFrom_wait hm hp, complete_idle ((microOp_waitRaised rest s).trans hm) hi hx, answer_waitRaised hp, hi,
    waitRequest_zero]

/-- Any other answer leads to the WaitReady's other request. -/
theorem runFrom_busy {s : State} {x : Byte} (hm : s.microOp = some .wait) (hp : s.port = none)
    (hx : s.seqI = 0 → x.getLsbD 0 ≠ Config.busyIdleLevel) (rest : List ClockIn) :
    runFrom 2 (tickIn :: answerIn x :: rest) s =
      .next ((s.waited (waitRequest s.seqI) x rest).setIndex (if s.seqI = 0 then 1 else 0)) := by
  rw [runFrom_wait hm hp, complete_busy ((microOp_waitRaised rest s).trans hm) hx, answer_waitRaised hp]
  rfl

/-! ### WAITING over a run -/

/-- WAITING is 1 after each of the first `n` clocks of a run. -/
def WaitsThrough (n : Nat) (ins : List ClockIn) (s : State) : Prop :=
  ∀ m u, 0 < m → m ≤ n → runFrom m ins s = .next u → u.waiting = true

theorem waitsThrough_add {a b : Nat} {ins : List ClockIn} {s t : State} (h : runFrom a ins s = .next t)
    (ha : WaitsThrough a ins s) (hb : WaitsThrough b t.inputs t) : WaitsThrough (a + b) ins s := by
  intro m u h0 hm hu
  by_cases hle : m ≤ a
  · exact ha m u h0 hle hu
  · obtain ⟨j, rfl⟩ := Nat.exists_eq_add_of_le (Nat.le_of_not_le hle)
    rw [runFrom_add h] at hu
    exact hb j u (by omega) (by omega) hu

/-- The clock that raises a WaitReady's request leaves WAITING at 1. -/
theorem waitsThrough_raise {s : State} (hm : s.microOp = some .wait) (hp : s.port = none) (rest : List ClockIn) :
    WaitsThrough 1 (tickIn :: rest) s := by
  intro m u h0 hle hu
  obtain rfl : m = 1 := by omega
  rw [runFrom_succ (n := 0) (step_wait hm hp rest), runFrom_zero] at hu
  cases hu
  rfl

/-- So do the two clocks of a run in which its request is answered, where the state after them still waits. -/
theorem waitsThrough_two {s t : State} {x : Byte} {rest : List ClockIn} (hm : s.microOp = some .wait) (hp : s.port = none)
    (h : runFrom 2 (tickIn :: answerIn x :: rest) s = .next t) (ht : t.waiting = true) :
    WaitsThrough 2 (tickIn :: answerIn x :: rest) s := by
  intro m u h0 hle hu
  obtain rfl | rfl : m = 1 ∨ m = 2 := by omega
  · exact waitsThrough_raise hm hp _ 1 u h0 le_rfl hu
  · rw [h] at hu
    cases hu
    exact ht

/-! ### The whole WaitReady -/

/-- The state after a poll that read busy and the delay after it. -/
def State.polledOnce (x y : Byte) (rest : List ClockIn) (s : State) : State :=
  { s with waiting := true, hRdata := none, inputs := rest,
           log := ⟨.delay 100, some y⟩ :: ⟨.pinRead .busy, some x⟩ :: s.log }

/-- A poll that reads busy and the delay after it take four clocks, all with WAITING 1, and lead to the next poll. -/
theorem runFrom_poll_delay {s : State} {x : Byte} (hm : s.microOp = some .wait) (hi : s.seqI = 0) (hp : s.port = none)
    (hx : x.getLsbD 0 ≠ Config.busyIdleLevel) (y : Byte) (rest : List ClockIn) :
    runFrom 4 (answersIn [x, y] ++ rest) s = .next (s.polledOnce x y rest) ∧
      WaitsThrough 4 (answersIn [x, y] ++ rest) s := by
  have poll := runFrom_busy hm hp (fun _ => hx) (tickIn :: answerIn y :: rest)
  rw [hi] at poll
  have delay := runFrom_busy (s := (s.waited (waitRequest 0) x (tickIn :: answerIn y :: rest)).setIndex 1) (x := y) hm hp
    (fun h => absurd h Nat.one_ne_zero) rest
  refine ⟨((runFrom_add (n := 2) poll).trans delay).trans ?_,
    waitsThrough_add (b := 2) poll (waitsThrough_two hm hp poll rfl) (waitsThrough_two hm hp delay rfl)⟩
  simp [State.waited, State.setIndex, State.polledOnce, waitRequest, Config.pollMs, hi]

/-- From its first poll a WaitReady answered at once runs to the next micro-operation, with WAITING 1 after every clock but
the last. -/
theorem runFrom_waitReady (busy : List (Byte × Byte)) (idle : Byte) (rest : List ClockIn) {s : State}
    (hm : s.microOp = some .wait) (hi : s.seqI = 0) (hp : s.port = none) (ok : Polls.ok ⟨busy, idle⟩) :
    runFrom (4 * busy.length + 2) (answersIn (Polls.rsps ⟨busy, idle⟩) ++ rest) s = .next
      { s with seqStep := s.seqStep + 1, seqI := 0, waiting := false, hRdata := none, inputs := rest,
               log := (answered (Polls.reqs ⟨busy, idle⟩) (Polls.rsps ⟨busy, idle⟩)).reverse ++ s.log } ∧
    WaitsThrough (4 * busy.length + 1) (answersIn (Polls.rsps ⟨busy, idle⟩) ++ rest) s := by
  induction busy generalizing s with
  | nil => exact ⟨runFrom_idle hm hi hp ok.2 rest, waitsThrough_raise hm hp _⟩
  | cons xy busy ih =>
    obtain ⟨hx, hbusy⟩ := List.forall_mem_cons.1 ok.1
    obtain ⟨run, waits⟩ := runFrom_poll_delay hm hi hp hx xy.2 (answersIn (Polls.rsps ⟨busy, idle⟩) ++ rest)
    obtain ⟨runRest, waitsRest⟩ :=
      ih (s := s.polledOnce xy.1 xy.2 (answersIn (Polls.rsps ⟨busy, idle⟩) ++ rest)) hm hi hp ⟨hbusy, ok.2⟩
    have hrun : 4 * (busy.length + 1) + 2 = 4 + (4 * busy.length + 2) := by omega
    have hwaits : 4 * (busy.length + 1) + 1 = 4 + (4 * busy.length + 1) := by omega
    rw [List.length_cons, hrun, hwaits]
    refine ⟨((runFrom_add run).trans runRest).trans ?_, waitsThrough_add run waits waitsRest⟩
    simp [State.polledOnce, answered, Polls.reqs, Polls.rsps]

theorem length_reqs (p : Polls) : p.reqs.length = 2 * p.busy.length + 1 := by
  simp [Polls.reqs, Nat.mul_comm]

/-- Settles O24: a WaitReady of `k` busy polls takes `4k + 2` clocks, two for each request. -/
theorem waitReadyPollsUntilIdle : Obligations.WaitReadyPollsUntilIdle := by
  intro s p rest hm hi hp hok
  obtain ⟨run, waits⟩ := runFrom_waitReady p.busy p.idle rest hm hi hp hok
  have hlen : 2 * p.reqs.length = 4 * p.busy.length + 2 := by rw [length_reqs]; omega
  refine ⟨length_reqs p, by rw [hlen]; exact run, fun n u h0 hn hu => waits n u h0 (by omega) hu⟩

end Sys2Proof.Machine
end

section
/-! A WaitReady that never reads idle (O57): it polls for ever, at any pace of the transport and the engine. -/

namespace Sys2Proof.Machine

/-! ### One clock inside a WaitReady -/

/-- The sequencer stands inside a WaitReady, at index `i`, with `p` on the port and WAITING at `w`. -/
structure State.Waits (i : Nat) (p : Option Request) (w : Bool) (s : State) : Prop where
  inside : s.microOp = some .wait
  index : s.seqI = i
  port : s.port = p
  waiting : s.waiting = w

theorem waits_hostTouch {s v : State} {i : Nat} {p : Option Request} {w : Bool} (hv : HostTouch s v)
    (h : s.Waits i p w) : v.Waits i p w := by
  obtain ⟨inside, index, port, waiting⟩ := h
  refine ⟨(microOp_congr (samePlace_hostTouch hv)).trans inside, ?_, ?_, ?_⟩ <;> rw [hv.eq]
  exacts [index, port, waiting]

/-- The block waits in this clock: for the answer to its request, or for its engine to step. -/
def awaited (p : Option Request) (c : ClockIn) : Bool := if p.isSome then c.tDone else c.tick

/-- A clock inside a WaitReady without block reset and without an idle answer: what it waits for does not come; or its request
is answered, and the other one is next; or its next request is raised, with WAITING at 1. -/
theorem waits_clock {c : ClockIn} {s t : State} {i : Nat} {p : Option Request} {w : Bool} (h : s.Waits i p w)
    (h0 : c.rst = false) (hx : c.tRsp.getLsbD 0 ≠ Config.busyIdleLevel) (hc : clock c s = .next t) :
    (awaited p c = false ∧ t.Waits i p w) ∨
    (p ≠ none ∧ c.tDone = true ∧ t.Waits (if i = 0 then 1 else 0) none w) ∨
    (p = none ∧ c.tick = true ∧ t.Waits i (some (waitRequest i)) true) := by
  obtain ⟨v, hv, hcases⟩ := clock_running_cases (running_of_microOp h.inside) h0 hc
  rw [h.port] at hcases
  obtain ⟨inside, rfl, rfl, rfl⟩ := waits_hostTouch hv h
  rcases hcases with ⟨hh, rfl⟩ | ⟨r, hp, hd, rfl⟩ | ⟨hp, hk, he⟩
  · exact .inl ⟨hh, inside, rfl, rfl, rfl⟩
  · rw [complete_busy inside fun _ => hx]
    exact .inr (.inl ⟨by simp [hp], hd, inside, rfl, rfl, rfl⟩)
  · rw [engineStep_wait inside hp] at he
    cases he
    exact .inr (.inr ⟨hp, hk, inside, rfl, rfl, rfl⟩)

/-- Inside a WaitReady with WAITING at 1, where no request is outstanding but the one the WaitReady issues. -/
def State.Polling (s : State) : Prop := ∃ i p, s.Waits i p true ∧ (p = none ∨ p = some (waitRequest i))

theorem polling_clock {c : ClockIn} {s t : State} (h : s.Polling) (h0 : c.rst = false)
    (hx : c.tRsp.getLsbD 0 ≠ Config.busyIdleLevel) (hc : clock c s = .next t) : t.Polling := by
  obtain ⟨i, p, hw, hp⟩ := h
  rcases waits_clock hw h0 hx hc with ⟨-, hw'⟩ | ⟨-, -, hw'⟩ | ⟨-, -, hw'⟩
  · exact ⟨i, p, hw', hp⟩
  · exact ⟨_, none, hw', .inl rfl⟩
  · exact ⟨i, _, hw', .inr rfl⟩

/-! ### A WaitReady in an unending environment -/

section
variable {env : Nat → ClockIn} {s : State}

/-- At some clock from `n` on the run is inside a WaitReady, at index `i`, with `p` on the port and WAITING at `w`. -/
def WaitsFrom (env : Nat → ClockIn) (s : State) (n i : Nat) (p : Option Request) (w : Bool) : Prop :=
  ∃ k t, n ≤ k ∧ runEnv env k s = .next t ∧ t.Waits i p w

variable (busy : ∀ n, (env n).rst = false ∧ (env n).tRsp.getLsbD 0 ≠ Config.busyIdleLevel) (fair : WeaklyFair env)
  (answers : ∀ n, ∃ m, n ≤ m ∧ (env m).tDone = true) (stops : NeverStops env s)
include busy fair answers stops

/-- What a WaitReady waits for comes, and it waits until then. -/
theorem waitsFrom_awaited {n i : Nat} {p : Option Request} {w : Bool} (h : WaitsFrom env s n i p w) :
    ∃ k t, n ≤ k ∧ runEnv env k s = .next t ∧ t.Waits i p w ∧ awaited p (env k) = true := by
  obtain ⟨k, t, hk, ht, hw⟩ := h
  obtain ⟨m, hm, ha⟩ : ∃ m, k ≤ m ∧ awaited p (env m) = true := by
    cases p with
    | none => exact fair k
    | some r => exact answers k
  obtain ⟨d, rfl⟩ := Nat.exists_eq_add_of_le hm
  clear hm
  induction d generalizing k t with
  | zero => exact ⟨k, t, hk, ht, hw, ha⟩
  | succ d ih =>
    cases hnow : awaited p (env k) with
    | true => exact ⟨k, t, hk, ht, hw, hnow⟩
    | false =>
      obtain ⟨u, hc, hu⟩ := neverStops_next stops ht
      have hw' : u.Waits i p w := by
        rcases waits_clock hw (busy k).1 (busy k).2 hc with ⟨-, hw'⟩ | ⟨hp, hd, -⟩ | ⟨rfl, hk', -⟩
        · exact hw'
        · obtain ⟨r, rfl⟩ := Option.ne_none_iff_exists'.1 hp
          exact absurd hd (Bool.eq_false_iff.1 hnow)
        · exact absurd hk' (Bool.eq_false_iff.1 hnow)
      exact ih (k + 1) u (hk.trans k.le_succ) hu hw' (by rwa [Nat.succ_add_eq_add_succ])

/-- A WaitReady with no request outstanding raises its next one. -/
theorem waitsFrom_raised {n i : Nat} {w : Bool} (h : WaitsFrom env s n i none w) :
    WaitsFrom env s n i (some (waitRequest i)) true := by
  obtain ⟨k, t, hk, ht, hw, ha⟩ := waitsFrom_awaited busy fair answers stops h
  obtain ⟨u, hc, hu⟩ := neverStops_next stops ht
  rcases waits_clock hw (busy k).1 (busy k).2 hc with ⟨hn, -⟩ | ⟨hp, -⟩ | ⟨-, -, hw'⟩
  · simp [ha] at hn
  · exact absurd rfl hp
  · exact ⟨k + 1, u, hk.trans k.le_succ, hu, hw'⟩

/-- A WaitReady's request is answered, and its other one is next. -/
theorem waitsFrom_answered {n i : Nat} {r : Request} {w : Bool} (h : WaitsFrom env s n i (some r) w) :
    WaitsFrom env s n (if i = 0 then 1 else 0) none w := by
  obtain ⟨k, t, hk, ht, hw, ha⟩ := waitsFrom_awaited busy fair answers stops h
  obtain ⟨u, hc, hu⟩ := neverStops_next stops ht
  rcases waits_clock hw (busy k).1 (busy k).2 hc with ⟨hn, -⟩ | ⟨-, -, hw'⟩ | ⟨hp, -⟩
  · simp [ha] at hn
  · exact ⟨k + 1, u, hk.trans k.le_succ, hu, hw'⟩
  · cases hp

/-- From every clock inside a WaitReady on, another poll is issued. -/
theorem waitsFrom_poll {n : Nat} {t : State} (ht : runEnv env n s = .next t) (h : t.Polling) :
    WaitsFrom env s n 0 (some (.pinRead .busy)) true := by
  have issued : ∀ i, WaitsFrom env s n i (some (waitRequest i)) true →
      WaitsFrom env s n 0 (some (.pinRead .busy)) true := by
    intro i hi
    by_cases hzero : i = 0
    · subst hzero
      exact hi
    · have hnext := waitsFrom_answered busy fair answers stops hi
      rw [if_neg hzero] at hnext
      exact waitsFrom_raised busy fair answers stops hnext
  obtain ⟨i, p, hw, rfl | rfl⟩ := h
  · exact issued i (waitsFrom_raised busy fair answers stops ⟨n, t, le_rfl, ht, hw⟩)
  · exact issued i ⟨n, t, le_rfl, ht, hw⟩

omit fair answers in
/-- Once it polls, a WaitReady polls in every later clock. -/
theorem runEnv_polling {n m : Nat} {t : State} (ht : runEnv env n s = .next t) (h : t.Polling) (hm : n ≤ m) :
    ∃ u, runEnv env m s = .next u ∧ u.Polling := by
  induction m, hm using Nat.le_induction with
  | base => exact ⟨t, ht, h⟩
  | succ m _ ih =>
    obtain ⟨u, hu, hp⟩ := ih
    obtain ⟨v, hc, hv⟩ := neverStops_next stops hu
    exact ⟨v, hv, polling_clock hp (busy m).1 (busy m).2 hc⟩

end

/-- Settles O57: after its first poll is raised the WaitReady is never left, and one poll after another is answered. -/
theorem busyForEverIsHang : Obligations.BusyForEverIsHang := by
  intro env s hm hi hp busy fair answers stops
  have start : WaitsFrom env s 0 0 none s.waiting := ⟨0, s, le_rfl, rfl, hm, hi, hp, rfl⟩
  obtain ⟨n, t, -, ht, hw⟩ := waitsFrom_raised busy fair answers stops start
  have polling : ∀ m, n ≤ m → ∃ u, runEnv env m s = .next u ∧ u.Polling := fun m hnm =>
    runEnv_polling busy stops ht ⟨0, _, hw, .inr rfl⟩ hnm
  refine ⟨n, fun m hnm => ?_, fun m hnm => ?_⟩
  · obtain ⟨u, hu, i, p, hwu, -⟩ := polling m hnm
    exact ⟨u, hu, running_of_microOp hwu.inside, hwu.waiting⟩
  · obtain ⟨u, hu, hpu⟩ := polling m hnm
    obtain ⟨k, v, hk, hv, hwv, hd⟩ :=
      waitsFrom_awaited busy fair answers stops (waitsFrom_poll busy fair answers stops hu hpu)
    exact ⟨k, v, hk, hv, hwv.port, hd⟩

end Sys2Proof.Machine
end

section
/-! The micro-operation lists as the spec prints them (O27). -/

namespace Sys2Proof.Machine

/-- Settles O27: each list is its transactions one after another. -/
theorem commandListsAreThePrintedOnes : Obligations.CommandListsAreThePrintedOnes :=
  ⟨rfl, rfl, rfl, rfl, rfl, fun _ _ => rfl⟩

end Sys2Proof.Machine
end

section
/-! Whole commands on the schedule that answers each request at once: the CMD write, the micro-operations one after another,
and END. -/

namespace Sys2Proof.Machine

/-! ### The sequencer before a part of its list -/

/-- The sequencer stands at the first index of the micro-operations `us` of its list, with no request outstanding,
WAITING 0 and no byte on `h_rdata`. -/
structure State.Before (us : List MicroOp) (s : State) : Prop where
  place : ∃ pre post, s.ops = pre ++ (us ++ post) ∧ s.seqStep = pre.length + 1
  free : s.port = none
  calm : s.waiting = false
  first : s.seqI = 0
  noRead : s.hRdata = none

/-- The state after `n` micro-operations whose requests gave the events `evs`. -/
def State.passed (n : Nat) (evs : List Event) (rest : List ClockIn) (s : State) : State :=
  { s with seqStep := s.seqStep + n, seqI := 0, hRdata := none, inputs := rest, log := evs.reverse ++ s.log }

theorem before_left {us vs : List MicroOp} {s : State} (h : s.Before (us ++ vs)) : s.Before us := by
  obtain ⟨pre, post, hops, hstep⟩ := h.place
  exact { h with place := ⟨pre, vs ++ post, by rw [hops, List.append_assoc], hstep⟩ }

theorem before_passed {us vs : List MicroOp} {s : State} (h : s.Before (us ++ vs)) (evs : List Event)
    (rest : List ClockIn) : (s.passed us.length evs rest).Before vs := by
  obtain ⟨pre, post, hops, hstep⟩ := h.place
  have hops' : (s.passed us.length evs rest).ops = s.ops := rfl
  have hstep' : (s.passed us.length evs rest).seqStep = s.seqStep + us.length := rfl
  refine { h with place := ⟨pre ++ us, post, ?_, ?_⟩, first := rfl, noRead := rfl }
  · rw [hops', hops]
    simp
  · rw [hstep', hstep, List.length_append]
    omega

theorem microOp_of_before {u : MicroOp} {us : List MicroOp} {s : State} (h : s.Before (u :: us)) : s.microOp = some u := by
  obtain ⟨pre, post, hops, hstep⟩ := h.place
  simp [State.microOp, hops, hstep]

/-! ### Micro-operations one after another -/

theorem answersIn_append (a b : List Byte) : answersIn (a ++ b) = answersIn a ++ answersIn b := List.flatMap_append

theorem answered_append {q : List Request} {a : List Byte} (h : q.length = a.length) (r : List Request) (b : List Byte) :
    answered (q ++ r) (a ++ b) = answered q a ++ answered r b := List.zipWith_append h

/-- Over the block memories `m`, the micro-operations `us` issue the requests `q` where these are answered at once with `a`,
and change nothing but the trace and the position. -/
def Passes (m : Memory) (us : List MicroOp) (q : List Request) (a : List Byte) : Prop :=
  q.length = a.length ∧ ∀ (s : State) (rest : List ClockIn), s.mem = m → s.Before us →
    runFrom (2 * q.length) (answersIn a ++ rest) s = .next (s.passed us.length (answered q a) rest)

theorem passes_nil (m : Memory) : Passes m [] [] [] := by
  refine ⟨rfl, fun s rest _ h => ?_⟩
  have stay : s.passed 0 [] rest = { s with inputs := rest } := by simp [State.passed, ← h.first, ← h.noRead]
  exact congrArg _ stay.symm

theorem passes_append {m : Memory} {us vs : List MicroOp} {q r : List Request} {a b : List Byte} (hu : Passes m us q a)
    (hv : Passes m vs r b) : Passes m (us ++ vs) (q ++ r) (a ++ b) := by
  obtain ⟨hq, runU⟩ := hu
  obtain ⟨hr, runV⟩ := hv
  refine ⟨by simp [hq, hr], fun s rest hm h => ?_⟩
  have first := runU s (answersIn b ++ rest) hm (before_left h)
  have second := runV (s.passed us.length (answered q a) (answersIn b ++ rest)) rest hm (before_passed h _ _)
  rw [List.length_append, Nat.mul_add, answersIn_append, List.append_assoc]
  refine ((runFrom_add first).trans second).trans ?_
  simp [State.passed, answered_append hq, Nat.add_assoc]

/-! ### One request -/

/-- The one request of a micro-operation that issues the same request whatever the state and goes on whatever the answer. -/
def requestAt : MicroOp → Option Request
  | .tinit => none
  | .tshut => some .tShutdown
  | .rst l => some (.pinWrite .rst l)
  | .dly n => some (.delay n)
  | .cmd b => some (.sendCommand b)
  | .dat b => some (.sendData b)
  | .stream _ _ => none
  | .fill _ _ => none
  | .wait => none
  | .convert _ => none
  | .finish _ _ => none

theorem actOf_requestAt {u : MicroOp} {r : Request} (h : requestAt u = some r) (hu : opListed u = true) (s : State) :
    ∃ i, actOf s u = .ok (.run i) ∧ requestOf i = some r ∧ i.wellFormed = true := by
  cases u <;> simp only [requestAt, Option.some.injEq, reduceCtorEq] at h <;> subst h
  case cmd b =>
    obtain ⟨i, hd, hr, hw⟩ := decodePanel_of_mem (b := b) (by simpa [opListed] using hu)
    exact ⟨i, by simp [actOf, hd], hr, hw⟩
  all_goals exact ⟨_, rfl, rfl, rfl⟩

theorem afterAnswer_requestAt {u : MicroOp} {r : Request} (h : requestAt u = some r) (x : Byte) (s : State) :
    afterAnswer u x s = s.advance := by
  cases u <;> cases h <;> rfl

/-- At a micro-operation other than WaitReady, two clocks issue its request and act on the answer. -/
theorem runFrom_request_answer {s : State} {u : MicroOp} {i : Instr} {r : Request} (hu : s.microOp = some u)
    (hw : u ≠ .wait) (hp : s.port = none) (ha : actOf s u = .ok (.run i)) (hi : requestOf i = some r)
    (hf : i.wellFormed = true) (x : Byte) (rest : List ClockIn) :
    runFrom 2 (tickIn :: answerIn x :: rest) s = .next (afterAnswer u x ((s.quiet rest).answer r x)) := by
  have stay : s.enterWait = s := if_neg (by rw [hu]; exact fun he => hw (Option.some.inj he))
  have hm : ((s.raise r).quiet rest).microOp = some u := (microOp_quiet rest _).trans hu
  rw [runFrom_request hu hp ha hi hf x rest, stay, complete, hm]
  rfl

/-- A micro-operation other than WaitReady that runs one instruction and goes on with the answer issues that one request. -/
theorem passes_run (m : Memory) {u : MicroOp} {r : Request} {x : Byte} (hw : u ≠ .wait)
    (ha : ∀ s : State, opListed u = true → ∃ i, actOf s u = .ok (.run i) ∧ requestOf i = some r ∧ i.wellFormed = true)
    (hx : ∀ s : State, afterAnswer u x s = s.advance) : Passes m [u] [r] [x] := by
  refine ⟨rfl, fun s rest _ h => ?_⟩
  have hu : s.microOp = some u := microOp_of_before h
  obtain ⟨i, hi, hr, hf⟩ := ha s (microOp_listed hu)
  refine (runFrom_request_answer hu hw h.free hi hr hf x rest).trans ?_
  rw [hx]
  simp [State.advance, State.answer, State.quiet, State.passed, answered, h.free]

theorem passes_request (m : Memory) {u : MicroOp} {r : Request} (h : requestAt u = some r) (x : Byte) :
    Passes m [u] [r] [x] :=
  passes_run m (by rintro rfl; cases h) (fun s hu => actOf_requestAt h hu s) (afterAnswer_requestAt h x)

/-- T_INIT answered with status 0x00 (R123). -/
theorem passes_tinit (m : Memory) : Passes m [.tinit] [.tInit] [0x00] :=
  passes_run m nofun (fun _ _ => ⟨.tInit, rfl, rfl, rfl⟩) fun _ => rfl

/-- Micro-operations of one request each issue these in turn. -/
theorem passes_requests (m : Memory) {us : List MicroOp} {q : List Request} {a : List Byte}
    (hq : us.map requestAt = q.map some) (ha : a.length = us.length) : Passes m us q a := by
  induction us generalizing q a with
  | nil =>
    obtain rfl := List.length_eq_zero_iff.1 ha
    obtain rfl := List.map_eq_nil_iff.1 hq.symm
    exact passes_nil m
  | cons u us ih =>
    obtain ⟨r, q, rfl, hr, hq⟩ := List.map_eq_cons_iff.1 hq.symm
    obtain ⟨x, a, rfl⟩ := List.exists_cons_of_length_eq_add_one ha
    exact passes_append (passes_request m hr.symm x) (ih hq.symm (Nat.succ.inj ha))

/-! ### WaitReady and streams -/

/-- A WaitReady issues its polls and delays (R110). -/
theorem passes_wait (m : Memory) {p : Polls} (h : p.ok) : Passes m [.wait] p.reqs p.rsps := by
  refine ⟨by simp [Polls.reqs, Polls.rsps], fun s rest _ hs => ?_⟩
  obtain ⟨-, run, -⟩ := waitReadyPollsUntilIdle s p rest (microOp_of_before hs) hs.first hs.free h
  rw [run, ← hs.calm]
  rfl

theorem length_dataOf (s : State) (m : BlockMem) (n : Nat) : (s.dataOf m n).length = n := by simp [State.dataOf]

/-- A stream issues the bytes of its memory. -/
theorem passes_stream {s : State} {m : BlockMem} {n : Nat} {a : List Byte} (hn : 0 < n) (ha : a.length = n)
    (hw : ∀ i < n, (s.memByte m i).isSome = true) : Passes s.mem [.stream m n] (s.dataOf m n) a := by
  refine ⟨by rw [length_dataOf, ha], fun t rest ht h => ?_⟩
  have hbyte : t.memByte m = s.memByte m := by funext i; rw [State.memByte, ht]; rfl
  have hdata : t.dataOf m n = s.dataOf m n := by rw [State.dataOf, hbyte]; rfl
  rw [length_dataOf, ← hdata]
  exact streamSendsInIndexOrder t m n a rest (microOp_of_before h) h.first h.free hn ha (hbyte ▸ hw)

/-! ### From the CMD write to END -/

/-- A clock in which the host writes a command byte while no command runs is the command's meaning. -/
theorem step_command {v : Byte} {i : Instr} (hd : decodeHost v = .ok i) (rest : List ClockIn) {s : State}
    (hr : s.running = false) : step { s with inputs := writeIn 0x0000 v :: rest } = exec i (s.quiet rest) := by
  have noEngine : engineIf s.running (writeIn 0x0000 v) = Host.Outcome.next := by rw [hr]; rfl
  calc step { s with inputs := writeIn 0x0000 v :: rest }
      = andThen (exec i (s.quiet rest)) (engineIf s.running (writeIn 0x0000 v)) :=
        stepRunsTheWrittenCommand _ (writeIn 0x0000 v) i rfl rfl rfl rfl hd
    _ = exec i (s.quiet rest) := by rw [noEngine]; cases exec i (s.quiet rest) <;> rfl

/-- END, in one engine step. -/
theorem step_finish {code : Byte} {st : Option Lifecycle} {s : State} (hu : s.microOp = some (.finish code st))
    (hp : s.port = none) (rest : List ClockIn) :
    step { s with inputs := tickIn :: rest } = .next ((s.quiet rest).finish code st) := by
  rw [step_tick (running_of_microOp hu) hp, engineStep, engineAct, microOp_quiet, hu]
  rfl

/-- Where the CMD write of a command starts it, and the micro-operations of its list up to END issue the requests `q`, the
whole command takes two clocks a request, and one each for the CMD write and END. -/
theorem runFrom_command {v : Byte} {i : Instr} {op : SeqOp} {l d : Bool} {us : List MicroOp} {code : Byte}
    {st : Option Lifecycle} {q : List Request} {a : List Byte} {s : State} (hd : decodeHost v = .ok i)
    (hr : s.running = false) (hp : s.port = none) (hw : s.waiting = false)
    (start : ∀ ins, exec i (s.quiet ins) = .next ((s.quiet ins).start op l d))
    (hops : (s.start op l d).ops = us ++ [.finish code st]) (h : Passes s.mem us q a) (rest : List ClockIn) :
    runFrom (2 * q.length + 2) (commandIn v a ++ rest) s =
      .next (((s.start op l d).passed us.length (answered q a) rest).finish code st) := by
  obtain ⟨-, run⟩ := h
  let ins := answersIn a ++ tickIn :: rest
  have write : step { s with inputs := writeIn 0x0000 v :: ins } = .next ((s.quiet ins).start op l d) :=
    (step_command hd ins hr).trans (start ins)
  have before : ((s.quiet ins).start op l d).Before (us ++ [.finish code st]) :=
    ⟨⟨[], [], by rw [List.append_nil]; exact hops, rfl⟩, hp, hw, rfl, rfl⟩
  have middle := run ((s.quiet ins).start op l d) (tickIn :: rest) rfl (before_left before)
  have after := before_passed before (answered q a) (tickIn :: rest)
  have last := step_finish (microOp_of_before after) after.free rest
  calc runFrom (2 * q.length + 2) (commandIn v a ++ rest) s
      = runFrom (2 * q.length + 1 + 1) (writeIn 0x0000 v :: ins) s := by simp [commandIn, ins]
    _ = runFrom (2 * q.length + 1) ins ((s.quiet ins).start op l d) := runFrom_succ write
    _ = runFrom 1 (tickIn :: rest) (((s.quiet ins).start op l d).passed us.length (answered q a) (tickIn :: rest)) :=
        runFrom_add middle
    _ = _ := runFrom_succ (n := 0) last

end Sys2Proof.Machine
end

section
/-! INIT (41_init.md): turned away without 30 LUT bytes (O8), ended by a failed T_INIT (O34), ended by END in READY (O33), and
run as a whole (O29). -/

namespace Sys2Proof.Machine

/-! ### Acceptance (R121) -/

theorem execInit_refused {s : State} (hr : s.running = false) (hl : s.lutLen ≠ 30) :
    exec .init s = .next (s.reject codeLutLength) :=
  (congrArg (accept .init false false · s) (if_neg hl)).trans (accept_refused hr)

theorem execInit_started {s : State} (hr : s.running = false) (hl : s.lutLen = 30) :
    exec .init s = .next (s.start .init false false) :=
  (congrArg (accept .init false false · s) (if_pos hl)).trans (accept_started hr)

theorem decodeHost_init : decodeHost 0x01 = .ok .init := rfl

/-- Settles O8: a CMD write of INIT's byte is INIT's meaning, which is turned away. -/
theorem initNeedsThirtyLutBytes : Obligations.InitNeedsThirtyLutBytes := fun s hr hl =>
  ⟨(hostWrite_cmd decodeHost_init s).trans (execInit_refused hr hl), execInit_refused hr hl⟩

/-! ### The answers that end it (R122, R123) -/

theorem microOp_init {s : State} {n : Nat} (ho : s.seqOp = .init) (hn : s.seqStep = n + 1) : s.microOp = initOps[n]? := by
  simp [State.microOp, State.ops, ho, hn]

/-- A nonzero answer to T_INIT ends the command in the same step (assumption log 20). -/
theorem afterAnswer_tinit_failed {x : Byte} (hx : x ≠ 0x00) (s : State) :
    afterAnswer .tinit x s = s.finish codeTransportInit none := if_neg hx

/-- The answer at the last index of a stream goes on to the next micro-operation. -/
theorem complete_stream_last {s : State} {m : BlockMem} {n : Nat} (hu : s.microOp = some (.stream m n)) (hn : n ≤ s.seqI + 1)
    (r : Request) (x : Byte) : complete r x s = (s.answer r x).advance := by
  rw [complete, hu]
  exact nextIndex_last hn

/-- Settles O34: the sequencer stands at T_INIT, and the answer is nonzero. -/
theorem failedTransportInitEndsInit : Obligations.FailedTransportInitEndsInit := by
  intro s x rest ho hs hp hx
  have hr : s.running = true := (running_iff s).2 (by simp [ho])
  have hu : (s.quiet rest).microOp = some .tinit := (microOp_quiet rest s).trans (microOp_init ho hs)
  rw [runFrom_succ (n := 0) (step_answer hr hp), complete, hu]
  exact congrArg Host.Outcome.next (afterAnswer_tinit_failed hx _)

/-- Settles O33: the answer leads from the last index of the LUT stream to END, and END writes STATE, RESULT and RUNNING. -/
theorem initEndsInReady : Obligations.InitEndsInReady := by
  intro s r x rest ho hs hi hp
  have hr : s.running = true := (running_iff s).2 (by simp [ho])
  have hu : (s.quiet (tickIn :: rest)).microOp = some (.stream .lutMem 30) :=
    (microOp_quiet _ s).trans (microOp_init ho hs)
  let t := ((s.quiet (tickIn :: rest)).answer r x).advance
  have answer : step { s with inputs := answerIn x :: tickIn :: rest } = .next t := by
    rw [step_answer hr hp, complete_stream_last hu (Nat.le_of_eq (congrArg (· + 1) hi.symm))]
  have hend : t.microOp = initOps[23]? := microOp_init (s := t) ho (congrArg (· + 1) hs)
  have finish := step_finish (code := codeOk) (st := some .ready) hend rfl rest
  refine ⟨⟨t, runFrom_succ (n := 0) answer, hr, rfl, rfl⟩, 24, 0, ?_⟩
  refine (runFrom_succ (n := 1) answer).trans ((runFrom_succ (n := 0) finish).trans ?_)
  simp [runFrom_zero, t, State.quiet, State.answer, State.advance, State.finish, codeOk, hs]

/-! ### The whole command (R131) -/

/-- INIT's requests from T_INIT to the byte of POWER-ON (R124 to R126). -/
def initPowerUp : List Request :=
  [.tInit, .pinWrite .rst true, .delay 200, .pinWrite .rst false, .delay 10, .pinWrite .rst true, .delay 200,
    .sendCommand 0x06, .sendData Config.boosterData0, .sendData Config.boosterData1, .sendData Config.boosterData2,
    .sendCommand 0x04]

/-- INIT's requests from the panel settings to the byte of LUT WRITE (R127 to R130). -/
def initSettings : List Request :=
  [.sendCommand 0x00, .sendData Config.panelSettingData, .sendCommand 0x50, .sendData Config.vcomIntervalData,
    .sendCommand 0x61, .sendData 0x68, .sendData 0x00, .sendData 0xD4, .sendCommand 0x32]

/-- INIT's list is what comes before END, and END. -/
theorem initOps_eq : initOps = initOps.dropLast ++ [.finish codeOk (some .ready)] := rfl

/-- INIT's list up to END, with T_INIT answered with status 0x00: the power-up, its WaitReady, the settings and the LUT. -/
theorem passes_init {s : State} {p : Polls} {a b : List Byte} (hlut : s.written .lutMem) (hok : p.ok) (ha : a.length = 11)
    (hb : b.length = 39) :
    Passes s.mem initOps.dropLast (initPowerUp ++ p.reqs ++ initSettings ++ s.dataOf .lutMem 30)
      (0x00 :: a ++ p.rsps ++ b) := by
  have powerUp : Passes s.mem (initOps.take 12) initPowerUp (0x00 :: a) :=
    passes_append (passes_tinit s.mem) (passes_requests s.mem (us := (initOps.drop 1).take 11) (q := initPowerUp.tail) rfl ha)
  have nine : (b.take 9).length = 9 := by simp [hb]
  have settings : Passes s.mem ((initOps.drop 13).take 9) initSettings (b.take 9) := passes_requests s.mem rfl nine
  have lut : Passes s.mem [.stream .lutMem 30] (s.dataOf .lutMem 30) (b.drop 9) :=
    passes_stream (by decide) (by simp [hb]) hlut
  have whole := passes_append (passes_append (passes_append powerUp (passes_wait s.mem hok)) settings) lut
  rw [List.append_assoc (0x00 :: a ++ p.rsps), List.take_append_drop] at whole
  exact whole

/-- INIT whose T_INIT fails ends after that one request (R123). -/
theorem runFrom_init_failed {s : State} {x : Byte} (hr : s.running = false) (hp : s.port = none) (hl : s.lutLen = 30)
    (hx : x ≠ 0x00) (rest : List ClockIn) :
    runFrom 3 (writeIn 0x0000 0x01 :: (answersIn [x] ++ rest)) s =
      .next ((((s.start .init false false).quiet rest).answer .tInit x).finish codeTransportInit none) := by
  let t := (s.quiet (answersIn [x] ++ rest)).start .init false false
  have write : step { s with inputs := writeIn 0x0000 0x01 :: (answersIn [x] ++ rest) } = .next t :=
    (step_command decodeHost_init _ hr).trans (execInit_started (s := s.quiet _) hr hl)
  have hu : t.microOp = some .tinit := microOp_init (s := t) rfl rfl
  calc runFrom 3 (writeIn 0x0000 0x01 :: (answersIn [x] ++ rest)) s
      = runFrom 2 (tickIn :: answerIn x :: rest) t := runFrom_succ write
    _ = .next (afterAnswer .tinit x ((t.quiet rest).answer .tInit x)) :=
        runFrom_request_answer (i := .tInit) hu nofun hp rfl rfl rfl x rest
    _ = _ := by rw [afterAnswer_tinit_failed hx]; rfl

/-- Settles O29: INIT's list is passed as a whole, a failing T_INIT ends it, and without 30 LUT bytes it does not start. -/
theorem initTrace : Obligations.InitTrace := by
  refine ⟨fun s p a b rest hr hp hw hl hlut hok ha hb => ⟨?_, ?_⟩, fun s x rest hr hp hl hx => ?_, fun s rest hr _ hl => ?_⟩
  · simp only [List.length_append, length_reqs, length_dataOf, List.length_cons, List.length_nil]
    omega
  · exact runFrom_command decodeHost_init hr hp hw (fun ins => execInit_started (s := s.quiet ins) hr hl) initOps_eq
      (passes_init hlut hok ha hb) rest
  · rw [runFrom_init_failed hr hp hl hx]
    simp [State.start, State.quiet, State.answer, State.finish, codeTransportInit, hp]
  · exact runFrom_succ (n := 0) ((step_command decodeHost_init rest hr).trans (execInit_refused (s := s.quiet rest) hr hl))

end Sys2Proof.Machine
end

section
/-! The geometry test (O35). -/

namespace Sys2Proof.Machine

/-- Two bytes in a row are the value `c` exactly when they are its high and its low byte (R27, R55). -/
theorem append_eq_iff_bytes (hi lo : Byte) (c : BitVec 16) : hi ++ lo = c ↔ hi = argHi c ∧ lo = argLo c where
  mp h := by rw [← h, argHi_append, argLo_append]; exact ⟨rfl, rfl⟩
  mpr := by rintro ⟨rfl, rfl⟩; exact argHi_append_argLo c

theorem geometryOf_native_iff (w h : BitVec 16) : geometryOf w h = .native ↔ w = 104 ∧ h = 212 := by
  unfold geometryOf
  split
  · next hn => exact iff_of_true rfl hn
  · next hn => split <;> exact iff_of_false nofun hn

theorem geometryOf_transposed_iff (w h : BitVec 16) : geometryOf w h = .transposed ↔ w = 212 ∧ h = 104 := by
  unfold geometryOf
  split
  · next hn =>
    obtain ⟨rfl, rfl⟩ := hn
    decide
  · split
    · next ht => exact iff_of_true rfl ht
    · next ht => exact iff_of_false nofun ht

/-- The geometry is unsupported exactly when neither of the two cases holds (R143). -/
theorem unsupported_iff (g : Geometry) : g = .unsupported ↔ g ≠ .native ∧ g ≠ .transposed := by
  cases g <;> decide

/-- Settles O35: the test compares the two 16-bit values, and each is its two registers' bytes. -/
theorem geometryTest : Obligations.GeometryTest := by
  intro s
  have native := geometryOf_native_iff s.imgW s.imgH
  have transposed := geometryOf_transposed_iff s.imgW s.imgH
  refine ⟨native, transposed, ?_, native.trans ?_, transposed.trans ?_⟩
  · exact (unsupported_iff s.geometry).trans (and_congr (not_congr native) (not_congr transposed))
  · rw [State.imgW, State.imgH, append_eq_iff_bytes, append_eq_iff_bytes, and_assoc]
    rfl
  · rw [State.imgW, State.imgH, append_eq_iff_bytes, append_eq_iff_bytes, and_assoc]
    rfl

end Sys2Proof.Machine
end

section
/-! The converter's loops, bit by bit (R141): bit `n` of a buffer, counted from its first byte and from the top of each
byte, is the bit `0x80 >> (n % 8)` of byte `n / 8` (R52, R53). -/

namespace Sys2Proof.Machine

/-! ### The bits of a buffer -/

/-- Bit `n` of a buffer; past its end every bit is 1, as `pix` reads it. -/
def bitAt (buf : List Byte) (n : Nat) : Bool := (buf.getD (n / 8) 0xFF).getLsbD (7 - n % 8)

/-- A pixel of an image is a bit of it (R53). -/
theorem pix_eq_bitAt (img : List Byte) (w x y : Nat) : pix img w x y = bitAt img (x + y * w) := rfl

theorem map_getLsbD_eq_bitAt {buf : List Byte} {n : Nat} (h : n / 8 < buf.length) :
    buf[n / 8]?.map (fun b => b.getLsbD (7 - n % 8)) = some (bitAt buf n) := by
  simp [bitAt, h]

/-- Buffers of one length with the same bits are the same. -/
theorem eq_of_bitAt {a b : List Byte} (hl : a.length = b.length) (h : ∀ n < 8 * a.length, bitAt a n = bitAt b n) :
    a = b := by
  refine List.ext_getElem hl fun i ha hb => BitVec.eq_of_getLsbD_eq fun j hj => ?_
  have bit := h (8 * i + (7 - j)) (by omega)
  have hi : (8 * i + (7 - j)) / 8 = i := by omega
  have hj' : 7 - (8 * i + (7 - j)) % 8 = j := by omega
  rwa [bitAt, bitAt, hi, hj', List.getD_eq_getElem _ _ ha, List.getD_eq_getElem _ _ hb] at bit

/-- The mask `~(0x80 >> k)` takes away bit `k` from the top and no other (R141). -/
theorem getLsbD_and_not_mask (b : Byte) {j : Nat} (hj : j < 8) (k : Nat) :
    (b &&& ~~~(0x80#8 >>> k)).getLsbD (7 - j) = (b.getLsbD (7 - j) && decide (k ≠ j)) := by
  have mask : (0x80#8 >>> k).getLsbD (7 - j) = decide (k = j) := by
    rw [BitVec.getLsbD_ushiftRight, show (0x80#8) = BitVec.twoPow 8 7 from rfl, BitVec.getLsbD_twoPow,
      decide_eq_true (by omega : 7 < 8), Bool.true_and]
    exact decide_eq_decide.2 (by omega)
  rw [BitVec.getLsbD_and, BitVec.getLsbD_not, decide_eq_true (by omega : 7 - j < 8), Bool.true_and, mask, decide_not]

/-- Clearing the pixel at bit `m` clears that bit and no other. -/
theorem bitAt_clearPixel {buf : List Byte} {m : Nat} (h : m / 8 < buf.length) (n : Nat) :
    bitAt (clearPixel buf (m / 8) (m % 8)) n = (bitAt buf n && decide (m ≠ n)) := by
  have hn : n % 8 < 8 := Nat.mod_lt n (by decide)
  by_cases hb : m / 8 = n / 8
  · have same : m % 8 ≠ n % 8 ↔ m ≠ n := by omega
    have byte : (clearPixel buf (m / 8) (m % 8)).getD (n / 8) 0xFF
        = buf.getD (n / 8) 0xFF &&& ~~~(0x80#8 >>> (m % 8)) := by
      simp [clearPixel, ← hb, h]
    rw [bitAt, byte, getLsbD_and_not_mask _ hn, decide_eq_decide.2 same]
    rfl
  · have byte : (clearPixel buf (m / 8) (m % 8)).getD (n / 8) 0xFF = buf.getD (n / 8) 0xFF := by
      simp [clearPixel, hb]
    have other : m ≠ n := fun e => hb (congrArg (· / 8) e)
    rw [bitAt, byte, decide_eq_true other, Bool.and_true]
    rfl

/-- Before any pixel every bit is 1 (R142). -/
theorem bitAt_prefill (n : Nat) : bitAt prefill n = true := by
  have white : prefill.getD (n / 8) 0xFF = 0xFF := by
    rw [prefill, List.getD_eq_getElem?_getD, List.getElem?_replicate]
    split <;> rfl
  have top : 7 - n % 8 < 8 := by omega
  rw [bitAt, white, show (0xFF : Byte) = BitVec.allOnes 8 from rfl, BitVec.getLsbD_allOnes, decide_eq_true top]

/-! ### The loops -/

/-- One pixel of a loop: a pixel that is not white clears its bit of the destination. -/
def paint (white : Nat × Nat → Bool) (bit : Nat × Nat → Nat) (buf : List Byte) (p : Nat × Nat) : List Byte :=
  if white p then buf else clearPixel buf (bit p / 8) (bit p % 8)

theorem length_paint (white : Nat × Nat → Bool) (bit : Nat × Nat → Nat) (buf : List Byte) (p : Nat × Nat) :
    (paint white bit buf p).length = buf.length := by
  unfold paint
  split
  · rfl
  · exact length_clearPixel buf _ _

theorem bitAt_paint {white : Nat × Nat → Bool} {bit : Nat × Nat → Nat} {buf : List Byte} {p : Nat × Nat}
    (h : bit p / 8 < buf.length) (n : Nat) :
    bitAt (paint white bit buf p) n = (bitAt buf n && (white p || decide (bit p ≠ n))) := by
  unfold paint
  cases white p with
  | true => simp
  | false => simp [bitAt_clearPixel h]

/-- After a loop a bit is 1 where it was 1 before and every pixel whose bit it is is white. -/
theorem bitAt_foldl_paint {white : Nat × Nat → Bool} {bit : Nat × Nat → Nat} {l : List (Nat × Nat)} {buf : List Byte}
    (h : ∀ p ∈ l, bit p / 8 < buf.length) (n : Nat) :
    bitAt (l.foldl (paint white bit) buf) n = (bitAt buf n && l.all fun p => white p || decide (bit p ≠ n)) := by
  induction l generalizing buf with
  | nil => simp
  | cons p l ih =>
    have rest : ∀ q ∈ l, bit q / 8 < (paint white bit buf p).length := fun q hq => by
      rw [length_paint]
      exact h q (List.mem_cons_of_mem p hq)
    rw [List.foldl_cons, ih rest, bitAt_paint (h p List.mem_cons_self), List.all_cons, Bool.and_assoc]

/-- A loop whose pixels have bits of their own leaves each pixel's bit as the pixel. -/
theorem bitAt_painted {white : Nat × Nat → Bool} {bit : Nat × Nat → Nat} {l : List (Nat × Nat)}
    (h : ∀ p ∈ l, bit p < 22048) (hinj : Set.InjOn bit {p | p ∈ l}) {p : Nat × Nat} (hp : p ∈ l) :
    bitAt (l.foldl (paint white bit) prefill) (bit p) = white p := by
  have inside : ∀ q ∈ l, bit q / 8 < prefill.length := fun q hq => by
    have := h q hq
    rw [length_prefill]
    omega
  rw [bitAt_foldl_paint inside, bitAt_prefill, Bool.true_and, Bool.eq_iff_iff, List.all_eq_true]
  constructor
  · intro all
    simpa using all p hp
  · intro hw q hq
    by_cases he : bit q = bit p
    · rw [hinj hq hp he, hw, Bool.true_or]
    · rw [decide_eq_true he, Bool.or_true]

theorem mem_pixels {w h x y : Nat} : (x, y) ∈ pixels w h ↔ x < w ∧ y < h := by
  simp [pixels, and_comm]

/-! ### The native loop (R144) -/

/-- The destination bit of a pixel of the native loop. -/
def nativeBit (p : Nat × Nat) : Nat := p.1 + p.2 * 104

theorem nativePixel_eq_paint (img : List Byte) :
    nativePixel img = paint (fun p => pix img 104 p.1 p.2) nativeBit := by
  funext buf p
  have hbit : nativeBit p % 8 = p.1 % 8 := by unfold nativeBit; omega
  rw [paint, hbit]
  rfl

theorem nativeBit_lt {p : Nat × Nat} (h : p ∈ pixels 104 212) : nativeBit p < 22048 := by
  obtain ⟨hx, hy⟩ := mem_pixels.1 h
  unfold nativeBit
  omega

theorem nativeBit_injOn : Set.InjOn nativeBit {p | p ∈ pixels 104 212} := by
  rintro ⟨x, y⟩ hp ⟨u, v⟩ hq he
  obtain ⟨hx, hy⟩ := mem_pixels.1 hp
  obtain ⟨hu, hv⟩ := mem_pixels.1 hq
  unfold nativeBit at he
  exact Prod.ext (by omega) (by omega)

/-- The native conversion leaves each panel pixel as the source pixel (R145). -/
theorem bitAt_convertNative (img : List Byte) {x y : Nat} (hx : x < 104) (hy : y < 212) :
    bitAt (convertNative img) (x + y * 104) = pix img 104 x y := by
  have hbit : x + y * 104 = nativeBit (x, y) := rfl
  rw [convertNative, nativePixel_eq_paint, hbit]
  exact bitAt_painted (fun _ => nativeBit_lt) nativeBit_injOn (mem_pixels.2 ⟨hx, hy⟩)

/-- The native conversion is a copy (R145): each bit is a pixel's. -/
theorem convertNative_eq_self {img : List Byte} (hl : img.length = 2756) : convertNative img = img := by
  refine eq_of_bitAt ((length_convertNative img).trans hl.symm) fun n hn => ?_
  rw [length_convertNative] at hn
  have pixel := bitAt_convertNative img (x := n % 104) (y := n / 104) (by omega) (by omega)
  rwa [pix_eq_bitAt, show n % 104 + n / 104 * 104 = n by omega] at pixel

/-! ### The transposed loop (R146) -/

/-- The destination bit of a pixel of the transposed loop: `newx = y`, `newy = 212 - x - 1`. -/
def transposedBit (p : Nat × Nat) : Nat := p.2 + (212 - p.1 - 1) * 104

theorem transposedPixel_eq_paint (img : List Byte) :
    transposedPixel img = paint (fun p => pix img 212 p.1 p.2) transposedBit := by
  funext buf p
  have hbit : transposedBit p % 8 = p.2 % 8 := by unfold transposedBit; omega
  rw [paint, hbit]
  rfl

theorem transposedBit_lt {p : Nat × Nat} (h : p ∈ pixels 212 104) : transposedBit p < 22048 := by
  obtain ⟨hx, hy⟩ := mem_pixels.1 h
  unfold transposedBit
  omega

theorem transposedBit_injOn : Set.InjOn transposedBit {p | p ∈ pixels 212 104} := by
  rintro ⟨x, y⟩ hp ⟨u, v⟩ hq he
  obtain ⟨hx, hy⟩ := mem_pixels.1 hp
  obtain ⟨hu, hv⟩ := mem_pixels.1 hq
  unfold transposedBit at he
  exact Prod.ext (by omega) (by omega)

/-- The transposed conversion leaves panel pixel `(px, py)` as source pixel `(211 - py, px)` (R147). -/
theorem bitAt_convertTransposed (img : List Byte) {px py : Nat} (hx : px < 104) (hy : py < 212) :
    bitAt (convertTransposed img) (px + py * 104) = pix img 212 (211 - py) px := by
  have hbit : px + py * 104 = transposedBit (211 - py, px) := by unfold transposedBit; omega
  rw [convertTransposed, transposedPixel_eq_paint, hbit]
  exact bitAt_painted (fun _ => transposedBit_lt) transposedBit_injOn (mem_pixels.2 ⟨by omega, hx⟩)

end Sys2Proof.Machine
end

section
/-! GETBUFFER as a whole (42_getbuffer.md), from its CMD write to its end: native (O37), transposed (O38) and of unsupported
geometry (O39). -/

namespace Sys2Proof.Machine

/-! ### The buffer it makes -/

/-- The PanelBuffer that CONVERT makes (R141), or the first address of IMG_MEM that it reads and nothing has written (I4). -/
def State.panelBuffer (s : State) : Except Nat (List Byte) :=
  match s.geometry with
  | .native => s.image.map convertNative
  | .transposed => s.image.map convertTransposed
  | .unsupported => .ok prefill

theorem panelBuffer_native {s : State} {img : List Byte} (hg : s.geometry = .native) (hi : s.image = .ok img) :
    s.panelBuffer = .ok (convertNative img) := by
  rw [State.panelBuffer, hg, hi]
  rfl

theorem panelBuffer_transposed {s : State} {img : List Byte} (hg : s.geometry = .transposed) (hi : s.image = .ok img) :
    s.panelBuffer = .ok (convertTransposed img) := by
  rw [State.panelBuffer, hg, hi]
  rfl

theorem panelBuffer_unsupported {s : State} (hg : s.geometry = .unsupported) : s.panelBuffer = .ok prefill := by
  rw [State.panelBuffer, hg]

/-- CONVERT stops at such an address, and else writes the buffer into BUF[k] and goes on to END (R140). -/
theorem convertStep_eq_panelBuffer (k : Bool) (s : State) :
    convertStep k s =
      match s.panelBuffer with
      | .error a => .fault (.unwrittenByte a)
      | .ok bytes => .next (s.writeBuf k bytes).advance := by
  unfold convertStep State.panelBuffer
  cases s.geometry <;> cases s.image <;> rfl

theorem convertStep_panelBuffer {s : State} {bytes : List Byte} (h : s.panelBuffer = .ok bytes) (k : Bool) :
    convertStep k s = .next (s.writeBuf k bytes).advance := by
  rw [convertStep_eq_panelBuffer, h]

/-! ### Its three clocks -/

/-- GETBUFFER's command byte for its destination BUF[k] (R75). -/
theorem decodeHost_getbuffer (k : Bool) : decodeHost (if k then 0x15 else 0x05) = .ok (.getbuffer k) := by
  cases k <;> rfl

/-- GETBUFFER is accepted wherever no command runs (R151). -/
theorem execGetbuffer_started {s : State} (hr : s.running = false) (k : Bool) :
    exec (.getbuffer k) s = .next (s.start .getbuffer false k) := accept_started hr

/-- CONVERT, in one engine step (R113, R149; assumption log 14). -/
theorem step_convert {s : State} {k : Bool} {bytes : List Byte} (hu : s.microOp = some (.convert k)) (hp : s.port = none)
    (hb : s.panelBuffer = .ok bytes) (rest : List ClockIn) :
    step { s with inputs := tickIn :: rest } = .next ((s.quiet rest).writeBuf k bytes).advance := by
  rw [step_tick (running_of_microOp hu) hp, engineStep, engineAct, microOp_quiet, hu]
  exact convertStep_panelBuffer (s := s.quiet rest) hb k

/-- The CMD write starts the command, CONVERT writes the buffer, and END writes the code. -/
theorem runFrom_getbuffer {s : State} {bytes : List Byte} (hr : s.running = false) (hp : s.port = none)
    (hb : s.panelBuffer = .ok bytes) (k : Bool) (rest : List ClockIn) :
    runFrom 3 (commandIn (if k then 0x15 else 0x05) [] ++ tickIn :: rest) s =
      .next ((((s.start .getbuffer false k).writeBuf k bytes).advance.quiet rest).finish s.geometryCode none) := by
  let ins := tickIn :: tickIn :: rest
  let started := (s.quiet ins).start .getbuffer false k
  let converted := ((started.quiet (tickIn :: rest)).writeBuf k bytes).advance
  have write := (step_command (decodeHost_getbuffer k) ins hr).trans (execGetbuffer_started (s := s.quiet ins) hr k)
  have convert := step_convert (s := started) (k := k) rfl hp hb (tickIn :: rest)
  have finish := step_finish (s := converted) (code := s.geometryCode) (st := none) rfl hp rest
  calc runFrom 3 (commandIn (if k then 0x15 else 0x05) [] ++ tickIn :: rest) s
      = runFrom 2 ins started := runFrom_succ write
    _ = runFrom 1 (tickIn :: rest) converted := runFrom_succ convert
    _ = _ := runFrom_succ (n := 0) finish

/-- What a whole GETBUFFER leaves: the buffer in its destination, its code in RESULT, and all else but the sequencer, DROP and
`h_rdata` as it was (R140). -/
theorem getbuffer_leaves {s : State} {bytes : List Byte} {code : Byte} (hr : s.running = false) (hp : s.port = none)
    (hb : s.panelBuffer = .ok bytes) (hl : bytes.length = 2756) (hc : s.geometryCode = code) (k : Bool)
    (rest : List ClockIn) :
    ∃ t, runFrom 3 (commandIn (if k then 0x15 else 0x05) [] ++ tickIn :: rest) s = .next t ∧
      (∀ i < 2756, t.memByte (bufOf k) i = bytes[i]?) ∧
      (∀ a : Nat, inMem (bufOf k) a = false → memRead t.mem a = memRead s.mem a) ∧
      t = { s with mem := t.mem, drop := false, result := code, seqOp := .idle, seqL := false, seqD := k,
                   seqStep := t.seqStep, seqI := t.seqI, hRdata := none, inputs := rest } := by
  subst hc
  refine ⟨_, runFrom_getbuffer hr hp hb k rest, fun i hi => ?_, fun a ha => ?_, rfl⟩
  · rw [← hl] at hi
    exact (memRead_memWriteRun_at bytes s.mem _ i hi).trans (List.getElem?_eq_getElem hi).symm
  · exact memRead_writeBuf_outside hl ha s

/-! ### Pixels and bytes -/

/-- IMG_MEM, where every byte of it has been written (I4). -/
theorem image_of_written {s : State} (h : s.written .imgMem) :
    ∃ img, s.image = .ok img ∧ img.length = 2756 ∧ ∀ i < 2756, s.memByte .imgMem i = img[i]? := by
  obtain ⟨img, hi⟩ := memReadRun_total h
  exact ⟨img, hi, memReadRun_ok hi⟩

/-- A source pixel is a bit of the image (R53). -/
theorem sourceBit_eq_pix {s : State} {img : List Byte} (hl : img.length = 2756)
    (hi : ∀ i < 2756, s.memByte .imgMem i = img[i]?) {w x y : Nat} (h : x + y * w < 22048) :
    s.sourceBit w x y = some (pix img w x y) := by
  rw [State.sourceBit, hi _ (by omega)]
  exact map_getLsbD_eq_bitAt (by omega)

/-- A panel pixel is a bit of its buffer (R52). -/
theorem panelBit_eq_bitAt {t : State} {k : Bool} {bytes : List Byte} (hl : bytes.length = 2756)
    (hb : ∀ i < 2756, t.memByte (bufOf k) i = bytes[i]?) {px py : Nat} (hx : px < 104) (hy : py < 212) :
    t.panelBit k px py = some (bitAt bytes (px + py * 104)) := by
  have byte : 13 * py + px / 8 = (px + py * 104) / 8 := by omega
  have bit : px % 8 = (px + py * 104) % 8 := by omega
  rw [State.panelBit, hb _ (by omega), byte, bit]
  exact map_getLsbD_eq_bitAt (by omega)

/-! ### The three geometries -/

theorem geometryCode_native {s : State} (hg : s.geometry = .native) : s.geometryCode = 0x00 := by
  rw [State.geometryCode, hg]
  rfl

theorem geometryCode_transposed {s : State} (hg : s.geometry = .transposed) : s.geometryCode = 0x00 := by
  rw [State.geometryCode, hg]
  rfl

theorem geometryCode_unsupported {s : State} (hg : s.geometry = .unsupported) : s.geometryCode = 0x02 := by
  rw [State.geometryCode, hg]
  rfl

/-- Settles O37: the buffer that the native loop makes is the image itself. -/
theorem nativeGetbufferCopiesTheImage : Obligations.NativeGetbufferCopiesTheImage := by
  intro s k rest hr hp hw hh hwr
  have hg : s.geometry = .native := (geometryOf_native_iff s.imgW s.imgH).2 ⟨hw, hh⟩
  obtain ⟨img, himg, hl, hi⟩ := image_of_written hwr
  have hb := panelBuffer_native hg himg
  rw [convertNative_eq_self hl] at hb
  obtain ⟨t, run, bytes, frame, whole⟩ := getbuffer_leaves hr hp hb hl (geometryCode_native hg) k rest
  refine ⟨t, run, fun px hx py hy => ?_, fun i hlt => (bytes i hlt).trans (hi i hlt).symm, frame, whole⟩
  have pixel : t.panelBit k px py = some (pix img 104 px py) := panelBit_eq_bitAt hl bytes hx hy
  rw [pixel, sourceBit_eq_pix hl hi (by omega)]
  exact ⟨rfl, nofun⟩

/-- Settles O38: each bit of the buffer that the transposed loop makes is the pixel of R147; the rest is arithmetic. -/
theorem transposedGetbufferRotatesTheImage : Obligations.TransposedGetbufferRotatesTheImage := by
  refine ⟨?_, fun x hx y hy => ⟨hy, by omega, Prod.ext (by omega) rfl⟩,
    fun px hx py hy => ⟨by omega, hx, Prod.ext rfl (by omega)⟩⟩
  intro s k rest hr hp hw hh hwr
  have hg : s.geometry = .transposed := (geometryOf_transposed_iff s.imgW s.imgH).2 ⟨hw, hh⟩
  obtain ⟨img, himg, hl, hi⟩ := image_of_written hwr
  have hlt := length_convertTransposed img
  obtain ⟨t, run, bytes, frame, whole⟩ :=
    getbuffer_leaves hr hp (panelBuffer_transposed hg himg) hlt (geometryCode_transposed hg) k rest
  refine ⟨t, run, fun px hx py hy => ?_, frame, whole⟩
  rw [panelBit_eq_bitAt hlt bytes hx hy, bitAt_convertTransposed img hx hy, sourceBit_eq_pix hl hi (by omega)]
  exact ⟨rfl, nofun⟩

/-- Settles O39: the buffer is the white one, of which no pixel is cleared. -/
theorem unsupportedGeometryGivesWhite : Obligations.UnsupportedGeometryGivesWhite := by
  intro s k rest hr hp hnative htransposed
  have hg : s.geometry = .unsupported := (unsupported_iff s.geometry).2
    ⟨mt (geometryOf_native_iff s.imgW s.imgH).1 hnative, mt (geometryOf_transposed_iff s.imgW s.imgH).1 htransposed⟩
  obtain ⟨t, run, bytes, frame, whole⟩ :=
    getbuffer_leaves hr hp (panelBuffer_unsupported hg) length_prefill (geometryCode_unsupported hg) k rest
  refine ⟨t, run, fun i hi => ?_, frame, whole⟩
  rw [bytes i hi, prefill]
  exact List.getElem?_replicate_of_lt hi

end Sys2Proof.Machine
end

section
/-! DISPLAY (O30), CLEAR (O31) and SLEEP (O32) as a whole (43_display_clear_sleep.md), from the CMD write to END. -/

namespace Sys2Proof.Machine

/-! ### Micro-operations that pass whatever the answers are -/

/-- Over the block memories `m`, the micro-operations `us` issue the requests `q` whatever these are answered with. -/
def PassesAny (m : Memory) (us : List MicroOp) (q : List Request) : Prop :=
  ∀ a : List Byte, a.length = q.length → Passes m us q a

theorem passesAny_append {m : Memory} {us vs : List MicroOp} {q r : List Request} (hu : PassesAny m us q)
    (hv : PassesAny m vs r) : PassesAny m (us ++ vs) (q ++ r) := by
  intro a ha
  rw [List.length_append] at ha
  have both := passes_append (hu (a.take q.length) (by rw [List.length_take]; omega))
    (hv (a.drop q.length) (by rw [List.length_drop]; omega))
  rwa [List.take_append_drop] at both

theorem passesAny_requests (m : Memory) {us : List MicroOp} {q : List Request} (hq : us.map requestAt = q.map some) :
    PassesAny m us q := by
  intro a ha
  have hlen : us.length = q.length := by simpa using congrArg List.length hq
  exact passes_requests m hq (ha.trans hlen.symm)

/-- A stream of a written PanelBuffer issues its bytes (R161, R162). -/
theorem passesAny_stream {s : State} {k : Bool} (hw : s.written (bufOf k)) :
    PassesAny s.mem [.stream (bufOf k) 2756] (s.dataOf (bufOf k) 2756) := by
  have hsize : memSize (bufOf k) = 2756 := by cases k <;> rfl
  intro a ha
  rw [length_dataOf] at ha
  exact passes_stream (by decide) ha fun i hi => hw i (hsize.symm ▸ hi)

/-- A fill issues equal bytes, whatever the memories hold (R164). -/
theorem passesAny_fill (m : Memory) (b : Byte) {n : Nat} (hn : 0 < n) :
    PassesAny m [.fill b n] (List.replicate n (.sendData b)) := by
  intro a ha
  refine ⟨ha.symm, fun s rest _ h => ?_⟩
  rw [List.length_replicate] at ha ⊢
  exact fillSendsEqualBytes s b n a rest (microOp_of_before h) h.first h.free hn ha

/-! ### Acceptance (R212, R215) -/

theorem accept_in_ready {op : SeqOp} {l d : Bool} {s : State} (hr : s.running = false) (hl : s.lifecycle = .ready) :
    accept op l d (stateRefusal s) s = .next (s.start op l d) := by
  rw [stateRefusal, if_pos hl]
  exact accept_started hr

/-- DISPLAY's command byte for its layers L (R73, R75). -/
theorem decodeHost_display (l : Bool) : decodeHost (if l then 0x0B else 0x03) = .ok (.display l) := by
  cases l <;> rfl

/-! ### DISPLAY -/

/-- A layer is its start byte, the micro-operation that sends its bytes, and 0x92 (R161, R162). -/
theorem passesAny_layer {m : Memory} {u : MicroOp} {q : List Request} (b : Byte) (hu : PassesAny m [u] q) :
    PassesAny m [.cmd b, u, .cmd 0x92] (.sendCommand b :: q ++ [.sendCommand 0x92]) :=
  passesAny_append (passesAny_append (passesAny_requests m (us := [.cmd b]) (q := [.sendCommand b]) rfl) hu)
    (passesAny_requests m (us := [.cmd 0x92]) rfl)

/-- The requests of DISPLAY before its busy-wait: the black layer, the red layer where L = 1, and the refresh. -/
def displayLayers (s : State) (l : Bool) : List Request :=
  Request.sendCommand 0x10 :: s.dataOf .buf0 2756 ++ [Request.sendCommand 0x92] ++
    (if l then Request.sendCommand 0x13 :: s.dataOf .buf1 2756 ++ [Request.sendCommand 0x92] else []) ++
    [Request.sendCommand 0x12]

theorem length_displayLayers (s : State) (l : Bool) : (displayLayers s l).length = if l then 5517 else 2759 := by
  cases l <;> simp [displayLayers, length_dataOf]

/-- What stands in DISPLAY's list before its busy-wait. -/
def displayLayerOps (l : Bool) : List MicroOp :=
  blackLayer false ++ (if l then redLayer false else []) ++ [MicroOp.cmd 0x12]

/-- DISPLAY's list is what comes before its busy-wait, the busy-wait, and END. -/
theorem displayOps_eq (l : Bool) : displayOps l = displayLayerOps l ++ [MicroOp.wait] ++ [MicroOp.finish codeOk none] := by
  simp [displayOps, displayLayerOps, txRefresh]

theorem passesAny_displayLayers {s : State} {l : Bool} (hblack : s.written .buf0) (hred : l = true → s.written .buf1) :
    PassesAny s.mem (displayLayerOps l) (displayLayers s l) := by
  have black := passesAny_layer 0x10 (passesAny_stream (k := false) hblack)
  have refresh : PassesAny s.mem [.cmd 0x12] [.sendCommand 0x12] := passesAny_requests s.mem rfl
  cases l with
  | false => exact passesAny_append (passesAny_append black (passesAny_requests s.mem (us := []) (q := []) rfl)) refresh
  | true =>
    have red := passesAny_layer 0x13 (passesAny_stream (k := true) (hred rfl))
    exact passesAny_append (passesAny_append black red) refresh

/-- Settles O30: the layers and the refresh are passed with any answers, the busy-wait with its polls, and END ends it. -/
theorem displayTrace : Obligations.DisplayTrace := by
  intro s l p a rest hr hp hw hready hblack hred hok ha reqs
  have hreqs : reqs = displayLayers s l ++ p.reqs := rfl
  have layers := passesAny_displayLayers hblack hred a (ha.trans (length_displayLayers s l).symm)
  have run := runFrom_command (decodeHost_display l) hr hp hw (fun ins => accept_in_ready (s := s.quiet ins) hr hready)
    (displayOps_eq l) (passes_append layers (passes_wait s.mem hok)) rest
  rw [hreqs]
  refine ⟨?_, run.trans ?_⟩
  · rw [List.length_append, length_displayLayers, length_reqs]
    split <;> omega
  · cases l <;> rfl

/-! ### CLEAR -/

/-- The requests of CLEAR before its busy-wait: two layers of white bytes, each after its start byte and before 0x92, and the
refresh. -/
def clearLayers : List Request :=
  Request.sendCommand 0x10 :: List.replicate 2756 (Request.sendData 0xFF) ++
    [Request.sendCommand 0x92, Request.sendCommand 0x13] ++ List.replicate 2756 (Request.sendData 0xFF) ++
    [Request.sendCommand 0x92, Request.sendCommand 0x12]

theorem length_clearLayers : clearLayers.length = 5517 := by
  simp only [clearLayers, List.length_append, List.length_cons, List.length_nil, List.length_replicate]

theorem passesAny_clearLayers (m : Memory) : PassesAny m (clearOps.take 7) clearLayers := by
  have fill := passesAny_fill m 0xFF (n := 2756) (by decide)
  have start : PassesAny m [.cmd 0x10] [.sendCommand 0x10] := passesAny_requests m rfl
  have between : PassesAny m [.cmd 0x92, .cmd 0x13] [.sendCommand 0x92, .sendCommand 0x13] := passesAny_requests m rfl
  have refresh : PassesAny m [.cmd 0x92, .cmd 0x12] [.sendCommand 0x92, .sendCommand 0x12] := passesAny_requests m rfl
  exact passesAny_append (passesAny_append (passesAny_append (passesAny_append start fill) between) fill) refresh

/-- CLEAR's list is what comes before its busy-wait, the busy-wait, and END. -/
theorem clearOps_eq : clearOps = clearOps.take 7 ++ [MicroOp.wait] ++ [MicroOp.finish codeOk none] := rfl

/-- Settles O31: as for DISPLAY, with fills for streams, so that no memory need be written. -/
theorem clearTrace : Obligations.ClearTrace := by
  intro s p a rest hr hp hw hready hok ha reqs
  have hreqs : reqs = clearLayers ++ p.reqs := rfl
  have layers := passesAny_clearLayers s.mem a (ha.trans length_clearLayers.symm)
  have run := runFrom_command (v := 0x02) rfl hr hp hw (fun ins => accept_in_ready (s := s.quiet ins) hr hready)
    clearOps_eq (passes_append layers (passes_wait s.mem hok)) rest
  rw [hreqs]
  refine ⟨?_, run⟩
  rw [List.length_append, length_clearLayers, length_reqs]
  omega

/-! ### SLEEP -/

/-- Settles O32: SLEEP's list is POWER-OFF with its busy-wait, DEEP-SLEEP, T_SHUTDOWN, and END in SLEPT. -/
theorem sleepTrace : Obligations.SleepTrace := by
  intro s p a b c d rest hr hp hw hready hok
  have powerOff : Passes s.mem [.cmd 0x02] [.sendCommand 0x02] [a] := passes_request s.mem rfl a
  have shutdown : Passes s.mem [.cmd 0x07, .dat 0xA5, .tshut] [.sendCommand 0x07, .sendData 0xA5, .tShutdown] [b, c, d] :=
    passes_requests s.mem rfl rfl
  have whole := passes_append (passes_append powerOff (passes_wait s.mem hok)) shutdown
  refine ⟨?_, ?_⟩
  · simp only [List.length_append, List.length_cons, List.length_nil, length_reqs]
    omega
  · exact runFrom_command (v := 0x04) rfl hr hp hw (fun ins => accept_in_ready (s := s.quiet ins) hr hready) rfl whole rest

end Sys2Proof.Machine
end

section
/-! CONVERT and the streams where they meet a byte that nothing has written (O47). -/

namespace Sys2Proof.Machine

/-! ### The first byte never written -/

/-- A run of which byte `i` is the first that nothing has written is read up to that byte's address. -/
theorem memReadRun_first_unwritten {m : Memory} {a n i : Nat} (hi : i < n) (hnone : memRead m (a + i) = none)
    (hbefore : ∀ j < i, memRead m (a + j) ≠ none) : memReadRun m a n = .error (a + i) := by
  induction i generalizing a n with
  | zero =>
    obtain ⟨n, rfl⟩ := Nat.exists_eq_add_one.2 hi
    have here : memRead m a = none := hnone
    rw [memReadRun, here]
    rfl
  | succ i ih =>
    obtain ⟨n, rfl⟩ := Nat.exists_eq_add_one.2 (Nat.zero_lt_of_lt hi)
    obtain ⟨b, here⟩ : ∃ b, memRead m a = some b := Option.ne_none_iff_exists'.1 (hbefore 0 (Nat.succ_pos i))
    have shift (j : Nat) : a + 1 + j = a + (j + 1) := by omega
    have tail : memReadRun m (a + 1) n = .error (a + 1 + i) :=
      ih (Nat.lt_of_succ_lt_succ hi) (shift i ▸ hnone) fun j hj => shift j ▸ hbefore (j + 1) (Nat.succ_lt_succ hj)
    rw [memReadRun, here, tail, shift]
    rfl

/-- IMG_MEM is read up to its first byte that nothing has written (assumption log 5). -/
theorem image_of_first_unwritten {s : State} {i : Nat} (hi : i < 2756) (hnone : s.memByte .imgMem i = none)
    (hbefore : ∀ j < i, s.memByte .imgMem j ≠ none) : s.image = .error (0x3000 + i) :=
  memReadRun_first_unwritten hi hnone hbefore

/-- A conversion of an accepted geometry makes no buffer where the image is not read whole (I4). -/
theorem panelBuffer_error {s : State} {a : Nat} (hg : s.geometry ≠ .unsupported) (hi : s.image = .error a) :
    s.panelBuffer = .error a := by
  rw [State.panelBuffer, hi]
  cases h : s.geometry with
  | native => rfl
  | transposed => rfl
  | unsupported => exact absurd h hg

theorem convertStep_fault {s : State} {a : Nat} (h : s.panelBuffer = .error a) (k : Bool) :
    convertStep k s = .fault (.unwrittenByte a) := by
  rw [convertStep_eq_panelBuffer, h]

/-! ### The step that stops -/

/-- Where the engine's step from the sequencer's place is a fault, so is the run of that one clock. -/
theorem runFrom_tick_fault {s : State} {u : MicroOp} {f : Fault} {rest : List ClockIn} (hu : s.microOp = some u)
    (hp : s.port = none) (h : engineStep (s.quiet rest) = .fault f) : runFrom 1 (tickIn :: rest) s = .fault f := by
  have stop : Sys2Proof.core.step { s with inputs := tickIn :: rest } = .fault f :=
    (step_tick (running_of_microOp hu) hp).trans h
  simp only [runFrom, Host.Core.run, stop]
  rfl

/-- A stream stops at the address of its next byte where nothing has written it (I4). -/
theorem engineStep_stream_fault {s : State} {m : BlockMem} {n : Nat} (hu : s.microOp = some (.stream m n))
    (hb : s.memByte m s.seqI = none) : engineStep s = .fault (.unwrittenByte (memBase m + s.seqI)) := by
  simp [engineStep, engineAct, hu, actOf, hb]

theorem engineStep_convert {s : State} {k : Bool} (hu : s.microOp = some (.convert k)) :
    engineStep s = convertStep k s := by
  simp [engineStep, engineAct, hu, actOf]

/-- Settles O47: the stream reads its next byte in that step, and CONVERT reads the image from its first byte on. -/
theorem unwrittenBytesStopTheEngine : Obligations.UnwrittenBytesStopTheEngine := by
  refine ⟨fun s m n rest hu hp hb => runFrom_tick_fault hu hp ?_,
    fun s k i rest hu hp hg hi hnone hbefore => runFrom_tick_fault hu hp ?_⟩
  · exact engineStep_stream_fault ((microOp_quiet rest s).trans hu) hb
  · rw [engineStep_convert ((microOp_quiet rest s).trans hu)]
    exact convertStep_fault (s := s.quiet rest) (panelBuffer_error hg (image_of_first_unwritten hi hnone hbefore)) k

end Sys2Proof.Machine
end

section
/-! Where the lists busy-wait on the panel (O28). One pass down a list checks each micro-operation against the one before it
(R192); a list that passes has its WaitReadys at exactly the places the rule names. -/

namespace Sys2Proof.Machine

/-- The micro-operation sends one of the three command bytes that the block waits after: power-on, refresh, power-off
(R192). -/
def awaitsPanel (u : MicroOp) : Bool := u == .cmd 0x04 || u == .cmd 0x12 || u == .cmd 0x02

/-- WaitReady stands in the list exactly after what awaits the panel; `due` says that one must stand first, because what
comes before the list awaits the panel. -/
def waitsWhereDue (due : Bool) : List MicroOp → Bool
  | [] => !due
  | u :: us => (u == .wait) == due && waitsWhereDue (awaitsPanel u) us

theorem any_awaitsPanel (o : Option MicroOp) :
    o.any awaitsPanel = true ↔ o = some (.cmd 0x04) ∨ o = some (.cmd 0x12) ∨ o = some (.cmd 0x02) := by
  cases o with
  | none => simp
  | some u => simp [awaitsPanel, or_assoc]

theorem waitsWhereDue_cons {due : Bool} {u : MicroOp} {us : List MicroOp} :
    waitsWhereDue due (u :: us) = true ↔ (u = .wait ↔ due = true) ∧ waitsWhereDue (awaitsPanel u) us = true := by
  rw [waitsWhereDue, Bool.and_eq_true, beq_iff_eq, Bool.eq_iff_iff, beq_iff_eq]

theorem wait_first_iff {due : Bool} {us : List MicroOp} (h : waitsWhereDue due us = true) :
    us[0]? = some .wait ↔ due = true := by
  cases us with
  | nil => simpa [waitsWhereDue] using h
  | cons u us => simpa using (waitsWhereDue_cons.1 h).1

theorem wait_next_iff {due : Bool} {us : List MicroOp} (h : waitsWhereDue due us = true) (n : Nat) :
    us[n + 1]? = some .wait ↔ us[n]?.any awaitsPanel = true := by
  induction us generalizing due n with
  | nil => simp
  | cons u us ih =>
    have tail : waitsWhereDue (awaitsPanel u) us = true := (waitsWhereDue_cons.1 h).2
    cases n with
    | zero => simpa using wait_first_iff tail
    | succ n => simpa using ih tail n

theorem waitsWhereDue_displayOps (l : Bool) : waitsWhereDue false (displayOps l) = true := by cases l <;> rfl

/-- The list of whatever command runs waits on the panel where R192 has it, and nowhere else. -/
theorem waitsWhereDue_ops (s : State) : waitsWhereDue false s.ops = true := by
  unfold State.ops
  cases s.seqOp with
  | idle => rfl
  | init => rfl
  | clear => rfl
  | display => exact waitsWhereDue_displayOps s.seqL
  | sleep => rfl
  | getbuffer => rfl

/-- Settles O28: the running list passes the check, so no WaitReady opens it and each next place holds one exactly after the
three bytes. -/
theorem busyWaitAfterThreeCommands : Obligations.BusyWaitAfterThreeCommands := by
  intro s
  have placed := waitsWhereDue_ops s
  exact ⟨fun first => Bool.false_ne_true ((wait_first_iff placed).1 first),
    fun n => (wait_next_iff placed n).trans (any_awaitsPanel s.ops[n]?)⟩

end Sys2Proof.Machine
end

section
/-! The acceptance of a CMD write (60_exceptions.md): the checks of R215 in their order (O5), the start of each host command
(O6), and ERR_STATE outside READY (O7). -/

namespace Sys2Proof.Machine

/-! ### The checks on the command (R215 checks 4 and 5) -/

/-- The code with which the block turns away a legal command while none runs: CLEAR, DISPLAY and SLEEP need READY (R212),
INIT needs 30 LUT bytes (R121), and GETBUFFER needs nothing (R151). -/
def checkRefusal (op : SeqOp) (s : State) : Option Byte :=
  match op with
  | .idle => none
  | .init => lutRefusal s
  | .clear => stateRefusal s
  | .display => stateRefusal s
  | .sleep => stateRefusal s
  | .getbuffer => none

/-- Check 4 stands before check 5. -/
theorem checkRefusal_eq (op : SeqOp) (s : State) :
    checkRefusal op s =
      if (op = .clear ∨ op = .display ∨ op = .sleep) ∧ s.lifecycle ≠ .ready then some codeState
      else if op = .init ∧ s.lutLen ≠ 30 then some codeLutLength
      else none := by
  cases op <;> simp [checkRefusal, stateRefusal, lutRefusal]

/-- A CMD write of a legal byte is the acceptance of the command and the fields that its bits name (R71 to R74). -/
theorem hostWrite_legal {v : Byte} (hv : v ∈ legalBytes) (s : State) :
    hostWrite 0x0000 v s =
      accept (opOfBits (cmdOp v)) (v.getLsbD 3) (v.getLsbD 4) (checkRefusal (opOfBits (cmdOp v)) s) s := by
  simp only [legalBytes, List.mem_cons, List.not_mem_nil, or_false] at hv
  rcases hv with rfl | rfl | rfl | rfl | rfl | rfl | rfl <;> exact (hostWrite_cmd rfl s).trans rfl

/-- Settles O5: check 1 drops the byte, check 3 refuses an illegal one, and the acceptance of a legal one makes checks 4
and 5 and starts the command. -/
theorem acceptanceFollowsTheCheckOrder : Obligations.AcceptanceFollowsTheCheckOrder := by
  intro v s
  refine ⟨0, ?_⟩
  split_ifs with running legal outsideReady lutLength
  · exact writesWhileRunningAreDropped 0x0000 v s running
  all_goals have idle : s.running = false := Bool.eq_false_iff.2 running
  · rw [hostWrite_legal legal, checkRefusal_eq, if_pos outsideReady]
    exact accept_refused idle
  · rw [hostWrite_legal legal, checkRefusal_eq, if_neg outsideReady, if_pos lutLength]
    exact accept_refused idle
  · rw [hostWrite_legal legal, checkRefusal_eq, if_neg outsideReady, if_neg lutLength]
    exact accept_started idle
  · exact hostWrite_illegal legal idle

/-! ### Each command -/

/-- Settles O6: with its check passed each command is started, and GETBUFFER has no check. -/
theorem hostCommandsStart : Obligations.HostCommandsStart := fun _ idle =>
  ⟨execInit_started idle, accept_in_ready idle, fun _ => accept_in_ready idle, accept_in_ready idle,
    fun d => execGetbuffer_started idle d⟩

/-- Outside READY, check 4 turns a command away (R212). -/
theorem accept_outside_ready {op : SeqOp} {l d : Bool} {s : State} (hr : s.running = false) (hl : s.lifecycle ≠ .ready) :
    accept op l d (stateRefusal s) s = .next (s.reject codeState) := by
  rw [stateRefusal, if_neg hl]
  exact accept_refused hr

/-- Settles O7: the four bytes are legal, and CLEAR, both forms of DISPLAY and SLEEP stand under check 4. -/
theorem commandOutsideReadyIsErrState : Obligations.CommandOutsideReadyIsErrState := by
  rintro s idle outside v (rfl | rfl | rfl | rfl) <;>
    exact (hostWrite_legal (by decide) s).trans (accept_outside_ready idle outside)

end Sys2Proof.Machine
end

section
/-! Where a step stops (O46): part by part of a clock, only at a byte of a block memory that nothing has written (I4). -/

namespace Sys2Proof.Machine

/-- The outcome is a next state, or the fault of a block memory's byte that `m` does not hold. -/
def StopsAtUnwritten (m : Memory) : Out → Prop
  | .next _ => True
  | .fault f => ∃ a, f = .unwrittenByte a ∧ memRead m a = none ∧ isStored a = true
  | .refused _ => False

theorem stopsAtUnwritten_hostClock (c : ClockIn) (s : State) : StopsAtUnwritten s.mem (hostClock c s) := by
  cases h : hostClock c s with
  | next t => trivial
  | fault f => exact hostClock_fault h
  | refused q => exact absurd h (hostClock_not_refused c s q)

/-- An engine step stops inside a conversion, which reads IMG_MEM, or at a stream, whose index is inside its memory. -/
theorem stopsAtUnwritten_engineStep {s : State} (h : s.Inv) (hr : s.running = true) (hp : s.port = none) :
    StopsAtUnwritten s.mem (engineStep s) := by
  obtain ⟨u, hu, inside⟩ := h.placed hr
  rcases engineStep_cases hu hp with ⟨_, _, -, -, -, -, hs⟩ | ⟨_, _, -, -, hs⟩ | ⟨_, _, -, hs⟩ |
      ⟨a, unwritten, stored, hs⟩ | ⟨m, n, rfl, unwritten, hs⟩ <;> rw [hs]
  case inr.inr.inr.inl => exact ⟨a, rfl, unwritten, stored⟩
  case inr.inr.inr.inr =>
    have whole : n = memSize m := by simpa [opListed] using microOp_listed hu
    have index : s.seqI < n := by simpa [indexOk] using inside
    exact ⟨_, rfl, unwritten, isStored_base m (whole ▸ index)⟩
  all_goals trivial

theorem stopsAtUnwritten_engineClock {s : State} (h : s.Inv) (hr : s.running = true) (c : ClockIn) :
    StopsAtUnwritten s.mem (engineClock c s) := by
  rcases engineClock_cases c s with hs | ⟨_, -, -, hs⟩ | ⟨hp, -, hs⟩ <;> rw [hs]
  · trivial
  · trivial
  · exact stopsAtUnwritten_engineStep h hr hp

/-- The engine's part of a clock comes after the host's, which leaves the memories of a running command and the invariant. -/
theorem stopsAtUnwritten_clock {s : State} (h : s.Inv) (c : ClockIn) : StopsAtUnwritten s.mem (clock c s) := by
  have host := stopsAtUnwritten_hostClock c s
  unfold clock
  split
  · trivial
  · cases hh : hostClock c s with
    | fault f => rwa [hh] at host
    | refused q => rwa [hh] at host
    | next v =>
      cases hr : s.running with
      | false => trivial
      | true =>
        have touch : HostTouch s v := hostClock_touch hr hh
        have engine := stopsAtUnwritten_engineClock (inv_hostTouch touch h) ((hostTouch_running touch).trans hr) c
        rwa [(samePlace_hostTouch touch).mem] at engine

/-- Settles O46: a step is a clock on the state with its input taken, which has the same memories. -/
theorem onlyUnwrittenBytesStopTheBlock : Obligations.OnlyUnwrittenBytesStopTheBlock := by
  intro s h
  have key : StopsAtUnwritten s.mem (step s) := stopsAtUnwritten_clock (inv_popInput h) s.nextInput
  refine ⟨fun f hf => ?_, fun q hq => ?_⟩
  · rw [hf] at key
    obtain ⟨a, rfl, unwritten, stored⟩ := key
    exact ⟨a, rfl, unwritten, (memoryAddr_eq_isStored a).trans stored⟩
  · rw [hq] at key
    exact key

end Sys2Proof.Machine
end

section
/-! A host write in the clock of END, and block reset against the clock's other inputs (O45). -/

namespace Sys2Proof.Machine

/-- A clock in which the host writes to a writable address while a command runs: the write is dropped, and the engine takes
its part (R56, R216). -/
theorem step_dropped_write {a : Addr} {s : State} (hr : s.running = true) (ha : writableAddr a.toNat = true) (v : Byte)
    (rest : List ClockIn) :
    step { s with inputs := writeIn a v :: rest } = engineClock (writeIn a v) (s.quiet rest).dropWrite := by
  have dropped : hostWrite a v (s.quiet rest) = .next (s.quiet rest).dropWrite :=
    (writesWhileRunningAreDropped a v (s.quiet rest) hr).trans (congrArg Host.Outcome.next (if_pos ha))
  calc step { s with inputs := writeIn a v :: rest }
      = andThen (hostClock (writeIn a v) (s.setInputs rest)) (engineIf s.running (writeIn a v)) := step_no_reset rfl rfl
    _ = andThen (hostWrite a v (s.quiet rest)) (engineIf s.running (writeIn a v)) := by
        rw [hostClock_write_alone rfl rfl]; rfl
    _ = engineClock (writeIn a v) (s.quiet rest).dropWrite := by rw [dropped, hr]; rfl

/-- Settles O45: the write is judged against the running command and dropped, and END is the engine's part of the clock;
block reset is the first thing a clock looks at. -/
theorem writeInTheClockOfEndIsDropped : Obligations.WriteInTheClockOfEndIsDropped := by
  refine ⟨fun s a v code st rest hu hp ha => ?_, fun s c hc hrst => ?_⟩
  · have place : SamePlace s (s.quiet rest).dropWrite := samePlace_trans (samePlace_quiet rest s) (samePlace_dropWrite _)
    have ends : engineStep (s.quiet rest).dropWrite = .next ((s.quiet rest).dropWrite.finish code st) :=
      engineStep_finish ((microOp_congr place).trans hu)
    have one : step { s with inputs := writeIn a v :: rest } = .next ((s.quiet rest).dropWrite.finish code st) :=
      (step_dropped_write (running_of_microOp hu) ha v rest).trans
        ((engineClock_tick (s := (s.quiet rest).dropWrite) hp rfl).trans ends)
    exact runFrom_succ (n := 0) one
  · subst hc
    exact (step_eq s).trans (clock_reset hrst)

end Sys2Proof.Machine
end

section
/-! Block reset (O49): what it sets, what it does not look at, and the answer that finds no request. -/

namespace Sys2Proof.Machine

theorem memByte_blockReset (s : State) (m : BlockMem) (i : Nat) : s.blockReset.memByte m i = none := memRead_nil _

/-- With no request outstanding block reset abandons none, and the trace stays. -/
theorem abandonedLog_free {s : State} (hp : s.port = none) : abandonedLog s = s.log := by
  rw [abandonedLog, hp]

theorem tReq_free {s : State} (hp : s.port = none) : s.tReq = false := by
  rw [State.tReq, hp]
  rfl

/-- The host's part of a clock does not look at the transport's inputs. -/
theorem hostClock_tDone (c : ClockIn) (d : Bool) (s : State) : hostClock { c with tDone := d } s = hostClock c s := rfl

/-- With no request outstanding the engine's part of a clock does not look at `t_done` (R230). -/
theorem engineClock_tDone_free {s : State} (hp : s.port = none) (c : ClockIn) (d : Bool) :
    engineClock { c with tDone := d } s = engineClock c s := by
  simp [engineClock, hp]

/-- A clock with no request outstanding does not look at `t_done` (R230): while a command runs, the host raises none. -/
theorem clock_tDone_free {s : State} (hp : s.port = none) (c : ClockIn) (d : Bool) :
    clock { c with tDone := d } s = clock c s := by
  unfold clock
  rw [hostClock_tDone]
  split
  · rfl
  · cases hh : hostClock c s with
    | fault f => rfl
    | refused q => rfl
    | next v =>
      cases hr : s.running with
      | false => rfl
      | true =>
        have hv : v.port = none := by rw [(hostClock_touch hr hh).eq]; exact hp
        exact engineClock_tDone_free hv c d

/-- Settles O49: a step under `rst` is block reset, whatever else its input holds; and a stray `t_done` is not looked at. -/
theorem blockReset : Obligations.BlockReset := by
  refine ⟨fun s hrst => ?_, fun s c hp => (clock_tDone_free hp c true).trans (clock_tDone_free hp c false).symm⟩
  have hs : step s = .next s.popInput.blockReset := (step_eq s).trans (clock_reset hrst)
  exact ⟨s.popInput.blockReset, hs, rfl, rfl, rfl, rfl, rfl, rfl, rfl, rfl, rfl, rfl, rfl, tReq_free rfl, rfl,
    memByte_blockReset s.popInput, rfl, fun hp => abandonedLog_free (s := s.popInput) hp⟩

end Sys2Proof.Machine
end

section
/-! Runs of host programs: their block under the inputs they give it (O54), their end and what is observed there (O55). -/

namespace Sys2Proof.Machine

/-! ### The block of a run (O54) -/

/-- The inputs of the clock after `n` clocks of a run that has not stopped. -/
theorem env_of_runProgram {beats : Nat → Beat} {n : Nat} {r u : HostRun} (h : runProgram beats n r = .next u) :
    r.env beats n = u.input (beats n) := by
  rw [HostRun.env, h]

/-- The block of a run is the block under the run's inputs. -/
theorem runEnv_of_runProgram {beats : Nat → Beat} {n : Nat} {r u : HostRun} (h : runProgram beats n r = .next u) :
    runEnv (r.env beats) n r.block = .next u.block := by
  induction n generalizing u with
  | zero => cases h; rfl
  | succ n ih =>
    obtain ⟨w, hw, hu⟩ := runProgram_succ_inv h
    rw [runEnv_succ (ih hw), env_of_runProgram hw]
    exact (hostRun_clock_cases hu).1

theorem block_take (b : Beat) (r : HostRun) (t : State) : (r.take b t).block = t := by
  unfold HostRun.take
  split <;> rfl

/-- Where the block goes on under a run's inputs, the run goes on. -/
theorem runProgram_of_runEnv {beats : Nat → Beat} {n : Nat} {r : HostRun} {t : State}
    (h : runEnv (r.env beats) n r.block = .next t) : ∃ u, runProgram beats n r = .next u ∧ u.block = t := by
  induction n generalizing t with
  | zero => cases h; exact ⟨r, rfl, rfl⟩
  | succ n ih =>
    obtain ⟨v, hv, ht⟩ := runEnv_succ_inv h
    obtain ⟨w, hw, rfl⟩ := ih hv
    rw [env_of_runProgram hw] at ht
    exact ⟨w.take (beats n) t, (runProgram_succ hw).trans (hostRun_clock_next ht), block_take _ _ _⟩

/-- Settles O54, by induction on the clocks in each direction. -/
theorem programRunIsARunOfTheBlock : Obligations.ProgramRunIsARunOfTheBlock := fun _ _ _ =>
  ⟨fun _ => runEnv_of_runProgram, fun _ => runProgram_of_runEnv⟩

/-! ### The end of a run (O55) -/

/-- In a quiescent state the views agree: SEQ.OP is IDLE where RUNNING is 0, and `t_req` is 0 where the port is free (R31, R33,
R90). -/
theorem quiescent_iff (s : State) :
    Quiescent s ↔ s.running = false ∧ s.seqOp = .idle ∧ s.tReq = false ∧ s.port = none :=
  ⟨fun ⟨hr, hp⟩ => ⟨hr, (not_running_iff s).1 hr, tReq_free hp, hp⟩, fun ⟨hr, _, _, hp⟩ => ⟨hr, hp⟩⟩

/-- Settles O55: the observation's fields are what reads give; no conversion runs at the end, so a memory's byte is the one
written there. -/
theorem runEndsQuiescent : Obligations.RunEndsQuiescent := by
  intro r
  obtain ⟨status, result, lutLen, imgWLo, imgWHi, imgHLo, imgHHi, cell⟩ := readsReturnTheCurrentByte r.block
  refine ⟨and_congr_right' (quiescent_iff r.block), status, result, lutLen, imgWLo, imgWHi, imgHLo, imgHHi,
    fun hend m i x hi hx => ?_, List.reverse_reverse _⟩
  obtain ⟨-, hr, -⟩ := hend
  have hop : r.block.seqOp = .idle := (not_running_iff r.block).1 hr
  have hbyte : r.block.memByte m i = some x := hx
  rw [cell m i hi, if_neg (by simp [hop]), hbyte]

end Sys2Proof.Machine
end

section
/-! How a running command goes on (O58): an endless run comes nearer to its end finitely often only, so it is stuck on a
request, or from some clock on it stays inside one WaitReady. -/

namespace Sys2Proof.Machine

/-! ### A request inside a WaitReady -/

/-- Inside a WaitReady the outstanding request is the one its index issues (R110). -/
theorem State.Inv.port_wait {s : State} (h : s.Inv) (hm : s.microOp = some .wait) (hp : s.port ≠ none) :
    s.port = some (waitRequest s.seqI) := by
  obtain ⟨r, hr⟩ := Option.ne_none_iff_exists'.1 hp
  obtain ⟨i, ha, hi⟩ := h.issued r hr
  have hact : actOf s .wait = .ok (.run i) := by simpa [engineAct, hm] using ha
  rw [hr, ← hi, waitRequest]
  by_cases hz : s.seqI = 0
  · obtain rfl : Instr.pinRead .busy = i := by simpa [actOf, hz] using hact
    rw [if_pos hz]; rfl
  · obtain rfl : Instr.delay Config.pollMs = i := by simpa [actOf, hz] using hact
    rw [if_neg hz]; rfl

theorem waitRequest_eq_poll {i : Nat} : waitRequest i = .pinRead .busy ↔ i = 0 := by
  unfold waitRequest
  split <;> simp [*]

/-! ### Endless runs -/

theorem inv_runEnv {env : Nat → ClockIn} {s t : State} (h : s.Inv) {n : Nat} (ht : runEnv env n s = .next t) : t.Inv := by
  induction n generalizing t with
  | zero => cases ht; exact h
  | succ n ih =>
    obtain ⟨u, hu, hc⟩ := runEnv_succ_inv ht
    exact inv_clock (ih hu) hc

/-- A run whose command never ends: in clock `n` the block is in `run n`. -/
structure Endless (env : Nat → ClockIn) (s : State) (run : Nat → State) : Prop where
  runs : ∀ n, runEnv env n s = .next (run n)
  inv : ∀ n, (run n).Inv
  running : ∀ n, (run n).running = true
  noReset : ∀ n, (env n).rst = false

/-- A run that no clock stops is endless where it comes to no quiescent state: block reset would leave one, and so would a
command's end. -/
theorem quiescent_or_endless {env : Nat → ClockIn} {s : State} (hi : s.Inv) (stops : NeverStops env s) :
    (∃ n t, runEnv env n s = .next t ∧ Quiescent t) ∨ ∃ run, Endless env s run := by
  by_cases hq : ∃ n t, runEnv env n s = .next t ∧ Quiescent t
  · exact .inl hq
  · choose run runs using stops
    have active : ∀ n, ¬Quiescent (run n) := fun n h => hq ⟨n, _, runs n, h⟩
    have inv : ∀ n, (run n).Inv := fun n => inv_runEnv hi (runs n)
    refine .inr ⟨run, runs, inv, fun n => ?_, fun n => ?_⟩
    · by_contra hr
      rw [Bool.not_eq_true] at hr
      exact active n ⟨hr, (inv n).port_idle hr⟩
    · by_contra hr
      rw [Bool.not_eq_false] at hr
      have hnext : run (n + 1) = (run n).blockReset := by
        have := (runs (n + 1)).symm.trans ((runEnv_succ (runs n)).trans (clock_reset hr))
        simpa using this
      exact active (n + 1) (hnext ▸ ⟨rfl, rfl⟩)

section
variable {env : Nat → ClockIn} {s : State} {run : Nat → State}

theorem Endless.clock (h : Endless env s run) (n : Nat) : Machine.clock (env n) (run n) = .next (run (n + 1)) :=
  (runEnv_succ (h.runs n)).symm.trans (h.runs (n + 1))

theorem Endless.progress (h : Endless env s run) (n : Nat) : Progress (env n) (run n) (run (n + 1)) :=
  clock_progress (h.inv n) (h.running n) (h.noReset n) (h.clock n)

theorem Endless.not_quiescent (h : Endless env s run) (n : Nat) : ¬Quiescent (run n) := fun ⟨idle, _⟩ => by
  simp [h.running n] at idle

/-- A clock that does not bring what the block waits for is the host's touch alone. -/
theorem Endless.held (h : Endless env s run) {n : Nat} (hn : awaited (run n).port (env n) = false) :
    HostTouch (run n) (run (n + 1)) :=
  clock_held (h.running n) (h.noReset n) hn (h.clock n)

/-- An endless run never goes back. -/
theorem Endless.remaining_antitone (h : Endless env s run) : Antitone fun n => (run n).remaining := by
  refine antitone_nat_of_succ_le fun n => ?_
  cases h.progress n with
  | held _ place => exact (remaining_congr place).le
  | raised _ _ place => exact (remaining_congr place).le
  | polled _ _ _ _ same => exact same.le
  | nearer _ _ less => exact less.le
  | ended quiet => exact absurd quiet (h.not_quiescent (n + 1))

/-- So from some clock on it comes no nearer to its end. -/
theorem Endless.no_nearer_from (h : Endless env s run) :
    ∃ N, ∀ n, N ≤ n → (run n).remaining ≤ (run (n + 1)).remaining :=
  ⟨Function.argmin fun n => (run n).remaining, fun n hn =>
    (h.remaining_antitone hn).trans (Function.argmin_le (fun n => (run n).remaining) (n + 1))⟩

/-- A request that is never answered makes an endless run stuck: it is outstanding for ever. -/
theorem Endless.stuck (h : Endless env s run) {n : Nat} (hp : (run n).port ≠ none)
    (never : ∀ m, n ≤ m → (env m).tDone = false) : Stuck env s := by
  obtain ⟨r, hr⟩ := Option.ne_none_iff_exists'.1 hp
  have out : ∀ m, n ≤ m → (run m).port = some r := fun m hm => by
    induction m, hm using Nat.le_induction with
    | base => exact hr
    | succ m hm ih =>
      have touch : HostTouch (run m) (run (m + 1)) := h.held (by rw [ih]; exact never m hm)
      rw [touch.eq]
      exact ih
  exact ⟨n, r, fun m hm => ⟨never m hm, run m, h.runs m, h.running m, out m hm⟩⟩

/-! ### An endless run in which every request is answered -/

variable (h : Endless env s run) (fair : WeaklyFair env)
  (answers : ∀ n, (run n).port ≠ none → ∃ m, n ≤ m ∧ (env m).tDone = true)
include h fair answers

/-- What the block waits for comes, and until then the host alone touches it. -/
theorem Endless.awaited_comes (n : Nat) :
    ∃ m, n ≤ m ∧ HostTouch (run n) (run m) ∧ awaited (run m).port (env m) = true := by
  obtain ⟨m, hm, ha⟩ : ∃ m, n ≤ m ∧ awaited (run n).port (env m) = true := by
    cases hp : (run n).port with
    | none => exact fair n
    | some r => exact answers n (by simp [hp])
  obtain ⟨d, rfl⟩ := Nat.exists_eq_add_of_le hm
  clear hm
  induction d generalizing n with
  | zero => exact ⟨n, le_rfl, hostTouch_refl _, ha⟩
  | succ d ih =>
    cases hnow : awaited (run n).port (env n) with
    | true => exact ⟨n, le_rfl, hostTouch_refl _, hnow⟩
    | false =>
      have touch := h.held hnow
      have port : (run (n + 1)).port = (run n).port := by rw [touch.eq]
      obtain ⟨m, hm, later, hma⟩ := ih (n + 1) (by rwa [port, Nat.succ_add_eq_add_succ])
      exact ⟨m, n.le_succ.trans hm, hostTouch_trans touch later, hma⟩

variable {N : Nat} (stalled : ∀ n, N ≤ n → (run n).remaining ≤ (run (n + 1)).remaining)
include stalled

/-- Where the run comes no nearer to its end and no request is outstanding, the next one is raised. -/
theorem Endless.raises {n : Nat} (hn : N ≤ n) (hp : (run n).port = none) :
    ∃ m, n ≤ m ∧ SamePlace (run n) (run m) ∧ (run m).port ≠ none := by
  obtain ⟨m, hm, touch, ha⟩ := h.awaited_comes fair answers n
  have free : (run m).port = none := by rw [touch.eq]; exact hp
  cases h.progress m with
  | held idle => exact absurd ha (Bool.eq_false_iff.1 idle)
  | raised _ _ place port => exact ⟨m + 1, hm.trans m.le_succ, samePlace_trans (samePlace_hostTouch touch) place, port⟩
  | polled out => exact absurd free out
  | nearer _ _ less => exact absurd less (not_lt.2 (stalled m (hn.trans hm)))
  | ended quiet => exact absurd quiet (h.not_quiescent (m + 1))

/-- Where it comes no nearer to its end, the next answer is one that a WaitReady goes on after: it takes the other index. -/
theorem Endless.answered_inside {n : Nat} (hn : N ≤ n) :
    ∃ m, n ≤ m ∧ SamePlace (run n) (run m) ∧ (run m).microOp = some .wait ∧ (run m).port ≠ none ∧
      (env m).tDone = true ∧ (run (m + 1)).seqI = if (run m).seqI = 0 then 1 else 0 := by
  obtain ⟨k, hk, place, port⟩ : ∃ k, n ≤ k ∧ SamePlace (run n) (run k) ∧ (run k).port ≠ none := by
    by_cases hp : (run n).port = none
    · exact h.raises fair answers stalled hn hp
    · exact ⟨n, le_rfl, samePlace_hostTouch (hostTouch_refl _), hp⟩
  obtain ⟨m, hm, touch, ha⟩ := h.awaited_comes fair answers k
  have out : (run m).port ≠ none := by rw [touch.eq]; exact port
  cases h.progress m with
  | held idle => exact absurd ha (Bool.eq_false_iff.1 idle)
  | raised free => exact absurd free out
  | polled _ done inside _ _ _ index =>
    exact ⟨m, hk.trans hm, samePlace_trans place (samePlace_hostTouch touch), inside, out, done, index⟩
  | nearer _ _ less => exact absurd less (not_lt.2 (stalled m ((hn.trans hk).trans hm)))
  | ended quiet => exact absurd quiet (h.not_quiescent (m + 1))

/-- So it stands inside a WaitReady. -/
theorem Endless.inside_wait {n : Nat} (hn : N ≤ n) : (run n).microOp = some .wait := by
  obtain ⟨m, -, place, inside, -⟩ := h.answered_inside fair answers stalled hn
  exact (microOp_congr place).symm.trans inside

/-- There WAITING, once it is 1, stays 1. -/
theorem Endless.waiting_stays {n m : Nat} (hn : N ≤ n) (hw : (run n).waiting = true) (hm : n ≤ m) :
    (run m).waiting = true := by
  induction m, hm using Nat.le_induction with
  | base => exact hw
  | succ m hm ih =>
    cases h.progress m with
    | held _ _ _ same => exact same.trans ih
    | raised _ _ _ _ waits => exact (waits (h.inside_wait fair answers stalled (hn.trans hm))).1
    | polled _ _ _ _ _ _ _ same => exact same.trans ih
    | nearer _ _ less => exact absurd less (not_lt.2 (stalled m (hn.trans hm)))
    | ended quiet => exact absurd quiet (h.not_quiescent (m + 1))

/-- After every clock another poll is answered: the next answer is a poll's, or the one after it is. -/
theorem Endless.poll_answered {n : Nat} (hn : N ≤ n) :
    ∃ m, n ≤ m ∧ (run m).port = some (.pinRead .busy) ∧ (env m).tDone = true := by
  obtain ⟨m, hm, -, inside, out, done, index⟩ := h.answered_inside fair answers stalled hn
  by_cases hz : (run m).seqI = 0
  · exact ⟨m, hm, by rw [(h.inv m).port_wait inside out, hz, waitRequest_zero], done⟩
  · rw [if_neg hz] at index
    obtain ⟨k, hk, place, inside, out, done, -⟩ :=
      h.answered_inside fair answers stalled ((hn.trans hm).trans m.le_succ)
    have hi : (run k).seqI = 0 := place.seqI.trans index
    exact ⟨k, (hm.trans m.le_succ).trans hk, by rw [(h.inv k).port_wait inside out, hi, waitRequest_zero], done⟩

/-- An endless run in which every request is answered is a hang, from its first answer inside that WaitReady on. -/
theorem Endless.hang : Hang env s := by
  obtain ⟨K, hK, -, inside, out, -⟩ := h.answered_inside fair answers stalled le_rfl
  have shown : (run K).waiting = true := (h.inv K).waitsShown inside (.inl out)
  refine ⟨K, fun m hm => ⟨run m, h.runs m, h.running m, h.waiting_stays fair answers stalled hK shown hm⟩, fun m hm => ?_⟩
  obtain ⟨k, hk, port, done⟩ := h.poll_answered fair answers stalled (hK.trans hm)
  exact ⟨k, run k, hk, h.runs k, port, done⟩

end

/-- A run without an end is a hang, or one of its requests is never answered. -/
theorem Endless.hang_or_stuck {env : Nat → ClockIn} {s : State} {run : Nat → State} (h : Endless env s run)
    (fair : WeaklyFair env) : Hang env s ∨ Stuck env s := by
  by_cases answers : ∀ n, (run n).port ≠ none → ∃ m, n ≤ m ∧ (env m).tDone = true
  · obtain ⟨N, stalled⟩ := h.no_nearer_from
    exact .inl (h.hang fair answers stalled)
  · push Not at answers
    obtain ⟨n, out, never⟩ := answers
    exact .inr (h.stuck out fun m hm => by simpa using never m hm)

/-! ### Runs that have no end (O58) -/

theorem running_of_hang_or_stuck {env : Nat → ClockIn} {s : State} (h : Hang env s ∨ Stuck env s) :
    ∃ n, ∀ m, n ≤ m → ∃ t, runEnv env m s = .next t ∧ t.running = true := by
  rcases h with ⟨n, waits, -⟩ | ⟨n, r, out⟩
  · exact ⟨n, fun m hm => (waits m hm).imp fun _ ⟨ht, hr, _⟩ => ⟨ht, hr⟩⟩
  · exact ⟨n, fun m hm => (out m hm).2.imp fun _ ⟨ht, hr, _⟩ => ⟨ht, hr⟩⟩

/-- A hang's polls are answered, and a stuck run's request is not. -/
theorem not_hang_and_stuck {env : Nat → ClockIn} {s : State} : ¬(Hang env s ∧ Stuck env s) := by
  rintro ⟨⟨n, -, polls⟩, k, r, out⟩
  obtain ⟨m, t, hm, -, -, done⟩ := polls (max n k) (le_max_left n k)
  obtain ⟨silent, -⟩ := out m ((le_max_right n k).trans hm)
  simp [done] at silent

/-- Settles O58: a run that comes to no quiescent state is endless, and that is a hang or stuck; in both RUNNING stays 1. -/
theorem commandEndsHangsOrIsStuck : Obligations.CommandEndsHangsOrIsStuck := by
  refine ⟨fun env s hi _ fair stops => ?_, fun env s => ⟨fun h => ?_, not_hang_and_stuck⟩⟩
  · exact (quiescent_or_endless hi stops).imp_right fun ⟨_, h⟩ => h.hang_or_stuck fair
  · obtain ⟨n, runs⟩ := running_of_hang_or_stuck h
    refine ⟨n, fun m hm t ht quiet => ?_⟩
    obtain ⟨u, hu, hr⟩ := runs m hm
    obtain rfl : u = t := by simpa [hu] using ht
    exact absurd quiet.1 (by simp [hr])

end Sys2Proof.Machine
end

section
/-! Under R244's premises a running command comes to its end (O59): they leave neither of the runs without one. -/

namespace Sys2Proof.Machine

/-- Where the transport answers every request, no run is stuck. -/
theorem TransportAnswers.not_stuck {env : Nat → ClockIn} {s : State} (answers : TransportAnswers env s) : ¬Stuck env s := by
  rintro ⟨n, r, out⟩
  obtain ⟨-, t, ht, -, hp⟩ := out n le_rfl
  obtain ⟨m, hm, -, done, -⟩ := answers n t r ht hp
  obtain ⟨silent, -⟩ := out m hm
  simp [done] at silent

/-- An idle answer to a poll that shows WAITING = 1 clears WAITING (R110). -/
theorem clock_idle_poll {c : ClockIn} {s t : State} (hi : s.Inv) (hw : s.waiting = true)
    (hp : s.port = some (.pinRead .busy)) (h0 : c.rst = false) (hd : c.tDone = true)
    (hx : c.tRsp.getLsbD 0 = Config.busyIdleLevel) (h : clock c s = .next t) : t.waiting = false := by
  have inside := hi.waitsInside hw
  have index : s.seqI = 0 := by
    have issued := hi.port_wait inside (by simp [hp])
    rw [hp, Option.some.injEq] at issued
    exact waitRequest_eq_poll.1 issued.symm
  obtain ⟨v, hv, ⟨hh, -⟩ | ⟨r, -, -, rfl⟩ | ⟨hn, -, -⟩⟩ := clock_running_cases (running_of_microOp inside) h0 h
  · simp [hp, hd] at hh
  · have place := samePlace_hostTouch hv
    rw [complete_idle ((microOp_congr place).trans inside) (place.seqI.trans index) hx]
    rfl
  · simp [hp] at hn

/-- Where every WaitReady reads idle at last, no run hangs. -/
theorem BusyEventuallyIdle.not_hang {env : Nat → ClockIn} {s : State} (hi : s.Inv) (idle : BusyEventuallyIdle env s) :
    ¬Hang env s := by
  rintro ⟨n, waits, -⟩
  obtain ⟨t, ht, -, hw⟩ := waits n le_rfl
  obtain ⟨m, u, hm, hu, hp, h0, hd, hx⟩ := idle n t ht hw
  have shown : ∀ k v, n ≤ k → runEnv env k s = .next v → v.waiting = true := fun k v hk hv => by
    obtain ⟨v', hv', -, hwv⟩ := waits k hk
    obtain rfl : v' = v := by simpa [hv'] using hv
    exact hwv
  obtain ⟨v, hv, -⟩ := waits (m + 1) (hm.trans m.le_succ)
  have cleared : v.waiting = false :=
    clock_idle_poll (inv_runEnv hi hu) (shown m u hm hu) hp h0 hd hx ((runEnv_succ hu).symm.trans hv)
  simp [shown (m + 1) v (hm.trans m.le_succ) hv] at cleared

/-- Settles O59: two of the premises rule out the runs without an end. -/
theorem commandsFinish : Obligations.CommandsFinish := by
  intro env s hi hr answers idle fair stops
  rcases commandEndsHangsOrIsStuck.1 env s hi hr fair stops with ends | hang | stuck
  · exact ends
  · exact absurd hang (BusyEventuallyIdle.not_hang hi idle)
  · exact absurd stuck answers.not_stuck

end Sys2Proof.Machine
end
